-- ==== Sys2Proof/Word.lean ====
section
/-! DEFINITION. The word types of the packet core and their plainest readings (spec 00_scope.md R15, R18). -/

namespace Sys2Proof

/-- `u8`, an unsigned byte (R18). -/
abbrev Byte := BitVec 8

/-- A 32-bit word: a command operand `s32` (R18, R73), a packet count or a tick (R15). -/
abbrev Word := BitVec 32

/-- A command word, 208 bits (30_encoding.md R70). -/
abbrev CommandWord := BitVec 208

/-- The low 8 bits of a number, as a byte. -/
def u8 (n : Nat) : Byte := BitVec.ofNat 8 n

end Sys2Proof
end

