-- ==== Sys2Proof/Syntax.lean ====
section
/-! DEFINITION. The 12 command-port operations (30_encoding.md R71), one constructor per row of the opcode table.
Operands stand in the order of the command word and keep their 32 bits; each meaning reads them as signed (R73). -/

namespace Sys2Proof

/-- A decoded command (30_encoding.md R71). -/
inductive Instr where
  | throttle (slot cab speed dir : Word)
  | functionShort (cab fByte : Word)
  | functionLong (cab fByte eByte : Word)
  | accessory (addr port activate : Word)
  /-- `args` are the operand words that `argc` says were supplied, at most the six a command word holds;
  the other words are don't-care (R70, R132). -/
  | rawPacket (argc : BitVec 4) (args : List Word)
  | readCv (cv cb cbSub : Word)
  | writeCvByte (cv value cb cbSub : Word)
  | writeCvBit (cv bit value cb cbSub : Word)
  | writeMainCvByte (cab cv value : Word)
  | writeMainCvBit (cab cv bit value : Word)
  | printLastPacket
  | printCapacity
deriving DecidableEq, Repr

end Sys2Proof
end

