-- ==== Sys2Proof/WellFormed.lean ====
section
/-! DEFINITION. Which terms of `Instr` a command word can say. Operand ranges are no part of it: the operations check
them when they run (30_encoding.md R73). -/

namespace Sys2Proof

/-- Every operand word has its 32 bits by type; only RAW_PACKET's list has a length to check: as many words as `argc`
says, at most the six of the word (30_encoding.md R70). -/
def Instr.wf : Instr → Bool
  | .rawPacket argc args => args.length == min argc.toNat 6
  | .throttle _ _ _ _ => true
  | .functionShort _ _ => true
  | .functionLong _ _ _ => true
  | .accessory _ _ _ => true
  | .readCv _ _ _ => true
  | .writeCvByte _ _ _ _ => true
  | .writeCvBit _ _ _ _ _ => true
  | .writeMainCvByte _ _ _ => true
  | .writeMainCvBit _ _ _ _ => true
  | .printLastPacket => true
  | .printCapacity => true

end Sys2Proof
end

