-- ==== Sys2Proof/Decode.lean ====
section
/-! DEFINITION. The command word (30_encoding.md R70 to R73): its fields, the decoder, total on every 208-bit word and
refusing by name, and the encoder, written from the same table. -/

namespace Sys2Proof

/-- Why a command word is no command (30_encoding.md R72). The block ignores such a word: this is no fault. -/
inductive DecodeError where
  /-- `rsv` is not 0. -/
  | reservedField
  /-- `opcode` outside 0x01..0x0B. -/
  | reservedOpcode
  /-- `argc` outside the operation's set. -/
  | wrongArgc
deriving DecidableEq, Repr

/-- Bits 7:0 (R70). -/
def opcodeOf (w : CommandWord) : BitVec 8 := w.extractLsb' 0 8

/-- Bits 11:8 (R70). -/
def argcOf (w : CommandWord) : BitVec 4 := w.extractLsb' 8 4

/-- Bits 15:12 (R70). -/
def rsvOf (w : CommandWord) : BitVec 4 := w.extractLsb' 12 4

/-- Operand word `i`, bits 47+32i:16+32i (R70). -/
def argOf (w : CommandWord) (i : Nat) : Word := w.extractLsb' (16 + 32 * i) 32

/-- The operand words a RAW_PACKET's `argc` supplies (R70, R132). -/
def rawArgs (w : CommandWord) : List Word :=
  ([0, 1, 2, 3, 4, 5].take (argcOf w).toNat).map (argOf w)

/-- The operation an opcode and an argument count select (R71). -/
def decodeOperation (opcode argc : Nat) (w : CommandWord) : Except DecodeError Instr :=
  match opcode with
  | 0x01 => if argc = 4 then .ok (.throttle (argOf w 0) (argOf w 1) (argOf w 2) (argOf w 3)) else .error .wrongArgc
  | 0x02 =>
    if argc = 2 then .ok (.functionShort (argOf w 0) (argOf w 1))
    else if argc = 3 then .ok (.functionLong (argOf w 0) (argOf w 1) (argOf w 2))
    else .error .wrongArgc
  | 0x03 => if argc = 3 then .ok (.accessory (argOf w 0) (argOf w 1) (argOf w 2)) else .error .wrongArgc
  | 0x04 => .ok (.rawPacket (argcOf w) (rawArgs w))
  | 0x05 => if argc = 3 then .ok (.readCv (argOf w 0) (argOf w 1) (argOf w 2)) else .error .wrongArgc
  | 0x06 =>
    if argc = 4 then .ok (.writeCvByte (argOf w 0) (argOf w 1) (argOf w 2) (argOf w 3)) else .error .wrongArgc
  | 0x07 =>
    if argc = 5 then .ok (.writeCvBit (argOf w 0) (argOf w 1) (argOf w 2) (argOf w 3) (argOf w 4))
    else .error .wrongArgc
  | 0x08 => if argc = 3 then .ok (.writeMainCvByte (argOf w 0) (argOf w 1) (argOf w 2)) else .error .wrongArgc
  | 0x09 =>
    if argc = 4 then .ok (.writeMainCvBit (argOf w 0) (argOf w 1) (argOf w 2) (argOf w 3)) else .error .wrongArgc
  | 0x0A => if argc = 0 then .ok .printLastPacket else .error .wrongArgc
  | 0x0B => if argc = 0 then .ok .printCapacity else .error .wrongArgc
  | _ => .error .reservedOpcode

/-- The decoder (R70 to R72). -/
def decode (w : CommandWord) : Except DecodeError Instr :=
  if rsvOf w ≠ 0 then .error .reservedField
  else decodeOperation (opcodeOf w).toNat (argcOf w).toNat w

/-- Operand words as one number, the first lowest. -/
def operandBits : List Word → Nat
  | [] => 0
  | a :: as => a.toNat + 2 ^ 32 * operandBits as

/-- A command word from its fields, `rsv` 0, operand words not given 0 (R70). -/
def packCommand (opcode argc : Nat) (args : List Word) : CommandWord :=
  BitVec.ofNat 208 (opcode + 2 ^ 8 * argc + 2 ^ 16 * operandBits args)

/-- The encoder: the command word of an operation (R71). -/
def encode : Instr → CommandWord
  | .throttle slot cab speed dir => packCommand 0x01 4 [slot, cab, speed, dir]
  | .functionShort cab fByte => packCommand 0x02 2 [cab, fByte]
  | .functionLong cab fByte eByte => packCommand 0x02 3 [cab, fByte, eByte]
  | .accessory addr port activate => packCommand 0x03 3 [addr, port, activate]
  | .rawPacket argc args => packCommand 0x04 argc.toNat args
  | .readCv cv cb cbSub => packCommand 0x05 3 [cv, cb, cbSub]
  | .writeCvByte cv value cb cbSub => packCommand 0x06 4 [cv, value, cb, cbSub]
  | .writeCvBit cv bit value cb cbSub => packCommand 0x07 5 [cv, bit, value, cb, cbSub]
  | .writeMainCvByte cab cv value => packCommand 0x08 3 [cab, cv, value]
  | .writeMainCvBit cab cv bit value => packCommand 0x09 4 [cab, cv, bit, value]
  | .printLastPacket => packCommand 0x0A 0 []
  | .printCapacity => packCommand 0x0B 0 []

/-- The command word whose low `nbits` bits are `w` and whose other bits are 0. -/
def commandWordOf (nbits w : Nat) : CommandWord := BitVec.ofNat 208 (w % 2 ^ nbits)

/-- What the decoder reads from the command word with bits `w`, the bits above `nbits` zero. -/
def decodeTableWord (nbits w : Nat) : Option Instr :=
  match decode (commandWordOf nbits w) with
  | .ok i => some i
  | .error _ => none

end Sys2Proof
end

