-- ==== Sys2Proof/Config.lean ====
section
/-! DEFINITION. What an implementation fixes: the constants of 00_scope.md R12 and R13, the parameters of section 4 of
that file, and the values the spec leaves OPEN, which are opaque constants with no body. -/

namespace Sys2Proof

/-- The two outputs of a base station, one block each (00_scope.md R4). -/
inductive Channel where
  | main
  | prog
deriving DecidableEq, Repr

/-- The other output. -/
def Channel.other : Channel → Channel
  | .main => .prog
  | .prog => .main

/-- The build's parameters of one block (00_scope.md R4, R9 to R17; 10_state.md R46). No step changes them
(notes/assumptions/1.md, DESIGN CHOICE: they stand in the state so that every claim holds for each value). -/
structure Params where
  /-- `CHANNEL` (R4). -/
  channel : Channel
  /-- `N`, the number of persistent slots, at least 1 (R9). -/
  n : Nat
  /-- `ACK_BASE_COUNT`, at least 1 (R10). -/
  ackBaseCount : Nat
  /-- `ACK_SAMPLE_THRESHOLD`, in probe units (R11). -/
  ackSampleThreshold : Nat
  /-- `CUR_MAX`, the largest sample (R15). -/
  curMax : Nat
  /-- `CURRENT_SAMPLE_MAX`, in mA (R14). -/
  currentSampleMax : Int
  /-- `PREAMBLE_BITS`, at least 10 (R16). -/
  preambleBits : Nat
  /-- `ACC_REV_DEFAULT` (R17). -/
  accRevDefault : Bool
  /-- `ACC_RESET` (10_state.md R46). -/
  accReset : Int
deriving DecidableEq, Repr

/-- The bounds the spec puts on parameters: `N ≥ 1` (R9), `ACK_BASE_COUNT ≥ 1` (R10), `PREAMBLE_BITS ≥ 10` (R16). -/
def Params.wf (q : Params) : Bool := 1 ≤ q.n && 1 ≤ q.ackBaseCount && 10 ≤ q.preambleBits

namespace Config

/-- `ACK_MIN` (R12). -/
def ackMin : Nat := 1125
/-- `ACK_MAX` (R12). -/
def ackMax : Nat := 2125
/-- `ACK_TIMEOUT_PACKETS` (R12). -/
def ackTimeoutPackets : Nat := 9
/-- `ACK_LINGER_PACKETS` (R12). -/
def ackLingerPackets : Nat := 3
/-- `PWR_WAIT_COLD` (R13). -/
def pwrWaitCold : Nat := 20
/-- `PWR_WAIT_WARM` (R13). -/
def pwrWaitWarm : Nat := 3
/-- `RESET_PREFIX_REPEAT` (R13). -/
def resetPrefixRepeat : Byte := 3
/-- `ONE_SHOT_REPEAT` (R13). -/
def oneShotRepeat : Byte := 4

/-- OPEN: `ACK_SAMPLE_THRESHOLD` of the machine after reset (R11). notes/assumptions/2.md, DESIGN CHOICE, safe. -/
opaque ackSampleThreshold : Nat
/-- OPEN: `CUR_MAX` of the machine after reset (R15). notes/assumptions/2.md, DESIGN CHOICE, safe. -/
opaque curMax : Nat
/-- OPEN: how many preamble bits beyond 10 (R16). notes/assumptions/2.md, DESIGN CHOICE, safe. -/
opaque preambleExtra : Nat
/-- OPEN: `ACC_RESET` (10_state.md R46). notes/assumptions/2.md, DESIGN CHOICE, safe. -/
opaque accReset : Int
/-- OPEN: `SMOOTH(acc, r)` (60_exceptions.md R180). notes/assumptions/16.md, DESIGN CHOICE, safe. -/
opaque smooth : Int → Nat → Int
/-- OPEN: `SMOOTH_OUT(acc)`, in mA (60_exceptions.md R180). notes/assumptions/16.md, DESIGN CHOICE, safe. -/
opaque smoothOut : Int → Int
/-- The free value that the current probe of a block answers once the answers listed in the state are used up
(60_exceptions.md R185). notes/assumptions/3.md, DESIGN CHOICE, safe. -/
opaque freeCurrent : Channel → Nat → Nat
/-- The free value of the tick counter of a block once the answers listed in the state are used up (R185).
notes/assumptions/3.md, DESIGN CHOICE, safe. -/
opaque freeTick : Channel → Nat → Word

/-- The parameters of a block after reset: the values the spec takes where a number is needed (R9, R10, R14, R17), and
the opaque constants where it leaves the value OPEN. notes/assumptions/1.md, DESIGN CHOICE. -/
def resetParams (ch : Channel) : Params where
  channel := ch
  n := match ch with
    | .main => 12
    | .prog => 2
  ackBaseCount := 10
  ackSampleThreshold := ackSampleThreshold
  curMax := curMax
  currentSampleMax := 1000
  preambleBits := 10 + preambleExtra
  accRevDefault := false
  accReset := accReset

end Config
end Sys2Proof
end

