-- ==== Sys2Proof/Machine/Frames.lean ====
section
/-! DEFINITION. A frame as the slot RAM and the waveform engine hold it, its bits, and the two fixed frames
(10_state.md R25, R35, R40, R41; 20_memory.md R52). -/

namespace Sys2Proof.Machine

/-- Nine packed bytes and the number of frame bits (R25, R35). -/
structure Frame where
  bits : BitVec 6
  buf : List Byte
deriving DecidableEq, Repr

/-- Frame bit `p`: bit `7 - p mod 8` of byte `p / 8`, MSB first (20_memory.md R52). A byte past the buffer reads 0. -/
def frameBit (buf : List Byte) (p : Nat) : Bool := (buf.getD (p / 8) 0).getLsbD (7 - p % 8)

/-- The idle packet, payload `FF 00`, pre-encoded (R40). -/
def idleFrame : Frame := ⟨28, [0x7F, 0x80, 0x1F, 0xF0, 0x00, 0x00, 0x00, 0x00, 0x00]⟩

/-- The reset packet, payload `00 00`, pre-encoded (R41). -/
def resetFrame : Frame := ⟨28, [0x00, 0x00, 0x00, 0x10, 0x00, 0x00, 0x00, 0x00, 0x00]⟩

/-- The logical bits the waveform engine sends for a frame: the preamble, then frame bits 0 to `lbits - 1`
(60_exceptions.md R175). -/
def Frame.trackBits (f : Frame) (q : Params) : List Bool :=
  List.replicate q.preambleBits true ++ (List.range f.bits.toNat).map (frameBit f.buf)

end Sys2Proof.Machine
end

