-- ==== Sys2Proof/Machine/State.lean ====
section
/-! DEFINITION. The state of the base station: two blocks (00_scope.md R4), each with the registers of 10_state.md R24
to R46, its parameters, and the model's own record of what the host and the environment give it and what it lets them
see. Plain data throughout. -/

namespace Sys2Proof.Machine

/-- The slot RAM: the bytes that differ from what an unlisted address reads as, addresses strictly rising
(20_memory.md R48; notes/assumptions/13.md). -/
abbrev Memory := List Host.Cell

/-- What can stop the machine. The spec gives the block no trap (60_exceptions.md R165): each of these stands for a
state that no run reaches from reset, so stopping there is SAFE. -/
inductive Fault where
  /-- Raised by `memRead` and `memWrite` for an access outside the slot RAM or across a slot (20_memory.md R48). Safe:
  no such byte exists. notes/assumptions/13.md. -/
  | noSuchAddress (addr : Nat)
  /-- Raised by the loader's P1 when the pool is full, nothing is held for recycling and the user slot has no mapping
  (41_slot_table_loader.md R109); R119 shows that this does not happen. Safe. notes/assumptions/14.md. -/
  | noMappedSlot
  /-- Raised when `seq` holds a position that the running operation does not have (10_state.md R24). Safe: no step of
  the machine sets one. notes/assumptions/15.md. -/
  | noSuchPosition
deriving DecidableEq, Repr

/-- What the model has no meaning for. -/
inductive Refusal where
  /-- Raised by an arm of `exec` whose instruction has no meaning yet. Safe: the machine stops. No arm raises it. -/
  | notModelled (mnemonic : String)
deriving DecidableEq, Repr

/-- The loads of a service-mode conversation, named by what they send (44_service_mode.md R152 to R154): READ_CV's reset
burst RD1, its verify-bit probe RD2, its verify-byte RD4; the write WB1 or X1; the fallback verify WB3 or X3. -/
inductive Leg where
  | burst
  | probe
  | verify
  | write
  | fallback
deriving DecidableEq, Repr

/-- The loader's statements that a step of context A can be about to take (41_slot_table_loader.md R108, R110). -/
inductive LoadPos where
  | o1 | o2 | o3 | o4
  | p2 | p3 | p4 | p5 | p6 | p7 | p8 | p9
deriving DecidableEq, Repr

/-- Where a load returns to: a command builder, the load of a conversation, or the ack detector's AK1a or AK5. -/
inductive LoadRet where
  | builder
  | leg (l : Leg)
  | ackTimeout (l : Leg)
  | ackConfirm (l : Leg)
deriving DecidableEq, Repr

/-- A load's operands and locals: `s`, `rep`, `printFlag` (R106), `prev`, `cand`, `inPlace` (R109). -/
structure LoadCtx where
  user : Nat
  rep : Byte
  print : Bool
  prev : Option Nat
  cand : Nat
  inPlace : Bool
deriving DecidableEq, Repr

/-- `pos`: the next statement of the running command (10_state.md R24), with the locals that statement still needs. -/
inductive Pos where
  /-- A statement of the loader. -/
  | load (lp : LoadPos) (ctx : LoadCtx) (ret : LoadRet)
  /-- WP2 of `WaitPackets(n)` (44_service_mode.md R148). -/
  | wp2 (n : Nat)
  /-- B2 with `taken` samples summed to `sum` (R149). -/
  | b2 (taken sum : Nat)
  /-- AK0 to AK8 of the ack detector (43_ack_detector.md R137), run after the load of leg `l`; `ak3` holds the sample. -/
  | ak0 (l : Leg)
  | ak1 (l : Leg)
  | ak1b (l : Leg)
  | ak2 (l : Leg)
  | ak3 (l : Leg) (cur : Nat) (tick : Word)
  | ak6 (l : Leg)
  | ak7 (l : Leg)
  | ak8 (l : Leg)
deriving DecidableEq, Repr

/-- `seq`, the foreground's control state (10_state.md R24). -/
inductive Seq where
  | idle
  | run (op : Instr) (pos : Pos)
deriving DecidableEq, Repr

/-- `cur`, the frame context B is emitting (10_state.md R34). -/
inductive Source where
  | idle
  | slot (j : Nat)
deriving DecidableEq, Repr

/-- The ack detector's states (10_state.md R44; 43_ack_detector.md R136). -/
inductive AckState where
  | off
  | seekRise
  | seekFall
  | confirmed
  | done
deriving DecidableEq, Repr

/-- Response records (30_encoding.md R93). -/
inductive Response where
  | throttle (slot speed dir : Int)
  | invalidPacket
  | cv (cb cbSub cv value : Int)
  | cvBit (cb cbSub cv bit value : Int)
  | lastPacket (slot : Nat) (bytes : List Byte) (rep : Byte)
  | capacity (n : Nat)
deriving DecidableEq, Repr

/-- The label of a command's end (60_exceptions.md R159, codes 0 to 3). -/
inductive EndLabel where
  | ok
  | ignored
  | invalidPacket
  | ackFail
deriving DecidableEq, Repr

/-- What a block lets the outside see (notes/assumptions/12.md): a response record (30_encoding.md R93), the label of a
command's end and the overcurrent trip (60_exceptions.md R159, R181), and an emitted frame (R175). -/
inductive Event where
  | response (r : Response)
  | ended (l : EndLabel)
  | emitted (f : Frame)
  | overcurrent
deriving DecidableEq, Repr

/-- The slot table: slot RAM, frame lengths, address map and allocation registers (10_state.md R25 to R30). -/
structure SlotTable where
  mem : Memory
  /-- `slot[j].bitCount` at index j, 0..N. -/
  bitCounts : List (BitVec 6)
  /-- `map[s]` at index s - 1, s in 1..N. -/
  map : List (Option Nat)
  recycleReg : Option Nat
  maxLoaded : Nat
deriving DecidableEq, Repr

/-- The waveform engine's registers (10_state.md R33 to R37). Context A writes none of them. -/
structure Engine where
  packetsTransmitted : Word
  cur : Source
  latched : Frame
  repeatLeft : Byte
  rot : Nat
deriving DecidableEq, Repr

/-- The payload register (10_state.md R38). -/
structure Payload where
  p : List Byte
  k : Nat
deriving DecidableEq, Repr

/-- The record of the most recent load (10_state.md R39). -/
structure LastLoad where
  valid : Bool
  slot : Nat
  len : Nat
  bytes : List Byte
  rep : Byte
deriving DecidableEq, Repr

/-- The ack detector's registers (10_state.md R44). -/
structure AckRegs where
  ackState : AckState
  upTick : Word
  downTick : Word
  armedAt : Word
  ackBase : Nat
deriving DecidableEq, Repr

/-- The service-mode sequencer's registers and its copy of the command's operands (10_state.md R45). -/
structure SvcRegs where
  base : Nat
  bitIdx : Nat
  value : Byte
  restoreOff : Bool
  waitStart : Word
  opCv : Word
  opBit : Word
  opValue : Word
  opCb : Word
  opCbSub : Word
deriving DecidableEq, Repr

/-- The MODEL's own fields, no registers of the spec: what the host and the environment still have to give the block,
and what it let them see (notes/assumptions/3.md, 5.md, 9.md, 12.md, DESIGN CHOICE). -/
structure Io where
  cmds : List CommandWord
  currents : List Nat
  ticks : List Word
  draws : Nat
  sampled : Bool
  events : List Event
deriving DecidableEq, Repr

/-- One instance of the packet core (10_state.md R23). -/
structure Block where
  params : Params
  seq : Seq
  table : SlotTable
  next : Option Nat
  nextRepeat : Byte
  engine : Engine
  payload : Payload
  lastLoad : LastLoad
  accessoriesReversed : Bool
  outEnable : Bool
  ack : AckRegs
  svc : SvcRegs
  acc : Int
  io : Io
deriving DecidableEq, Repr

/-- How far a foreground turn goes: one micro-step, or on to the next pause point (notes/assumptions/6.md). -/
inductive Grain where
  | micro
  | burst
deriving DecidableEq, Repr

/-- One move of one agent of a block (20_memory.md R57; 60_exceptions.md R180, R184; 70_reset_and_hazards.md R188). -/
inductive Turn where
  | foreground (g : Grain)
  | engine
  | setOutEnable (v : Bool)
  | configWrite (v : Bool)
  | currentCheck
  | powerOnReset
deriving DecidableEq, Repr

/-- The base station: two blocks that share no state (00_scope.md R4; 60_exceptions.md R186), and the model's own
account of who moves next (notes/assumptions/5.md, 6.md, 8.md, DESIGN CHOICE). -/
structure State where
  main : Block
  prog : Block
  focus : Channel
  grain : Grain
  turns : List (Channel × Turn)
deriving DecidableEq, Repr

/-- The block of a channel. -/
def State.block (s : State) : Channel → Block
  | .main => s.main
  | .prog => s.prog

/-- Replace the block of a channel. -/
def State.setBlock (s : State) (ch : Channel) (c : Block) : State :=
  match ch with
  | .main => { s with main := c }
  | .prog => { s with prog := c }

/-- The block that moves. -/
def State.cur (s : State) : Block := s.block s.focus

/-- Replace the block that moves. -/
def State.setCur (s : State) (c : Block) : State := s.setBlock s.focus c

/-- A block right after reset (10_state.md R24 to R46; 70_reset_and_hazards.md R189). -/
def Block.reset (q : Params) : Block where
  params := q
  seq := .idle
  table :=
    { mem := []
      bitCounts := List.replicate (q.n + 1) 0
      map := List.replicate q.n none
      recycleReg := none
      maxLoaded := 0 }
  next := none
  nextRepeat := 0
  engine :=
    { packetsTransmitted := 0
      cur := .idle
      latched := idleFrame
      repeatLeft := 0
      rot := 0 }
  payload := { p := List.replicate 6 0, k := 2 }
  lastLoad := { valid := false, slot := 0, len := 0, bytes := List.replicate 6 0, rep := 0 }
  accessoriesReversed := q.accRevDefault
  outEnable := false
  ack := { ackState := .off, upTick := 0, downTick := 0, armedAt := 0, ackBase := 0 }
  svc :=
    { base := 0
      bitIdx := 0
      value := 0
      restoreOff := false
      waitStart := 0
      opCv := 0
      opBit := 0
      opValue := 0
      opCb := 0
      opCbSub := 0 }
  acc := q.accReset
  io := { cmds := [], currents := [], ticks := [], draws := 0, sampled := false, events := [] }

/-- The machine right after reset: both blocks reset (70_reset_and_hazards.md R188), no move listed. -/
def State.reset : State where
  main := Block.reset (Config.resetParams .main)
  prog := Block.reset (Config.resetParams .prog)
  focus := .main
  grain := .burst
  turns := []

end Sys2Proof.Machine
end

