-- ==== Sys2Proof/Machine/SlotRam.lean ====
section
/-! DEFINITION. The slot RAM (20_memory.md R48): a sparse list of bytes in one canonical form, and the spec's `MemRead`
and `MemWrite` over it (00_scope.md R20). -/

namespace Sys2Proof.Machine

/-- What an address that the list does not hold reads as: the reset contents, `00 00 00 00 00 00 01 00 00` in every slot
(10_state.md R27). notes/assumptions/13.md. -/
def blankByte (a : Nat) : Byte := if a % 9 = 6 then 1 else 0

/-- The canonical form: addresses strictly rising, no entry equal to what an unlisted address reads as. -/
abbrev Memory.wf (m : Memory) : Prop :=
  m.Pairwise (fun x y => x.1 < y.1) ∧ ∀ x ∈ m, x.2 ≠ blankByte x.1

/-- The byte at an address. -/
def Memory.get : Memory → Nat → Byte
  | [], a => blankByte a
  | x :: m, a => if x.1 = a then x.2 else Memory.get m a

/-- Put an entry at its place in the order. -/
def Memory.insert : Memory → Nat → Byte → Memory
  | [], a, b => [(a, b)]
  | x :: m, a, b => if a < x.1 then (a, b) :: x :: m else x :: Memory.insert m a b

/-- Write one byte, keeping the canonical form. -/
def Memory.set (m : Memory) (a : Nat) (b : Byte) : Memory :=
  let rest : Memory := m.filter (fun x => x.1 != a)
  if b = blankByte a then rest else rest.insert a b

/-- The `n` bytes from an address on. -/
def Memory.getBytes (m : Memory) (a : Nat) : Nat → List Byte
  | 0 => []
  | n + 1 => m.get a :: Memory.getBytes m (a + 1) n

/-- Write bytes from an address on. -/
def Memory.setBytes (m : Memory) (a : Nat) : List Byte → Memory
  | [] => m
  | b :: bs => Memory.setBytes (m.set a b) (a + 1) bs

/-- An access is one the spec gives: `n` in 1..9, inside one slot, inside the `9 (N+1)` bytes (20_memory.md R48). -/
def accessOk (slots addr n : Nat) : Bool :=
  1 ≤ n && n ≤ 9 && addr / 9 == (addr + n - 1) / 9 && addr + n ≤ 9 * slots

/-- The address of byte `i` of slot `j` (R48). -/
def slotAddr (j i : Nat) : Nat := 9 * j + i

/-- How many slots a block has, `N + 1` (10_state.md R25). -/
def Block.slots (c : Block) : Nat := c.params.n + 1

/-- The byte of a block's slot RAM at an address. -/
def Block.byteAt (c : Block) (a : Nat) : Byte := c.table.mem.get a

/-- Replace the slot RAM. -/
def Block.withMem (c : Block) (m : Memory) : Block := { c with table := { c.table with mem := m } }

/-- Replace the frame length of slot `j`, a field beside the bytes (R48). -/
def Block.withBitCount (c : Block) (j : Nat) (v : BitVec 6) : Block :=
  { c with table := { c.table with bitCounts := c.table.bitCounts.set j v } }

/-- `MemRead(addr, n)` (00_scope.md R20). -/
def memRead (addr n : Nat) (c : Block) : Except Fault (List Byte) :=
  if accessOk c.slots addr n then .ok (c.table.mem.getBytes addr n) else .error (.noSuchAddress addr)

/-- `MemWrite(addr, n, v)` (R20), `n` the length of `v`. -/
def memWrite (addr : Nat) (v : List Byte) (c : Block) : Except Fault Block :=
  if accessOk c.slots addr v.length then .ok (c.withMem (c.table.mem.setBytes addr v))
  else .error (.noSuchAddress addr)

/-- The whole of slot `j`, nine bytes and `bitCount`, as one copy (20_memory.md R55). -/
def readSlot (j : Nat) (c : Block) : Except Fault Frame :=
  match memRead (slotAddr j 0) 9 c with
  | .ok buf => .ok ⟨c.table.bitCounts.getD j 0, buf⟩
  | .error f => .error f

end Sys2Proof.Machine
end

