-- ==== Sys2Proof/Machine/Flags.lean ====
section
/-! DEFINITION. The invalid flag of a slot, the block's only flag: bit 0 of byte 6, 1 = do not transmit (10_state.md
R26). Each write of it is a read-modify-write of that byte (20_memory.md R55). -/

namespace Sys2Proof.Machine

/-- Where slot `j` keeps its invalid flag (R26). -/
def flagAddr (j : Nat) : Nat := slotAddr j 6

/-- The flag in byte 6. -/
def flagOf (b : Byte) : Bool := b.getLsbD 0

/-- The flag of slot `j` as its bytes hold it. -/
def Block.invalid (c : Block) (j : Nat) : Bool := flagOf (c.byteAt (flagAddr j))

/-- Read the invalid flag of slot `j`. -/
def readInvalid (j : Nat) (c : Block) : Except Fault Bool :=
  match memRead (flagAddr j) 1 c with
  | .ok v => .ok (flagOf (v.headD 0))
  | .error f => .error f

/-- Rewrite byte 6 of slot `j`. -/
def modifyFlagByte (j : Nat) (f : Byte → Byte) (c : Block) : Except Fault Block :=
  match memRead (flagAddr j) 1 c with
  | .ok v => memWrite (flagAddr j) [f (v.headD 0)] c
  | .error e => .error e

/-- `slot[j].buf[6] <- slot[j].buf[6] | 0x01` (41_slot_table_loader.md R110). -/
def setInvalid (j : Nat) (c : Block) : Except Fault Block := modifyFlagByte j (· ||| 0x01) c

/-- `slot[j].buf[6] <- slot[j].buf[6] & 0xFE` (R108, R110). -/
def clearInvalid (j : Nat) (c : Block) : Except Fault Block := modifyFlagByte j (· &&& 0xFE) c

end Sys2Proof.Machine
end

