-- ==== Sys2Proof/Machine/Operands.lean ====
section
/-! DEFINITION. Operand checks and every payload field of 30_encoding.md section 2 (R73 to R85). -/

namespace Sys2Proof.Machine

/-- An operand's signed value lies in `lo..hi` (30_encoding.md R73). -/
def inRange (x : Word) (lo hi : Int) : Bool := decide (lo ≤ x.toInt ∧ x.toInt ≤ hi)

/-- The cab operand check (42_command_builders.md R125). -/
def cabOk (cab : Word) : Bool := inRange cab 0 10239

/-- The CV number check (44_service_mode.md R146; 42_command_builders.md R130). -/
def cvOk (cv : Word) : Bool := inRange cv 1 1024

/-- A byte operand's check. -/
def byteOk (x : Word) : Bool := inRange x 0 255

/-- Saturate an operand into `lo..hi` (42_command_builders.md R131, 44_service_mode.md R154). -/
def clamp (lo hi : Int) (x : Word) : Int := min (max x.toInt lo) hi

/-- The low byte of an operand that a check has put in 0..255. -/
def operandByte (x : Word) : Byte := u8 x.toNat

/-- Cab address, 1 or 2 bytes (30_encoding.md R74). -/
def cabBytes (cab : Nat) : List Byte :=
  if cab ≤ 127 then [u8 cab] else [u8 (cab >>> 8) ||| 0xC0, u8 cab]

/-- The inverse of `cabBytes` (R75). -/
def cabOf (bytes : List Byte) : Nat :=
  let b0 := bytes.getD 0 0
  if b0.toNat < 0x80 then b0.toNat else (b0 &&& 0x3F).toNat * 2 ^ 8 + (bytes.getD 1 0).toNat

/-- The speed code: 1 for e-stop, 0 for stop, 2..127 for motion (R76). -/
def speedCode (speed : Int) : Nat :=
  let sp := min speed 126
  if speed < 0 then 1 else if sp = 0 then 0 else (sp + 1).toNat

/-- The 128-step speed byte (R76). -/
def speedByte (speed : Int) (dir : Nat) : Byte := u8 (speedCode speed) ||| (u8 dir <<< 7)

/-- The speed that THROTTLE reports (42_command_builders.md R126). -/
def reportedSpeed (speed : Int) : Int := if speed < 0 then 0 else min speed 126

/-- Function byte, short form (30_encoding.md R77). -/
def fShort (fByte : Byte) : Byte := (fByte ||| 0x80) &&& 0xBF

/-- Function byte, long form (R78). -/
def fLong (fByte : Byte) : Byte := (fByte ||| 0xDE) &&& 0xDF

/-- First accessory byte (R79). -/
def acc0 (addr : Nat) : Byte := u8 (addr &&& 0x3F) ||| 0x80

/-- Second accessory byte (R79). -/
def acc1 (addr port act : Nat) : Byte := ((u8 ((addr >>> 6) &&& 7) <<< 4) ||| (u8 port <<< 1) ||| u8 act) ^^^ 0xF8

/-- The high 2 bits of a CV address (R80). -/
def cvHi (cv : Word) : Byte := u8 (((cv.toNat - 1) >>> 8) &&& 3)

/-- The low 8 bits of a CV address (R80). -/
def cvLo (cv : Word) : Byte := u8 (cv.toNat - 1)

/-- The bit number and value of a bit operation, `(v << 3) | b` (R82). -/
def bitPattern (v b : Nat) : Byte := (u8 v <<< 3) ||| u8 b

/-- Verify-bit read probe (R81, R82; 44_service_mode.md R147). -/
def probeBit (cv : Word) (i : Nat) : List Byte := [0x78 + cvHi cv, cvLo cv, 0xE8 + u8 i]

/-- Verify-byte probe (R147). -/
def probeVerifyByte (cv : Word) (value : Byte) : List Byte := [0x74 + cvHi cv, cvLo cv, value]

/-- Write-byte packet (R147). -/
def probeWriteByte (cv : Word) (value : Byte) : List Byte := [0x7C + cvHi cv, cvLo cv, value]

/-- Write-bit packet (R147). -/
def probeWriteBit (cv : Word) (v b : Nat) : List Byte := [0x78 + cvHi cv, cvLo cv, 0xF0 ||| bitPattern v b]

/-- Verify-bit packet of a write-bit's fallback: bit 4 of byte 2 cleared (R147; 90_conflicts.md C8). -/
def probeVerifyBit (cv : Word) (v b : Nat) : List Byte := [0x78 + cvHi cv, cvLo cv, 0xE0 ||| bitPattern v b]

/-- The idle payload (30_encoding.md R84). -/
def idlePayload : List Byte := [0xFF, 0x00]

/-- The reset payload (R84). -/
def resetPayload : List Byte := [0x00, 0x00]

/-- Speed-128 payload (R85; 42_command_builders.md R126). -/
def throttlePayload (cab : Nat) (speed : Int) (dir : Nat) : List Byte := cabBytes cab ++ [0x3F, speedByte speed dir]

/-- Function payload, short form (R85, R127). -/
def functionShortPayload (cab : Nat) (fByte : Byte) : List Byte := cabBytes cab ++ [fShort fByte]

/-- Function payload, long form (R85, R128). -/
def functionLongPayload (cab : Nat) (fByte eByte : Byte) : List Byte := cabBytes cab ++ [fLong fByte, eByte]

/-- Accessory payload (R85, R129); `act` is already inverted where the polarity is reversed. -/
def accessoryPayload (addr port act : Nat) : List Byte := [acc0 addr, acc1 addr port act]

/-- Main-track CV byte payload (R83, R85, R130). -/
def mainCvBytePayload (cab : Nat) (cv : Word) (value : Byte) : List Byte :=
  cabBytes cab ++ [0xEC + cvHi cv, cvLo cv, value]

/-- Main-track CV bit payload (R83, R85, R131). -/
def mainCvBitPayload (cab : Nat) (cv : Word) (v b : Nat) : List Byte :=
  cabBytes cab ++ [0xE8 + cvHi cv, cvLo cv, 0xF0 ||| bitPattern v b]

end Sys2Proof.Machine
end

