-- ==== Sys2Proof/Machine/Ops.lean ====
section
/-! DEFINITION. The named operations over registers, the environment's draws, the ends of a command, and the one
interrupt of the block, context B's packet completion (60_exceptions.md R166, R169). The block has no trap to take
(R165): an error is an end of the command, named here. -/

namespace Sys2Proof.Machine

/-- Move the running command to a position (10_state.md R24). -/
def Block.goto (c : Block) (op : Instr) (pos : Pos) : Block := { c with seq := .run op pos }

/-- Let the outside see something. -/
def Block.log (c : Block) (e : Event) : Block := { c with io := { c.io with events := c.io.events ++ [e] } }

/-- `emit(rec)` (00_scope.md R20). -/
def Block.emit (c : Block) (r : Response) : Block := c.log (.response r)

/-- The command ends: `seq` is `Idle` again (10_state.md R24), and its end has a label (60_exceptions.md R159). -/
def Block.endCommand (c : Block) (l : EndLabel) : Block := ({ c with seq := .idle }).log (.ended l)

/-- `ignore`: the command ends with no state change and no response (00_scope.md R20; 60_exceptions.md R160). -/
def Block.ignore (c : Block) : Block := c.endCommand .ignored

/-- The end of a malformed RAW_PACKET: the response `InvalidPacket` and no other change (R161). -/
def Block.rejectPacket (c : Block) : Block := (c.emit .invalidPacket).endCommand .invalidPacket

/-- `map[s]`, s in 1..N (10_state.md R28). -/
def Block.mapped (c : Block) (s : Nat) : Option Nat := c.table.map.getD (s - 1) none

/-- `map[s] <- some j`. -/
def Block.withMapped (c : Block) (s j : Nat) : Block :=
  { c with table := { c.table with map := c.table.map.set (s - 1) (some j) } }

/-- `p[0..len-1] <- bytes`, `k <- len` (10_state.md R38). The bytes above keep their value (notes/assumptions/17.md). -/
def Block.withPayload (c : Block) (bytes : List Byte) : Block :=
  { c with payload := { p := bytes ++ c.payload.p.drop bytes.length, k := bytes.length } }

/-- `draw_current()`: the probe's raw sample, 0..CUR_MAX, chosen by the environment (60_exceptions.md R180, R185). The
next listed answer, or the free value; an answer above CUR_MAX counts as CUR_MAX (notes/assumptions/3.md). -/
def drawCurrent (c : Block) : Nat × Block :=
  match c.io.currents with
  | v :: vs => (min v c.params.curMax, { c with io := { c.io with currents := vs } })
  | [] =>
    (min (Config.freeCurrent c.params.channel c.io.draws) c.params.curMax,
      { c with io := { c.io with draws := c.io.draws + 1 } })

/-- `draw_tick()`: the tick counter's value, chosen by the environment (R179, R185; notes/assumptions/3.md, 4.md). -/
def drawTick (c : Block) : Word × Block :=
  match c.io.ticks with
  | v :: vs => (v, { c with io := { c.io with ticks := vs } })
  | [] => (Config.freeTick c.params.channel c.io.draws, { c with io := { c.io with draws := c.io.draws + 1 } })

/-- `getCurrent()`: the smoothed current in mA (60_exceptions.md R180). -/
def getCurrent (c : Block) : Int := Config.smoothOut c.acc

/-- `check()`: one raw sample into `acc`, and the trip strobe when the smoothed current is above CURRENT_SAMPLE_MAX
(R180, R181). No register of the packet core changes. -/
def currentCheck (c : Block) : Block :=
  let d := drawCurrent c
  let c' := { d.2 with acc := Config.smooth d.2.acc d.1 }
  if c'.params.currentSampleMax < getCurrent c' then c'.log .overcurrent else c'

/-- The host's write of the output enable, allowed at any time (60_exceptions.md R184). -/
def hostSetOutEnable (v : Bool) (c : Block) : Block := { c with outEnable := v }

/-- The host's configuration write, allowed only while `seq = Idle` (R184; otherwise nothing happens,
notes/assumptions/18.md). -/
def hostConfigWrite (v : Bool) (c : Block) : Block :=
  if c.seq = .idle then { c with accessoriesReversed := v } else c

/-- Power-on reset of a block: every register at its reset value, a running command and a pending hand-off dropped, no
response (70_reset_and_hazards.md R188, R191). What the host and the environment hold is outside the block and stays
(notes/assumptions/21.md). -/
def powerOnReset (c : Block) : Block := { Block.reset c.params with io := { c.io with sampled := false } }

/-! ## Context B -/

/-- E2: slot 0 is being repeated (60_exceptions.md R171). -/
def repeating (c : Block) : Bool := c.engine.cur == .slot 0 && c.engine.repeatLeft != 0

/-- E1 (R170). -/
def countPacket (c : Block) : Block :=
  { c with engine := { c.engine with packetsTransmitted := c.engine.packetsTransmitted + 1 } }

/-- E2's body: the latched frame goes out again (R171). -/
def repeatFrame (c : Block) : Block :=
  { c with engine := { c.engine with repeatLeft := c.engine.repeatLeft - 1 } }

/-- E3's body, once slot `j` is copied: adopt it and clear `next` (R172). -/
def adoptFrame (j : Nat) (f : Frame) (c : Block) : Block :=
  { c with
    engine :=
      { c.engine with
        latched := f
        cur := .slot j
        repeatLeft := if j = 0 then c.nextRepeat else 0
        rot := if j = 0 then c.engine.rot else j }
    next := none }

/-- Where the rotation's search starts (R169 E4, R173). -/
def rotationStart (c : Block) : Nat :=
  if 1 ≤ c.engine.rot ∧ c.engine.rot < c.table.maxLoaded then c.engine.rot + 1 else 1

/-- The slots in the order the rotation visits them: `((start + m - 2) mod maxLoaded) + 1` for m in 1..maxLoaded
(R169 E4). -/
def rotationOrder (c : Block) : List Nat :=
  (List.range c.table.maxLoaded).map fun m => (rotationStart c + m - 1) % c.table.maxLoaded + 1

/-- The first slot of a list whose invalid flag is 0. -/
def findValid (c : Block) : List Nat → Except Fault (Option Nat)
  | [] => .ok none
  | j :: js =>
    match readInvalid j c with
    | .ok true => findValid c js
    | .ok false => .ok (some j)
    | .error f => .error f

/-- E4's body for the slot found (R173). -/
def rotateTo (j : Nat) (f : Frame) (c : Block) : Block :=
  { c with engine := { c.engine with latched := f, cur := .slot j, rot := j } }

/-- The idle fallback (R174). -/
def sendIdle (c : Block) : Block := { c with engine := { c.engine with latched := idleFrame, cur := .idle } }

/-- E4: rotation, or the idle packet when no slot is valid (R173, R174). -/
def rotate (c : Block) : Except Fault Block :=
  match findValid c (rotationOrder c) with
  | .ok (some j) =>
    match readSlot j c with
    | .ok f => .ok (rotateTo j f c)
    | .error e => .error e
  | .ok none => .ok (sendIdle c)
  | .error e => .error e

/-- E2 to E4: the source of the next packet, in the order of priority (R176). -/
def selectFrame (c : Block) : Except Fault Block :=
  if repeating c then .ok (repeatFrame c)
  else
    match c.next with
    | some j =>
      match readSlot j c with
      | .ok f => .ok (adoptFrame j f c)
      | .error e => .error e
    | none => rotate c

/-- E5: `emit_track(latched)` (R175). -/
def emitTrack (c : Block) : Block := c.log (.emitted c.engine.latched)

/-- The packet-completion interrupt, context B's one indivisible step (60_exceptions.md R166, R169). Entry saves nothing
and the return is to the statement context A was about to take: `seq` is not touched. It pays the step that the default
order owes context B. -/
def engineStep (c : Block) : Except Fault Block :=
  match selectFrame (countPacket c) with
  | .ok c' => .ok { emitTrack c' with io := { (emitTrack c').io with sampled := false } }
  | .error e => .error e

end Sys2Proof.Machine
end

