-- ==== Sys2Proof/Machine/Encoder.lean ====
section
/-! DEFINITION. ENCODE (40_encoder.md R94 to R105): checksum, MSB-first packing with start bits and a stop bit, the
invalid flag left at 1. -/

namespace Sys2Proof.Machine

/-- XOR of the payload bytes (R96). -/
def checksum (payload : List Byte) : Byte := payload.foldl (· ^^^ ·) 0

/-- Put a 1 at frame position `pos`: `b[pos >> 3] | (1 << (7 - (pos & 7)))` (R97). -/
def putBit (b : List Byte) (pos : Nat) : List Byte := b.modify (pos / 8) (· ||| (1#8 <<< (7 - pos % 8)))

/-- The positions of the 1 bits of byte `q` sent as byte number `i`: `9 i + 1 + t` for each set bit `7 - t` (R97). -/
def onesOfByte (i : Nat) (q : Byte) : List Nat :=
  (List.range 8).filterMap fun t => if q.getLsbD (7 - t) then some (9 * i + 1 + t) else none

/-- The positions of the 1 bits of the bytes `q[0..]`, from byte number `i` on (R97). -/
def onesFrom (i : Nat) : List Byte → List Nat
  | [] => []
  | q :: qs => onesOfByte i q ++ onesFrom (i + 1) qs

/-- The nine packed bytes of the payload with its checksum: data bits, the stop bit at `L - 1 = 9 (k+1)`, the invalid
flag (R97). -/
def packFrame (q : List Byte) : List Byte :=
  let data := (onesFrom 0 q).foldl putBit (List.replicate 9 0)
  (putBit data (9 * q.length)).modify 6 (· ||| 0x01)

/-- `L = 9 (k+1) + 1`, the frame length for `k + 1` bytes (R97; 30_encoding.md R88). -/
def frameLength (q : List Byte) : BitVec 6 := BitVec.ofNat 6 (9 * q.length + 1)

/-- The encoder's first act: `p[k] <- p[0] ^ ... ^ p[k-1]` (R96). -/
def appendChecksum (c : Block) : Block :=
  { c with payload := { c.payload with p := c.payload.p.set c.payload.k (checksum (c.payload.p.take c.payload.k)) } }

/-- The payload with its checksum, `p[0..k]`. -/
def Block.packetBytes (c : Block) : List Byte := c.payload.p.take (c.payload.k + 1)

/-- `Encode(j, p, k)`, one step of context A (R94, R97, R100). -/
def encodeInto (j : Nat) (c : Block) : Except Fault Block :=
  let c' := appendChecksum c
  match memWrite (slotAddr j 0) (packFrame c'.packetBytes) c' with
  | .ok c'' => .ok (c''.withBitCount j (frameLength c'.packetBytes))
  | .error e => .error e

end Sys2Proof.Machine
end

