-- ==== Sys2Proof/Machine/Loader.lean ====
section
/-! DEFINITION. LOAD, the operation every builder and the service-mode sequencer call (41_slot_table_loader.md R106 to
R117), cut into the steps of context A (20_memory.md R58). -/

namespace Sys2Proof.Machine

/-- The private statements of one operation that the shared machinery calls: what it does from Idle, after a builder's
load, after the base current is measured, and after a leg of a conversation with the ack detector's verdict. -/
structure Command where
  start : Block → Except Fault Block
  reply : Block → Except Fault Block
  based : Block → Except Fault Block
  legOver : Leg → Bool → Block → Except Fault Block

/-- P1, choosing the slot: the recycled one, else a new one, else the mapped one in place (R109, R111). Gives the load's
locals and the new `recycleReg`. -/
def chooseSlot (user : Nat) (rep : Byte) (c : Block) : Except Fault (LoadCtx × Option Nat) :=
  let prev := c.mapped user
  match c.table.recycleReg with
  | some r => .ok (⟨user, rep, false, prev, r, false⟩, prev)
  | none =>
    if c.table.maxLoaded < c.params.n then
      .ok (⟨user, rep, false, prev, c.table.maxLoaded + 1, false⟩, prev)
    else
      match prev with
      | some q => .ok (⟨user, rep, false, prev, q, true⟩, none)
      | none => .error .noMappedSlot

/-- `recycleReg <- r` (10_state.md R29). -/
def Block.withRecycle (c : Block) (r : Option Nat) : Block := { c with table := { c.table with recycleReg := r } }

/-- `Load(s, bytes, k, rep, 0)` up to its first wait or shared access: the payload write (42_command_builders.md R124),
the checks of R107, P1 (R109). -/
def beginLoad (op : Instr) (s : Nat) (bytes : List Byte) (rep : Byte) (ret : LoadRet) (c : Block) :
    Except Fault Block :=
  if bytes.length < 2 ∨ 5 < bytes.length then .ok c.ignore
  else
    let c' := c.withPayload bytes
    let user := s % c.slots
    if user = 0 then .ok (c'.goto op (.load .o1 ⟨0, rep, false, none, 0, false⟩ ret))
    else
      match chooseSlot user rep c' with
      | .ok (x, r) => .ok ((c'.withRecycle r).goto op (.load (if x.inPlace then .p2 else .p4) x ret))
      | .error e => .error e

/-- O3, the publish section of a one-shot: one atomic step (R108). -/
def publishOneShot (x : LoadCtx) (c : Block) : Except Fault Block :=
  match clearInvalid 0 c with
  | .ok c' => .ok { c' with nextRepeat := x.rep, next := some 0 }
  | .error e => .error e

/-- P6, the publish section of a persistent load: one atomic step (R110). -/
def publishPersistent (x : LoadCtx) (c : Block) : Except Fault Block :=
  match clearInvalid x.cand c with
  | .ok c' => .ok { c'.withMapped x.user x.cand with nextRepeat := x.rep, next := some x.cand }
  | .error e => .error e

/-- P7, marking the slot the user slot used before (R110). -/
def retirePrevious (x : LoadCtx) (c : Block) : Except Fault Block :=
  if x.inPlace then .ok c
  else
    match x.prev with
    | some q => setInvalid q c
    | none => .ok c

/-- P8, `maxLoaded = max(maxLoaded, cand)` (R110). -/
def raiseMaxLoaded (x : LoadCtx) (c : Block) : Block :=
  if c.table.maxLoaded < x.cand then { c with table := { c.table with maxLoaded := x.cand } } else c

/-- RecordLastLoad (R113). -/
def recordLastLoad (x : LoadCtx) (c : Block) : Block :=
  let c' : Block :=
    { c with
      lastLoad :=
        { valid := true, slot := x.user, len := c.payload.k + 1, bytes := c.packetBytes, rep := x.rep } }
  if x.print then c'.emit (.lastPacket x.user c.packetBytes x.rep) else c'

/-- What follows a load: a builder's response, the next leg of a conversation, the ack detector. -/
def returnFromLoad (op : Instr) (cmd : Command) (ret : LoadRet) (c : Block) : Except Fault Block :=
  match ret with
  | .builder => cmd.reply c
  | .leg .burst => cmd.legOver .burst true c
  | .leg l => .ok (c.goto op (.ak0 l))
  | .ackTimeout l => .ok (c.goto op (.ak1b l))
  | .ackConfirm l => .ok (c.goto op (.ak6 l))

/-- Go on to the next statement of a load when the block's change succeeded. -/
def thenGoto (op : Instr) (pos : Pos) : Except Fault Block → Except Fault Block
  | .ok c => .ok (c.goto op pos)
  | .error e => .error e

/-- One statement of a load (R108, R110). The awaits O1, P2 and P5 stay where they are until `next = none`. -/
def loadStep (op : Instr) (cmd : Command) (lp : LoadPos) (x : LoadCtx) (ret : LoadRet) (c : Block) :
    Except Fault Block :=
  match lp with
  | .o1 => .ok (if c.next.isSome then c else c.goto op (.load .o2 x ret))
  | .o2 => thenGoto op (.load .o3 x ret) (encodeInto 0 c)
  | .o3 => thenGoto op (.load .o4 x ret) (publishOneShot x c)
  | .o4 => returnFromLoad op cmd ret (recordLastLoad x c)
  | .p2 => .ok (if c.next.isSome then c else c.goto op (.load .p3 x ret))
  | .p3 => thenGoto op (.load .p4 x ret) (setInvalid x.cand c)
  | .p4 => thenGoto op (.load .p5 x ret) (encodeInto x.cand c)
  | .p5 => .ok (if c.next.isSome then c else c.goto op (.load .p6 x ret))
  | .p6 => thenGoto op (.load .p7 x ret) (publishPersistent x c)
  | .p7 => thenGoto op (.load .p8 x ret) (retirePrevious x c)
  | .p8 => .ok ((raiseMaxLoaded x c).goto op (.load .p9 x ret))
  | .p9 => returnFromLoad op cmd ret (recordLastLoad x c)

end Sys2Proof.Machine
end

