-- ==== Sys2Proof/Machine/AckDetector.lean ====
section
/-! DEFINITION. The acknowledgement detector (43_ack_detector.md R135 to R145), statement by statement. -/

namespace Sys2Proof.Machine

/-- `packetsTransmitted ⊖ armedAt` (00_scope.md R19). -/
def sinceArmed (c : Block) : Nat := (c.engine.packetsTransmitted - c.ack.armedAt).toNat

/-- AK0: arm the detector with the sequencer's base current (R137). -/
def armDetector (c : Block) : Block :=
  { c with
    ack :=
      { c.ack with
        armedAt := c.engine.packetsTransmitted
        ackBase := c.svc.base
        ackState := .seekRise } }

/-- AK1's test (R137, R138). -/
def ackTimedOut (c : Block) : Bool :=
  (c.ack.ackState == .seekRise || c.ack.ackState == .seekFall) && Config.ackTimeoutPackets ≤ sinceArmed c

/-- `c = max(cur, ackBase) - ackBase`, never negative (R137, R140). -/
def deflection (cur base : Nat) : Nat := max cur base - base

/-- The pulse's length in ticks, `downTick ⊖ upTick` (R137, R139). -/
def dwell (up down : Word) : Nat := (down - up).toNat

/-- The dwell lies in the ack window, bounds included (R137, R143). -/
def dwellOk (up down : Word) : Bool := Config.ackMin ≤ dwell up down && dwell up down ≤ Config.ackMax

/-- AK3: what one sample does to the detector (R137). -/
def judgeSample (q : Params) (a : AckRegs) (cur : Nat) (tick : Word) : AckRegs :=
  let d := deflection cur a.ackBase
  match a.ackState with
  | .seekRise => if q.ackSampleThreshold < d then { a with upTick := tick, ackState := .seekFall } else a
  | .seekFall =>
    if d < q.ackSampleThreshold then
      { a with downTick := tick, ackState := if dwellOk a.upTick tick then .confirmed else .seekRise }
    else a
  | .off => a
  | .confirmed => a
  | .done => a

/-- Set `ackState`. -/
def Block.withAckState (c : Block) (st : AckState) : Block := { c with ack := { c.ack with ackState := st } }

/-- AK1a and AK5: put the reset packet back into user slot 1 (R137). -/
def reinstallReset (op : Instr) (ret : LoadRet) (c : Block) : Except Fault Block := beginLoad op 1 resetPayload 0 ret c

/-- AK2: one current draw together with one tick draw (R137). The default order now owes context B a step
(notes/assumptions/5.md). -/
def takeSample (op : Instr) (l : Leg) (c : Block) : Block :=
  let d := drawCurrent c
  let t := drawTick d.2
  { t.2.goto op (.ak3 l d.1 t.1) with io := { t.2.io with sampled := true } }

/-- AK3 and AK4: judge the sample; a confirmed pulse puts the reset packet back, otherwise the search goes on (R137). -/
def judge (op : Instr) (l : Leg) (cur : Nat) (tick : Word) (c : Block) : Except Fault Block :=
  let c' := { c with ack := judgeSample c.params c.ack cur tick }
  if c'.ack.ackState = .confirmed then reinstallReset op (.ackConfirm l) c'
  else .ok (c'.goto op (.ak1 l))

end Sys2Proof.Machine
end

