-- ==== Sys2Proof/Machine/Sequencer.lean ====
section
/-! DEFINITION. What the three conversations share (44_service_mode.md R146 to R151), one step of context A at any
position (20_memory.md R58), and how a foreground turn runs a command. -/

namespace Sys2Proof.Machine

/-- `packetsTransmitted ⊖ waitStart` (R148). -/
def sinceWait (c : Block) : Nat := (c.engine.packetsTransmitted - c.svc.waitStart).toNat

/-- WP1: start a packet-count wait (R148). -/
def beginWait (op : Instr) (n : Nat) (c : Block) : Block :=
  ({ c with svc := { c.svc with waitStart := c.engine.packetsTransmitted } }).goto op (.wp2 n)

/-- PR1 to PR4: the power-on preamble (R149). -/
def powerPreamble (op : Instr) (c : Block) : Block :=
  if c.outEnable then
    beginWait op Config.pwrWaitWarm { c with svc := { c.svc with restoreOff := false } }
  else
    beginWait op Config.pwrWaitCold { c with outEnable := true, svc := { c.svc with restoreOff := true } }

/-- B2 and B3: one base sample, and after the last one the mean, rounded down (R149). The loop's test stands after the
sample: ACK_BASE_COUNT is at least 1 (notes/assumptions/22.md). -/
def sampleBase (op : Instr) (cmd : Command) (taken sum : Nat) (c : Block) : Except Fault Block :=
  let d := drawCurrent c
  if taken + 1 < c.params.ackBaseCount then .ok (d.2.goto op (.b2 (taken + 1) (sum + d.1)))
  else cmd.based { d.2 with svc := { d.2.svc with base := (sum + d.1) / c.params.ackBaseCount } }

/-- F1: the output is turned off again if the preamble had turned it on (R150). -/
def restoreOutput (c : Block) : Block :=
  if c.svc.restoreOff then { c with outEnable := false, svc := { c.svc with restoreOff := false } } else c

/-- `Finish(rec)` and the command's end (R150; 60_exceptions.md R159, R162). -/
def finish (ok : Bool) (r : Response) (c : Block) : Block :=
  ((restoreOutput c).emit r).endCommand (if ok then .ok else .ackFail)

/-- The step of context A at a position (20_memory.md R58). -/
def stepAt (op : Instr) (cmd : Command) (pos : Pos) (c : Block) : Except Fault Block :=
  match pos with
  | .load lp x ret => loadStep op cmd lp x ret c
  | .wp2 n => .ok (if sinceWait c < n then c else c.goto op (.b2 0 0))
  | .b2 taken sum => sampleBase op cmd taken sum c
  | .ak0 l => .ok ((armDetector c).goto op (.ak1 l))
  | .ak1 l => if ackTimedOut c then reinstallReset op (.ackTimeout l) c else .ok (c.goto op (.ak2 l))
  | .ak1b l => cmd.legOver l false (c.withAckState .off)
  | .ak2 l => .ok (takeSample op l c)
  | .ak3 l cur tick => judge op l cur tick c
  | .ak6 l => .ok (({ c with ack := { c.ack with armedAt := c.engine.packetsTransmitted } }).goto op (.ak7 l))
  | .ak7 l => .ok (if sinceArmed c < Config.ackLingerPackets then c else c.goto op (.ak8 l))
  | .ak8 l => cmd.legOver l true (c.withAckState .done)

/-- One step of context A: from Idle the command starts, otherwise the statement at `pos` runs. -/
def microStep (op : Instr) (cmd : Command) (c : Block) : Except Fault Block :=
  match c.seq with
  | .idle => cmd.start c
  | .run _ pos => stepAt op cmd pos c

/-- Context A holds: the await it stands at does not hold yet (00_scope.md R20; 20_memory.md R58). -/
def holding (c : Block) : Bool :=
  match c.seq with
  | .run _ (.load .o1 _ _) => c.next.isSome
  | .run _ (.load .p2 _ _) => c.next.isSome
  | .run _ (.load .p5 _ _) => c.next.isSome
  | .run _ (.wp2 n) => decide (sinceWait c < n)
  | .run _ (.ak7 _) => decide (sinceArmed c < Config.ackLingerPackets)
  | _ => false

/-- Where a burst of the foreground stops: the command has ended, it holds, or it has just taken a sample of the ack
detector (notes/assumptions/6.md). -/
def paused (c : Block) : Bool :=
  match c.seq with
  | .idle => true
  | .run _ (.ak3 _ _ _) => true
  | .run _ _ => holding c

/-- Steps of context A with no step of context B between them, until a pause point or until the count is used up. -/
def burst (op : Instr) (cmd : Command) : Nat → Block → Except Fault Block
  | 0, c => .ok c
  | n + 1, c =>
    match microStep op cmd c with
    | .ok c' => if paused c' then .ok c' else burst op cmd n c'
    | .error e => .error e

/-- How many steps a burst takes at most: more than the longest stretch without a pause point. -/
def burstLength (c : Block) : Nat := 64 + c.params.ackBaseCount

/-- A foreground turn of context A on a command. -/
def foreground (op : Instr) (cmd : Command) (g : Grain) (c : Block) : Except Fault Block :=
  match g with
  | .micro => microStep op cmd c
  | .burst => burst op cmd (burstLength c) c

/-- The outcome for the whole machine of a change of the block that moves: the other block is untouched. -/
def State.lift (s : State) : Except Fault Block → Host.Outcome State Fault Refusal
  | .ok c => .next (s.setCur c)
  | .error e => .fault e

/-- The port turns command `op` away: another one is running (60_exceptions.md R184). -/
def busyWithOther (op : Instr) (c : Block) : Bool :=
  match c.seq with
  | .idle => false
  | .run o _ => o != op

/-- The meaning of a command on the block that moves: from Idle it starts; while it is running it goes on from its
position; while another one is running nothing changes (10_state.md R24; 60_exceptions.md R184; notes/assumptions/11.md). -/
def runCommand (op : Instr) (cmd : Command) (s : State) : Host.Outcome State Fault Refusal :=
  if busyWithOther op s.cur then .next s else s.lift (foreground op cmd s.grain s.cur)

end Sys2Proof.Machine
end

