-- ==== Sys2Proof/Machine/Builders.lean ====
section
/-! DEFINITION. The command builders (42_command_builders.md R124 to R132): checks, payload, load, response. -/

namespace Sys2Proof.Machine

/-- A builder: it starts, and after its load it replies; it has no service-mode position (R124). -/
def builderCommand (start reply : Block → Except Fault Block) : Command where
  start := start
  reply := reply
  based := fun _ => .error .noSuchPosition
  legOver := fun _ _ _ => .error .noSuchPosition

/-- A builder without a response ends `Ok` (R127 to R132). -/
def replyNothing (c : Block) : Except Fault Block := .ok (c.endCommand .ok)

/-- A one-shot builder: the checks, then a load of slot 0 with `nRepeat` 4 (R127 to R131). -/
def startOneShot (op : Instr) (admitted : Bool) (payload : List Byte) (c : Block) : Except Fault Block :=
  if admitted then beginLoad op 0 payload Config.oneShotRepeat .builder c else .ok c.ignore

/-! ## THROTTLE -/

/-- THROTTLE's checks and load (R126). -/
def startThrottle (slot cab speed dir : Word) (c : Block) : Except Fault Block :=
  if inRange slot 1 c.params.n && cabOk cab && inRange dir 0 1 then
    beginLoad (.throttle slot cab speed dir) slot.toNat (throttlePayload cab.toNat speed.toInt dir.toNat) 0 .builder c
  else .ok c.ignore

/-- THROTTLE's response (R126). -/
def replyThrottle (slot speed dir : Word) (c : Block) : Except Fault Block :=
  .ok ((c.emit (.throttle slot.toInt (reportedSpeed speed.toInt) dir.toInt)).endCommand .ok)

/-- THROTTLE (R126). -/
def throttleCommand (slot cab speed dir : Word) : Command :=
  builderCommand (startThrottle slot cab speed dir) (replyThrottle slot speed dir)

/-- The meaning of THROTTLE (R126). -/
def execThrottle (slot cab speed dir : Word) (s : State) : Host.Outcome State Fault Refusal :=
  runCommand (.throttle slot cab speed dir) (throttleCommand slot cab speed dir) s

/-! ## Functions -/

/-- FUNCTION_SHORT's checks and load (R127). -/
def startFunctionShort (cab fByte : Word) (c : Block) : Except Fault Block :=
  startOneShot (.functionShort cab fByte) (cabOk cab && byteOk fByte)
    (functionShortPayload cab.toNat (operandByte fByte)) c

/-- FUNCTION_SHORT (R127). -/
def functionShortCommand (cab fByte : Word) : Command := builderCommand (startFunctionShort cab fByte) replyNothing

/-- The meaning of FUNCTION_SHORT (R127). -/
def execFunctionShort (cab fByte : Word) (s : State) : Host.Outcome State Fault Refusal :=
  runCommand (.functionShort cab fByte) (functionShortCommand cab fByte) s

/-- FUNCTION_LONG's checks and load (R128). -/
def startFunctionLong (cab fByte eByte : Word) (c : Block) : Except Fault Block :=
  startOneShot (.functionLong cab fByte eByte) (cabOk cab && byteOk fByte && byteOk eByte)
    (functionLongPayload cab.toNat (operandByte fByte) (operandByte eByte)) c

/-- FUNCTION_LONG (R128). -/
def functionLongCommand (cab fByte eByte : Word) : Command :=
  builderCommand (startFunctionLong cab fByte eByte) replyNothing

/-- The meaning of FUNCTION_LONG (R128). -/
def execFunctionLong (cab fByte eByte : Word) (s : State) : Host.Outcome State Fault Refusal :=
  runCommand (.functionLong cab fByte eByte) (functionLongCommand cab fByte eByte) s

/-! ## Accessory -/

/-- `activate ^ accessoriesReversed` (R129). -/
def accessoryAct (activate : Word) (reversed : Bool) : Nat := activate.toNat ^^^ reversed.toNat

/-- ACCESSORY's checks and load (R129). -/
def startAccessory (addr port activate : Word) (c : Block) : Except Fault Block :=
  startOneShot (.accessory addr port activate) (inRange addr 0 511 && inRange port 0 3 && inRange activate 0 1)
    (accessoryPayload addr.toNat port.toNat (accessoryAct activate c.accessoriesReversed)) c

/-- ACCESSORY (R129). -/
def accessoryCommand (addr port activate : Word) : Command :=
  builderCommand (startAccessory addr port activate) replyNothing

/-- The meaning of ACCESSORY (R129). -/
def execAccessory (addr port activate : Word) (s : State) : Host.Outcome State Fault Refusal :=
  runCommand (.accessory addr port activate) (accessoryCommand addr port activate) s

/-! ## Main-track CV writes -/

/-- WRITE_MAIN_CV_BYTE's checks and load (R130). -/
def startWriteMainCvByte (cab cv value : Word) (c : Block) : Except Fault Block :=
  startOneShot (.writeMainCvByte cab cv value) (cabOk cab && cvOk cv && byteOk value)
    (mainCvBytePayload cab.toNat cv (operandByte value)) c

/-- WRITE_MAIN_CV_BYTE (R130). -/
def writeMainCvByteCommand (cab cv value : Word) : Command :=
  builderCommand (startWriteMainCvByte cab cv value) replyNothing

/-- The meaning of WRITE_MAIN_CV_BYTE (R130). -/
def execWriteMainCvByte (cab cv value : Word) (s : State) : Host.Outcome State Fault Refusal :=
  runCommand (.writeMainCvByte cab cv value) (writeMainCvByteCommand cab cv value) s

/-- WRITE_MAIN_CV_BIT's checks and load; `bit` and `value` are clamped, never refused (R131). -/
def startWriteMainCvBit (cab cv bit value : Word) (c : Block) : Except Fault Block :=
  startOneShot (.writeMainCvBit cab cv bit value) (cabOk cab && cvOk cv)
    (mainCvBitPayload cab.toNat cv (clamp 0 1 value).toNat (clamp 0 7 bit).toNat) c

/-- WRITE_MAIN_CV_BIT (R131). -/
def writeMainCvBitCommand (cab cv bit value : Word) : Command :=
  builderCommand (startWriteMainCvBit cab cv bit value) replyNothing

/-- The meaning of WRITE_MAIN_CV_BIT (R131). -/
def execWriteMainCvBit (cab cv bit value : Word) (s : State) : Host.Outcome State Fault Refusal :=
  runCommand (.writeMainCvBit cab cv bit value) (writeMainCvBitCommand cab cv bit value) s

/-! ## Raw packet -/

/-- RAW_PACKET's checks, in the order count, bytes, slot, and its load (R132; 60_exceptions.md R164). The first supplied
operand word is the slot, the others the bytes. -/
def startRawPacket (argc : BitVec 4) (args : List Word) (c : Block) : Except Fault Block :=
  if argc.toNat < 3 ∨ 6 < argc.toNat then .ok c.rejectPacket
  else if !args.tail.all byteOk then .ok c.rejectPacket
  else if !inRange (args.headD 0) 0 c.params.n then .ok c.ignore
  else
    beginLoad (.rawPacket argc args) (args.headD 0).toNat (args.tail.map operandByte) 0 .builder c

/-- RAW_PACKET (R132). -/
def rawPacketCommand (argc : BitVec 4) (args : List Word) : Command :=
  builderCommand (startRawPacket argc args) replyNothing

/-- The meaning of RAW_PACKET (R132). -/
def execRawPacket (argc : BitVec 4) (args : List Word) (s : State) : Host.Outcome State Fault Refusal :=
  runCommand (.rawPacket argc args) (rawPacketCommand argc args) s

end Sys2Proof.Machine
end

