-- ==== Sys2Proof/Machine/Readouts.lean ====
section
/-! DEFINITION. The status read-outs (42_command_builders.md R133, R134). -/

namespace Sys2Proof.Machine

/-- A command that is over in one step. -/
def immediateCommand (start : Block → Except Fault Block) : Command :=
  builderCommand start (fun _ => .error .noSuchPosition)

/-- PRINT_LAST_PACKET's effect: the record of the last load, if there is one (R133). -/
def startPrintLastPacket (c : Block) : Except Fault Block :=
  let r := c.lastLoad
  let c' := if r.valid then c.emit (.lastPacket r.slot (r.bytes.take r.len) r.rep) else c
  .ok (c'.endCommand .ok)

/-- PRINT_LAST_PACKET (R133). -/
def printLastPacketCommand : Command := immediateCommand startPrintLastPacket

/-- The meaning of PRINT_LAST_PACKET (R133). -/
def execPrintLastPacket (s : State) : Host.Outcome State Fault Refusal :=
  runCommand .printLastPacket printLastPacketCommand s

/-- PRINT_CAPACITY's effect: the number of persistent slots (R134). -/
def startPrintCapacity (c : Block) : Except Fault Block := .ok ((c.emit (.capacity c.params.n)).endCommand .ok)

/-- PRINT_CAPACITY (R134). -/
def printCapacityCommand : Command := immediateCommand startPrintCapacity

/-- The meaning of PRINT_CAPACITY (R134). -/
def execPrintCapacity (s : State) : Host.Outcome State Fault Refusal :=
  runCommand .printCapacity printCapacityCommand s

end Sys2Proof.Machine
end

