-- ==== Sys2Proof/Machine/ServiceMode.lean ====
section
/-! DEFINITION. The three service-mode conversations (44_service_mode.md R146, R152 to R154), PROG only. They read their
operands from the registers they copied them into (10_state.md R45). -/

namespace Sys2Proof.Machine

/-- A service-mode command: it starts, goes on after the base measurement and after each leg; it has no builder's
reply. -/
def serviceCommand (start based : Block → Except Fault Block) (legOver : Leg → Bool → Block → Except Fault Block) :
    Command where
  start := start
  reply := fun _ => .error .noSuchPosition
  based := based
  legOver := legOver

/-- The channel check, then the operand checks, then the operands are copied and the preamble begins
(R146, R149; 60_exceptions.md R164). -/
def startService (op : Instr) (admitted : Bool) (copy : SvcRegs → SvcRegs) (c : Block) : Except Fault Block :=
  if c.params.channel = .prog && admitted then .ok (powerPreamble op { c with svc := copy c.svc })
  else .ok c.ignore

/-- The value a response carries: -1 on failure (R151). -/
def resultOf (ok : Bool) (v : Int) : Int := if ok then v else -1

/-- `CvResp(cb, cbSub, cv, ok ? value : -1)` (R151 to R153). -/
def cvResponse (ok : Bool) (c : Block) : Response :=
  .cv c.svc.opCb.toInt c.svc.opCbSub.toInt c.svc.opCv.toInt (resultOf ok c.svc.value.toNat)

/-! ## READ_CV -/

/-- READ_CV's checks and preamble (R146, R152). -/
def startReadCv (cv cb cbSub : Word) (c : Block) : Except Fault Block :=
  startService (.readCv cv cb cbSub) (cvOk cv) (fun v => { v with opCv := cv, opCb := cb, opCbSub := cbSub }) c

/-- RD1: the reset burst of a round (R152). -/
def readCvRound (cv cb cbSub : Word) (c : Block) : Except Fault Block :=
  beginLoad (.readCv cv cb cbSub) 0 resetPayload Config.resetPrefixRepeat (.leg .burst) c

/-- READ_CV after the base measurement: `value <- 0`, the first round (R152). -/
def basedReadCv (cv cb cbSub : Word) (c : Block) : Except Fault Block :=
  readCvRound cv cb cbSub { c with svc := { c.svc with value := 0, bitIdx := 0 } }

/-- RD3: `if ok: value <- value | (1 << bitIdx)`, and the loop's next index (R152). -/
def recordBit (ok : Bool) (c : Block) : Block :=
  { c with
    svc :=
      { c.svc with
        value := if ok then c.svc.value ||| (1#8 <<< c.svc.bitIdx) else c.svc.value
        bitIdx := c.svc.bitIdx + 1 } }

/-- READ_CV after a leg: the probe after the burst, the next round or the verify after the probe, the response after the
verify (R152). -/
def legOverReadCv (cv cb cbSub : Word) (l : Leg) (ok : Bool) (c : Block) : Except Fault Block :=
  match l with
  | .burst => beginLoad (.readCv cv cb cbSub) 1 (probeBit c.svc.opCv c.svc.bitIdx) 0 (.leg .probe) c
  | .probe =>
    let c' := recordBit ok c
    if c'.svc.bitIdx < 8 then readCvRound cv cb cbSub c'
    else beginLoad (.readCv cv cb cbSub) 1 (probeVerifyByte c'.svc.opCv c'.svc.value) 0 (.leg .verify) c'
  | .verify => .ok (finish ok (cvResponse ok c) c)
  | .write => .error .noSuchPosition
  | .fallback => .error .noSuchPosition

/-- READ_CV (R152). -/
def readCvCommand (cv cb cbSub : Word) : Command :=
  serviceCommand (startReadCv cv cb cbSub) (basedReadCv cv cb cbSub) (legOverReadCv cv cb cbSub)

/-- The meaning of READ_CV (R152). -/
def execReadCv (cv cb cbSub : Word) (s : State) : Host.Outcome State Fault Refusal :=
  runCommand (.readCv cv cb cbSub) (readCvCommand cv cb cbSub) s

/-! ## WRITE_CV_BYTE -/

/-- WRITE_CV_BYTE's checks and preamble (R146, R153). -/
def startWriteCvByte (cv value cb cbSub : Word) (c : Block) : Except Fault Block :=
  startService (.writeCvByte cv value cb cbSub) (cvOk cv && byteOk value)
    (fun v => { v with opCv := cv, opValue := value, opCb := cb, opCbSub := cbSub, value := operandByte value }) c

/-- WB1 (R153). -/
def basedWriteCvByte (cv value cb cbSub : Word) (c : Block) : Except Fault Block :=
  beginLoad (.writeCvByte cv value cb cbSub) 1 (probeWriteByte c.svc.opCv c.svc.value) 0 (.leg .write) c

/-- WRITE_CV_BYTE after a leg: the verify-byte fallback where the write is not acked, else the response (R153). -/
def legOverWriteCvByte (cv value cb cbSub : Word) (l : Leg) (ok : Bool) (c : Block) : Except Fault Block :=
  match l with
  | .write =>
    if ok then .ok (finish true (cvResponse true c) c)
    else beginLoad (.writeCvByte cv value cb cbSub) 1 (probeVerifyByte c.svc.opCv c.svc.value) 0 (.leg .fallback) c
  | .fallback => .ok (finish ok (cvResponse ok c) c)
  | .burst => .error .noSuchPosition
  | .probe => .error .noSuchPosition
  | .verify => .error .noSuchPosition

/-- WRITE_CV_BYTE (R153). -/
def writeCvByteCommand (cv value cb cbSub : Word) : Command :=
  serviceCommand (startWriteCvByte cv value cb cbSub) (basedWriteCvByte cv value cb cbSub)
    (legOverWriteCvByte cv value cb cbSub)

/-- The meaning of WRITE_CV_BYTE (R153). -/
def execWriteCvByte (cv value cb cbSub : Word) (s : State) : Host.Outcome State Fault Refusal :=
  runCommand (.writeCvByte cv value cb cbSub) (writeCvByteCommand cv value cb cbSub) s

/-! ## WRITE_CV_BIT -/

/-- The bit number after the clamp, from the operand register (R154). -/
def clampedBit (c : Block) : Nat := (clamp 0 7 c.svc.opBit).toNat

/-- The bit value after the clamp, from the operand register (R154). -/
def clampedBitValue (c : Block) : Nat := (clamp 0 1 c.svc.opValue).toNat

/-- `CvBitResp(cb, cbSub, cv, b, ok ? v : -1)` (R151, R154). -/
def cvBitResponse (ok : Bool) (c : Block) : Response :=
  .cvBit c.svc.opCb.toInt c.svc.opCbSub.toInt c.svc.opCv.toInt (clampedBit c) (resultOf ok (clampedBitValue c))

/-- WRITE_CV_BIT's checks and preamble; `bit` and `value` are never refused (R146, R154). -/
def startWriteCvBit (cv bit value cb cbSub : Word) (c : Block) : Except Fault Block :=
  startService (.writeCvBit cv bit value cb cbSub) (cvOk cv)
    (fun v =>
      { v with
        opCv := cv
        opBit := bit
        opValue := value
        opCb := cb
        opCbSub := cbSub
        value := u8 (clamp 0 1 value).toNat }) c

/-- X1 (R154). -/
def basedWriteCvBit (cv bit value cb cbSub : Word) (c : Block) : Except Fault Block :=
  beginLoad (.writeCvBit cv bit value cb cbSub) 1 (probeWriteBit c.svc.opCv (clampedBitValue c) (clampedBit c)) 0
    (.leg .write) c

/-- WRITE_CV_BIT after a leg: the verify-bit fallback where the write is not acked, else the response (R154). -/
def legOverWriteCvBit (cv bit value cb cbSub : Word) (l : Leg) (ok : Bool) (c : Block) : Except Fault Block :=
  match l with
  | .write =>
    if ok then .ok (finish true (cvBitResponse true c) c)
    else
      beginLoad (.writeCvBit cv bit value cb cbSub) 1 (probeVerifyBit c.svc.opCv (clampedBitValue c) (clampedBit c)) 0
        (.leg .fallback) c
  | .fallback => .ok (finish ok (cvBitResponse ok c) c)
  | .burst => .error .noSuchPosition
  | .probe => .error .noSuchPosition
  | .verify => .error .noSuchPosition

/-- WRITE_CV_BIT (R154). -/
def writeCvBitCommand (cv bit value cb cbSub : Word) : Command :=
  serviceCommand (startWriteCvBit cv bit value cb cbSub) (basedWriteCvBit cv bit value cb cbSub)
    (legOverWriteCvBit cv bit value cb cbSub)

/-- The meaning of WRITE_CV_BIT (R154). -/
def execWriteCvBit (cv bit value cb cbSub : Word) (s : State) : Host.Outcome State Fault Refusal :=
  runCommand (.writeCvBit cv bit value cb cbSub) (writeCvBitCommand cv bit value cb cbSub) s

end Sys2Proof.Machine
end

