-- ==== Sys2Proof/Machine/Dispatch.lean ====
section
/-! DEFINITION. One arm per operation of 30_encoding.md R71. -/

namespace Sys2Proof.Machine

/-- The meaning of a command. -/
def exec (i : Instr) (s : State) : Host.Outcome State Fault Refusal :=
  match i with
  | .throttle slot cab speed dir => Sys2Proof.Machine.execThrottle slot cab speed dir s
  | .functionShort cab fByte => Sys2Proof.Machine.execFunctionShort cab fByte s
  | .functionLong cab fByte eByte => Sys2Proof.Machine.execFunctionLong cab fByte eByte s
  | .accessory addr port activate => Sys2Proof.Machine.execAccessory addr port activate s
  | .rawPacket argc args => Sys2Proof.Machine.execRawPacket argc args s
  | .readCv cv cb cbSub => Sys2Proof.Machine.execReadCv cv cb cbSub s
  | .writeCvByte cv value cb cbSub => Sys2Proof.Machine.execWriteCvByte cv value cb cbSub s
  | .writeCvBit cv bit value cb cbSub => Sys2Proof.Machine.execWriteCvBit cv bit value cb cbSub s
  | .writeMainCvByte cab cv value => Sys2Proof.Machine.execWriteMainCvByte cab cv value s
  | .writeMainCvBit cab cv bit value => Sys2Proof.Machine.execWriteMainCvBit cab cv bit value s
  | .printLastPacket => Sys2Proof.Machine.execPrintLastPacket s
  | .printCapacity => Sys2Proof.Machine.execPrintCapacity s

end Sys2Proof.Machine
end

