-- ==== Sys2Proof/Machine/Fetch.lean ====
section
/-! DEFINITION. Whose move it is, taking a command from the command port, and one move of one agent (20_memory.md R57 to
R60; 60_exceptions.md R184). -/

namespace Sys2Proof.Machine

/-- The host has submitted the oldest command it holds (60_exceptions.md R184). -/
def Block.withCmds (c : Block) (ws : List CommandWord) : Block := { c with io := { c.io with cmds := ws } }

/-- Context A has something to do: a command running and not held, or a command at the port (R184; 20_memory.md R58). -/
def foregroundReady (c : Block) : Bool :=
  match c.seq with
  | .idle => !c.io.cmds.isEmpty
  | .run _ _ => !holding c

/-- The default order of a block's moves, the lazy schedule of 95_test_vectors.md 4.1: context B steps when context A
has nothing to do or holds, and once after each sample of the ack detector (notes/assumptions/5.md, DESIGN CHOICE). -/
def defaultTurn (c : Block) : Turn := if foregroundReady c && !c.io.sampled then .foreground .burst else .engine

/-- The next move and the state with it taken from the list; with no move listed, the block that did not move last makes
its default move (notes/assumptions/5.md, 8.md). -/
def pickTurn (s : State) : Turn × State :=
  match s.turns with
  | (ch, t) :: rest => (t, { s with turns := rest, focus := ch })
  | [] => (defaultTurn (s.block s.focus.other), { s with focus := s.focus.other })

/-- Context A at Idle takes a command word from the port: a command starts, any other word is ignored
(60_exceptions.md R184; 30_encoding.md R72). -/
def acceptCommand (w : CommandWord) (rest : List CommandWord) (s : State) : Host.Outcome State Fault Refusal :=
  let s' := s.setCur (s.cur.withCmds rest)
  match decode w with
  | .ok i => exec i s'
  | .error _ => .next (s'.setCur s'.cur.ignore)

/-- A move of context A: the running command goes on, or the next command is accepted. -/
def foregroundTurn (s : State) : Host.Outcome State Fault Refusal :=
  match s.cur.seq with
  | .run i _ => exec i s
  | .idle =>
    match s.cur.io.cmds with
    | [] => .next s
    | w :: rest => acceptCommand w rest s

/-- One move of the block in focus. -/
def takeTurn (t : Turn) (s : State) : Host.Outcome State Fault Refusal :=
  match t with
  | .foreground g => foregroundTurn { s with grain := g }
  | .engine => s.lift (engineStep s.cur)
  | .setOutEnable v => .next (s.setCur (hostSetOutEnable v s.cur))
  | .configWrite v => .next (s.setCur (hostConfigWrite v s.cur))
  | .currentCheck => .next (s.setCur (currentCheck s.cur))
  | .powerOnReset => .next (s.setCur (powerOnReset s.cur))

/-- A block at Idle with a command word first in line at its port. -/
def Block.withCommand (c : Block) (w : CommandWord) : Block := { c.withCmds (w :: c.io.cmds) with seq := .idle }

end Sys2Proof.Machine
end

