-- ==== Sys2Proof/Machine/Step.lean ====
section
/-! DEFINITION. One step of the machine: one move of one agent (20_memory.md R57, R60). -/

namespace Sys2Proof.Machine

/-- One step. -/
def step (s : State) : Host.Outcome State Fault Refusal := takeTurn (pickTurn s).1 (pickTurn s).2

/-- The command word with bits `w` first at the command port of the PROG block, which is Idle and whose foreground moves
next, so that the next step runs it (PROG admits every operation, 30_encoding.md R71; notes/assumptions/10.md). -/
def State.withFetchWord (s : State) (nbits w : Nat) : State :=
  { s with
    prog := s.prog.withCommand (commandWordOf nbits w)
    turns := (.prog, .foreground .burst) :: s.turns }

end Sys2Proof.Machine
end

