-- ==== Sys2Proof/Safety.lean ====
section
/-! DEFINITION. What a sound station is: the invariants of 41_slot_table_loader.md section 6 said at every position of a
load, not only at Idle, and the ranges of 10_state.md. Claims use these names. -/

namespace Sys2Proof.Machine

/-! ## Packets and frames -/

/-- The bytes of a packet with its checksum: three to six bytes that XOR to 0 (30_encoding.md R88; 40_encoder.md R96). -/
def isPacket (q : List Byte) : Prop := 3 ≤ q.length ∧ q.length ≤ 6 ∧ checksum q = 0

/-- The frame of a packet as the encoder leaves it, the invalid flag at 1 (40_encoder.md R97, R99). -/
def encodedFrame (q : List Byte) : Frame := ⟨frameLength q, packFrame q⟩

/-- The frame of a packet as the publish step leaves it, the invalid flag at 0 (R99, R105). -/
def publishedFrame (q : List Byte) : Frame := ⟨frameLength q, (packFrame q).modify 6 (· &&& 0xFE)⟩

/-- A frame that is the complete, published result of one encoder call (41_slot_table_loader.md R121). -/
def Frame.complete (f : Frame) : Prop := ∃ q, isPacket q ∧ f = publishedFrame q

/-- The packet that a frame's bits carry: byte `i` is frame bits `9 i + 1` to `9 i + 8` (40_encoder.md R102). -/
def frameByte (buf : List Byte) (i : Nat) : Byte :=
  BitVec.ofBoolListBE ((List.range 8).map fun t => frameBit buf (9 * i + 1 + t))

/-- Slot `j` as its bytes and its length field stand. -/
def Block.slotFrame (c : Block) (j : Nat) : Frame :=
  ⟨c.table.bitCounts.getD j 0, c.table.mem.getBytes (slotAddr j 0) 9⟩

/-! ## Shape, memory and ranges -/

/-- The parameters are in their bounds and every array has its length (00_scope.md R9, R10; 10_state.md R25, R28, R35,
R38). -/
def Block.ShapeOk (c : Block) : Prop :=
  c.params.wf = true ∧ c.table.bitCounts.length = c.slots ∧ c.table.map.length = c.params.n ∧
    c.payload.p.length = 6 ∧ 2 ≤ c.payload.k ∧ c.payload.k ≤ 5 ∧ c.engine.latched.buf.length = 9

/-- The slot RAM is in canonical form and lists no address outside the slots (20_memory.md R48). -/
def Block.MemoryOk (c : Block) : Prop := c.table.mem.wf ∧ ∀ x ∈ c.table.mem, x.1 < 9 * c.slots

/-- Repeat counts are at most 4 (10_state.md R32). -/
def Block.RepeatsOk (c : Block) : Prop :=
  c.nextRepeat ≤ 4 ∧ c.engine.repeatLeft ≤ 4 ∧
    match c.seq with
    | .run _ (.load _ x _) => x.rep ≤ 4
    | _ => True

/-- The base current and the sample in hand are readings the probe can give (10_state.md R44, R45). -/
def Block.CurrentsOk (c : Block) : Prop :=
  c.svc.base ≤ c.params.curMax ∧ c.ack.ackBase ≤ c.params.curMax ∧
    match c.seq with
    | .run _ (.b2 taken sum) => taken < c.params.ackBaseCount ∧ sum ≤ taken * c.params.curMax
    | .run _ (.ak3 _ cur _) => cur ≤ c.params.curMax
    | _ => True

/-! ## Positions -/

/-- The legs of a conversation (44_service_mode.md R152 to R154); a builder has none. -/
def legOk (op : Instr) (l : Leg) : Bool :=
  match op with
  | .readCv _ _ _ => l == .burst || l == .probe || l == .verify
  | .writeCvByte _ _ _ _ => l == .write || l == .fallback
  | .writeCvBit _ _ _ _ _ => l == .write || l == .fallback
  | _ => false

/-- The operation is a conversation. -/
def isService (op : Instr) : Bool := legOk op .verify || legOk op .write

/-- The operation is a builder, which ends in a load (42_command_builders.md R124). -/
def isBuilder (op : Instr) : Bool :=
  match op with
  | .throttle _ _ _ _ => true
  | .functionShort _ _ => true
  | .functionLong _ _ _ => true
  | .accessory _ _ _ => true
  | .rawPacket _ _ => true
  | .writeMainCvByte _ _ _ => true
  | .writeMainCvBit _ _ _ _ => true
  | _ => false

/-- The ack detector runs after every leg but the burst (R152). -/
def ackLegOk (op : Instr) (l : Leg) : Bool := legOk op l && l != .burst

/-- The positions of each operation (10_state.md R24). -/
def positionOk (op : Instr) (pos : Pos) : Bool :=
  match pos with
  | .load _ _ .builder => isBuilder op
  | .load _ _ (.leg l) => legOk op l
  | .load _ _ (.ackTimeout l) => ackLegOk op l
  | .load _ _ (.ackConfirm l) => ackLegOk op l
  | .wp2 _ => isService op
  | .b2 _ _ => isService op
  | .ak0 l => ackLegOk op l
  | .ak1 l => ackLegOk op l
  | .ak1b l => ackLegOk op l
  | .ak2 l => ackLegOk op l
  | .ak3 l _ _ => ackLegOk op l
  | .ak6 l => ackLegOk op l
  | .ak7 l => ackLegOk op l
  | .ak8 l => ackLegOk op l

/-- `seq` holds a position of the running operation; a conversation runs on PROG only (10_state.md R24;
44_service_mode.md R146). -/
def Block.PositionOk (c : Block) : Prop :=
  match c.seq with
  | .idle => True
  | .run op pos => positionOk op pos = true ∧ (isService op = true → c.params.channel = .prog)

/-! ## The pool of persistent slots -/

/-- The mapped slots and the recycled one are exactly `1..maxLoaded`, each once (41_slot_table_loader.md R119). -/
def poolPartition (map : List (Option Nat)) (recycled : Option Nat) (maxLoaded : Nat) : Prop :=
  (map.filterMap id ++ recycled.toList).Perm (List.range' 1 maxLoaded)

/-- The partition at Idle and wherever no persistent load has begun or it has ended (R119). -/
def Block.PoolSettled (c : Block) : Prop := poolPartition c.table.map c.table.recycleReg c.table.maxLoaded

/-- What a persistent load knows of its slots: a user slot and a physical slot of the pool, and what it leaves in
`recycleReg` (R109). -/
def loadTargetOk (x : LoadCtx) (c : Block) : Prop :=
  1 ≤ x.user ∧ x.user ≤ c.params.n ∧ 1 ≤ x.cand ∧ x.cand ≤ c.params.n ∧
    (x.inPlace = true → x.prev = some x.cand) ∧
    c.table.recycleReg = if x.inPlace then none else x.prev

/-- Before P6 the partition holds of the map and the watermark that the load will leave (R109, R110). -/
def loadPending (x : LoadCtx) (c : Block) : Prop :=
  loadTargetOk x c ∧ c.mapped x.user = x.prev ∧
    poolPartition (c.table.map.set (x.user - 1) (some x.cand)) c.table.recycleReg (max c.table.maxLoaded x.cand)

/-- Between P6 and P8 the map is new and the watermark still to be raised (R110). -/
def loadPublished (x : LoadCtx) (c : Block) : Prop :=
  loadTargetOk x c ∧ c.mapped x.user = some x.cand ∧
    poolPartition c.table.map c.table.recycleReg (max c.table.maxLoaded x.cand)

/-- The pool at each statement of a load. -/
def loadPoolOk (lp : LoadPos) (x : LoadCtx) (c : Block) : Prop :=
  match lp with
  | .o1 => x.user = 0 ∧ x.cand = 0 ∧ c.PoolSettled
  | .o2 => x.user = 0 ∧ x.cand = 0 ∧ c.PoolSettled
  | .o3 => x.user = 0 ∧ x.cand = 0 ∧ c.PoolSettled
  | .o4 => x.user = 0 ∧ x.cand = 0 ∧ c.PoolSettled
  | .p2 => x.inPlace = true ∧ loadPending x c
  | .p3 => x.inPlace = true ∧ loadPending x c
  | .p4 => loadPending x c
  | .p5 => loadPending x c
  | .p6 => loadPending x c
  | .p7 => loadPublished x c
  | .p8 => loadPublished x c
  | .p9 => x.user ≤ c.params.n ∧ c.PoolSettled

/-- The pool of a block, at every position (R118, R119). -/
def Block.PoolOk (c : Block) : Prop :=
  c.table.map.length = c.params.n ∧ c.table.maxLoaded ≤ c.params.n ∧
    (∀ j, c.next = some j → j ≤ c.params.n) ∧ 1 ≤ c.params.n ∧
    match c.seq with
    | .run _ (.load lp x _) => loadPoolOk lp x c
    | _ => c.PoolSettled

/-! ## Invalid flags -/

/-- Every mapped slot but the excepted one is valid (41_slot_table_loader.md R120). -/
def mappedValid (c : Block) (except : Option Nat) : Prop :=
  ∀ s j, 1 ≤ s → s ≤ c.params.n → c.mapped s = some j → except ≠ some j → c.invalid j = false

/-- The recycled slot is invalid (R120). -/
def recycledInvalid (c : Block) : Prop := ∀ r, c.table.recycleReg = some r → c.invalid r = true

/-- A slot above the watermark but the excepted one was never published (R112). -/
def freshInvalid (c : Block) (except : Option Nat) : Prop :=
  ∀ j, c.table.maxLoaded < j → j ≤ c.params.n → except ≠ some j → c.invalid j = true

/-- The flags at Idle (R120). -/
def Block.FlagsSettled (c : Block) : Prop := mappedValid c none ∧ recycledInvalid c ∧ freshInvalid c none

/-- The flags from the choice of a slot to its publication: the slot to be written is invalid, and an in-place load has
seen `next = none` (R111, R112). -/
def flagsPending (x : LoadCtx) (c : Block) : Prop :=
  mappedValid c (if x.inPlace then some x.cand else none) ∧ freshInvalid c none ∧ c.invalid x.cand = true ∧
    (x.inPlace = true → c.next = none)

/-- The flags at each statement of a load (R110 to R112). -/
def loadFlagsOk (lp : LoadPos) (x : LoadCtx) (c : Block) : Prop :=
  match lp with
  | .o1 => c.FlagsSettled
  | .o2 => c.FlagsSettled ∧ c.next = none
  | .o3 => c.FlagsSettled ∧ c.next = none
  | .o4 => c.FlagsSettled
  | .p2 => c.FlagsSettled
  | .p3 => c.FlagsSettled ∧ c.next = none
  | .p4 => flagsPending x c
  | .p5 => flagsPending x c
  | .p6 => flagsPending x c ∧ c.next = none
  | .p7 => mappedValid c none ∧ freshInvalid c (some x.cand) ∧ (c.next = none ∨ c.next = some x.cand)
  | .p8 => mappedValid c none ∧ recycledInvalid c ∧ freshInvalid c (some x.cand)
  | .p9 => c.FlagsSettled

/-- The invalid flags of a block, at every position: `next` never names an invalid slot (R121), mapped slots are valid
and the recycled one is not (R120). -/
def Block.FlagsOk (c : Block) : Prop :=
  (∀ j, c.next = some j → c.invalid j = false) ∧
    match c.seq with
    | .run _ (.load lp x _) => loadFlagsOk lp x c
    | _ => c.FlagsSettled

/-! ## Frames -/

/-- Between the encoder call and the publish step the slot holds the encoder's complete result for the payload register
(40_encoder.md R99; 41_slot_table_loader.md R110). -/
def loadFrameOk (lp : LoadPos) (x : LoadCtx) (c : Block) : Prop :=
  match lp with
  | .o3 => isPacket c.packetBytes ∧ c.slotFrame 0 = encodedFrame c.packetBytes
  | .p5 => isPacket c.packetBytes ∧ c.slotFrame x.cand = encodedFrame c.packetBytes
  | .p6 => isPacket c.packetBytes ∧ c.slotFrame x.cand = encodedFrame c.packetBytes
  | _ => True

/-- Every valid slot, the frame being sent, and every frame sent so far, is a complete published frame
(41_slot_table_loader.md R121; 70_reset_and_hazards.md R193). -/
def Block.FramesOk (c : Block) : Prop :=
  (∀ j, j ≤ c.params.n → c.invalid j = false → (c.slotFrame j).complete) ∧ c.engine.latched.complete ∧
    (∀ f, Event.emitted f ∈ c.io.events → f.complete) ∧
    match c.seq with
    | .run _ (.load lp x _) => loadFrameOk lp x c
    | _ => True

/-! ## The station -/

/-- A sound block. -/
def Block.Sound (c : Block) : Prop :=
  c.ShapeOk ∧ c.MemoryOk ∧ c.PositionOk ∧ c.PoolOk ∧ c.FlagsOk ∧ c.FramesOk

/-- A property of both blocks. -/
def State.Both (s : State) (P : Block → Prop) : Prop := P s.main ∧ P s.prog

/-- Each block stands at its own channel (00_scope.md R4). -/
def State.ChannelsOk (s : State) : Prop := s.main.params.channel = .main ∧ s.prog.params.channel = .prog

/-- A safe step: the machine goes on, to a sound station whose blocks stand at their own channels (60_exceptions.md
R165). -/
def State.StepsSafely (s : State) : Prop := ∃ t, step s = .next t ∧ t.ChannelsOk ∧ t.Both Block.Sound

/-- A block after one packet completion that sent frame `f` from `src`, with the engine's other registers given
(60_exceptions.md R169). -/
def afterPacket (c : Block) (src : Source) (f : Frame) (repeatLeft : Byte) (rot : Nat) (next : Option Nat) : Block :=
  { c with
    engine := ⟨c.engine.packetsTransmitted + 1, src, f, repeatLeft, rot⟩
    next := next
    io := { c.io with events := c.io.events ++ [.emitted f], sampled := false } }

/-- `m` packet completions in a row, context A taking no step (60_exceptions.md R169). -/
def engineSteps : Nat → Block → Except Fault Block
  | 0, c => .ok c
  | m + 1, c =>
    match engineStep c with
    | .ok c' => engineSteps m c'
    | .error e => .error e

/-- `m` steps of context A in a row on one command, context B taking none (20_memory.md R58). -/
def microSteps (op : Instr) (cmd : Command) : Nat → Block → Except Fault Block
  | 0, c => .ok c
  | m + 1, c =>
    match microStep op cmd c with
    | .ok c' => microSteps op cmd m c'
    | .error e => .error e

end Sys2Proof.Machine
end

