-- ==== Sys2Proof/Certificates/Slice0/Obligations.lean ====
section
/-! DEFINITION. The statements put to the provers, with the predicates they share. -/

namespace Sys2Proof.Machine

/-- Address `a` is one of the nine bytes of slot `j` (20_memory.md R48). -/
def inSlot (j a : Nat) : Prop := slotAddr j 0 ≤ a ∧ a < slotAddr j 0 + 9

/-- Everything of a block that no command builder and no read-out touches is as before, and the outside has seen `out`
and nothing else. -/
def untouched (out : List Event) (c c' : Block) : Prop :=
  c'.params = c.params ∧ c'.engine = c.engine ∧ c'.accessoriesReversed = c.accessoriesReversed ∧
    c'.outEnable = c.outEnable ∧ c'.ack = c.ack ∧ c'.svc = c.svc ∧ c'.acc = c.acc ∧
    c'.io = { c.io with events := c.io.events ++ out }

/-- The effect of a complete one-shot load of a payload on a block, its frame included (41_slot_table_loader.md R108,
R113; 40_encoder.md R96, R97). -/
def oneShotLoaded (payload : List Byte) (rep : Byte) (c c' : Block) : Prop :=
  let q := payload ++ [checksum payload]
  c'.seq = .idle ∧ c'.slotFrame 0 = publishedFrame q ∧ (∀ a, ¬inSlot 0 a → c'.byteAt a = c.byteAt a) ∧
    (∀ j, j ≠ 0 → c'.table.bitCounts.getD j 0 = c.table.bitCounts.getD j 0) ∧
    c'.table.map = c.table.map ∧ c'.table.recycleReg = c.table.recycleReg ∧
    c'.table.maxLoaded = c.table.maxLoaded ∧ c'.next = some 0 ∧ c'.nextRepeat = rep ∧
    c'.payload.k = payload.length ∧ c'.payload.p = q ++ c.payload.p.drop q.length ∧
    c'.lastLoad = ⟨true, 0, q.length, q, rep⟩

/-- The effect of a complete persistent load of a payload on a block, its frame included: `x` and `r` are the slot
choice of P1, given by `slotChoice` (41_slot_table_loader.md R109, R110, R113; 40_encoder.md R96, R97). -/
def persistentLoaded (payload : List Byte) (x : LoadCtx) (r : Option Nat) (c c' : Block) : Prop :=
  let q := payload ++ [checksum payload]
  c'.seq = .idle ∧ c'.slotFrame x.cand = publishedFrame q ∧
    (∀ p, x.inPlace = false → x.prev = some p → c'.byteAt (flagAddr p) = c.byteAt (flagAddr p) ||| 0x01) ∧
    (∀ a, ¬inSlot x.cand a → (∀ p, x.inPlace = false → x.prev = some p → a ≠ flagAddr p) →
      c'.byteAt a = c.byteAt a) ∧
    (∀ j, j ≠ x.cand → c'.table.bitCounts.getD j 0 = c.table.bitCounts.getD j 0) ∧
    c'.table.map = c.table.map.set (x.user - 1) (some x.cand) ∧ c'.table.recycleReg = r ∧
    c'.table.maxLoaded = max c.table.maxLoaded x.cand ∧ c'.next = some x.cand ∧ c'.nextRepeat = x.rep ∧
    c'.payload.k = payload.length ∧ c'.payload.p = q ++ c.payload.p.drop q.length ∧
    c'.lastLoad = ⟨true, x.user, q.length, q, x.rep⟩

/-- The loader's choice of a slot for a user slot: the recycled slot first, then the slot above the watermark, then the
mapped slot in place; `r` is what the choice leaves in `recycleReg` (41_slot_table_loader.md R109, R111). -/
def slotChoice (user : Nat) (rep : Byte) (c : Block) (x : LoadCtx) (r : Option Nat) : Prop :=
  let prev := c.table.map.getD (user - 1) none
  x.user = user ∧ x.rep = rep ∧ x.print = false ∧ x.prev = prev ∧
    (∀ q, c.table.recycleReg = some q → x.cand = q ∧ x.inPlace = false ∧ r = prev) ∧
    (c.table.recycleReg = none → c.table.maxLoaded < c.params.n →
      x.cand = c.table.maxLoaded + 1 ∧ x.inPlace = false ∧ r = prev) ∧
    (c.table.recycleReg = none → c.params.n ≤ c.table.maxLoaded → prev = some x.cand ∧ x.inPlace = true ∧ r = none)

/-- The payload register after a payload is written: the bytes above keep their value (10_state.md R38;
notes/assumptions/17.md). -/
def written (payload : List Byte) (c : Block) : Payload :=
  ⟨payload ++ c.payload.p.drop payload.length, payload.length⟩

/-- Command `i` begins a load of a payload into user slot 1, with no repeat, that returns to `ret`; `d` is the block with
what the same move did before (41_slot_table_loader.md R109, R110). -/
def loadsUserSlot1 (i : Instr) (payload : List Byte) (ret : LoadRet) (d : Block) (s : State) : Prop :=
  ∃ x r, slotChoice 1 0 d x r ∧
    exec i s =
      .next (s.setCur
        { d with
          seq := .run i (.load (if x.inPlace then .p2 else .p4) x ret)
          payload := written payload d
          table := { d.table with recycleReg := r } })

/-- One current draw gives `v` and leaves `io`: the next listed answer, capped at CUR_MAX, else the free value
(60_exceptions.md R185; notes/assumptions/3.md). -/
def drawnCurrent (c : Block) (v : Nat) (io : Io) : Prop :=
  (∀ w ws, c.io.currents = w :: ws → v = min w c.params.curMax ∧ io = { c.io with currents := ws }) ∧
    (c.io.currents = [] →
      v = min (Config.freeCurrent c.params.channel c.io.draws) c.params.curMax ∧
        io = { c.io with draws := c.io.draws + 1 })

/-- One tick draw gives `v` and leaves `io'`, after the current draw left `io`. -/
def drawnTick (ch : Channel) (io : Io) (v : Word) (io' : Io) : Prop :=
  (∀ w ws, io.ticks = w :: ws → v = w ∧ io' = { io with ticks := ws }) ∧
    (io.ticks = [] → v = Config.freeTick ch io.draws ∧ io' = { io with draws := io.draws + 1 })

/-- The record of a load that has just ended (41_slot_table_loader.md R113). -/
def recorded (x : LoadCtx) (c : Block) : LastLoad :=
  ⟨true, x.user, c.payload.k + 1, c.payload.p.take (c.payload.k + 1), x.rep⟩

/-- Nothing is handed off, nothing persistent was ever loaded, and no one-shot is being repeated. -/
def quiet (c : Block) : Prop :=
  c.next = none ∧ c.table.maxLoaded = 0 ∧ ¬(c.engine.cur = .slot 0 ∧ 0 < c.engine.repeatLeft)

/-- Context A stands at a statement that publishes a slot or raises the watermark (41_slot_table_loader.md R108, R110). -/
def publishes (c : Block) : Prop :=
  match c.seq with
  | .run _ (.load .o3 _ _) => True
  | .run _ (.load .p6 _ _) => True
  | .run _ (.load .p8 _ _) => True
  | _ => False

/-- A step of the station is one packet completion of block `ch` (60_exceptions.md R166), in focus with `rest` left. -/
def completesPacket (s : State) (ch : Channel) (rest : List (Channel × Turn)) : Prop :=
  (∀ c', engineStep (s.block ch) = .ok c' →
      step s = .next (({ s with focus := ch, turns := rest } : State).setBlock ch c')) ∧
    ∀ e, engineStep (s.block ch) = .error e → step s = .fault e

/-- A block at which a builder can run to its end in one burst: at Idle, with no hand-off pending. -/
def State.readyForBuilder (s : State) : Prop :=
  s.grain = .burst ∧ s.cur.seq = .idle ∧ s.cur.next = none ∧ s.cur.ShapeOk ∧ s.cur.PoolOk

/-- A one-shot builder runs to its end: the payload is loaded into slot 0 with `nRepeat` `rep`, no response
(42_command_builders.md R124). -/
def runsOneShot (i : Instr) (payload : List Byte) (rep : Byte) (s : State) : Prop :=
  ∃ c', exec i s = .next (s.setCur c') ∧ oneShotLoaded payload rep s.cur c' ∧ untouched [.ended .ok] s.cur c'

/-- A persistent builder runs to its end: the payload is loaded for user slot `user`, and the outside sees `out`
(42_command_builders.md R124). -/
def runsPersistent (i : Instr) (user : Nat) (payload : List Byte) (out : List Event) (s : State) : Prop :=
  ∃ x r c', slotChoice user 0 s.cur x r ∧ exec i s = .next (s.setCur c') ∧
    persistentLoaded payload x r s.cur c' ∧ untouched out s.cur c'

/-- An operand is out of the range an operation admits. -/
def outside (x : Word) (lo hi : Int) : Prop := x.toInt < lo ∨ hi < x.toInt

/-- The operands for which an operation does `ignore`, on a block with parameters `q` (42_command_builders.md R125 to
R132; 44_service_mode.md R146; 60_exceptions.md R159). -/
def refusedOperands (q : Params) : Instr → Prop
  | .throttle slot cab _ dir => outside slot 1 q.n ∨ outside cab 0 10239 ∨ outside dir 0 1
  | .functionShort cab fByte => outside cab 0 10239 ∨ outside fByte 0 255
  | .functionLong cab fByte eByte => outside cab 0 10239 ∨ outside fByte 0 255 ∨ outside eByte 0 255
  | .accessory addr port activate => outside addr 0 511 ∨ outside port 0 3 ∨ outside activate 0 1
  | .rawPacket argc args =>
    3 ≤ argc.toNat ∧ argc.toNat ≤ 6 ∧ (∀ b ∈ args.tail, ¬outside b 0 255) ∧ outside (args.headD 0) 0 q.n
  | .readCv cv _ _ => q.channel = .main ∨ outside cv 1 1024
  | .writeCvByte cv value _ _ => q.channel = .main ∨ outside cv 1 1024 ∨ outside value 0 255
  | .writeCvBit cv _ _ _ _ => q.channel = .main ∨ outside cv 1 1024
  | .writeMainCvByte cab cv value => outside cab 0 10239 ∨ outside cv 1 1024 ∨ outside value 0 255
  | .writeMainCvBit cab cv _ _ => outside cab 0 10239 ∨ outside cv 1 1024
  | .printLastPacket => False
  | .printCapacity => False

/-- The command words that are no command: `rsv`, `opcode` and `argc` outside the map of 30_encoding.md R71 (R72). -/
def reservedWord (w : CommandWord) : Prop :=
  rsvOf w ≠ 0 ∨ (opcodeOf w).toNat = 0 ∨ 0x0B < (opcodeOf w).toNat ∨
    ((opcodeOf w).toNat, (argcOf w).toNat) ∉
      [(1, 4), (2, 2), (2, 3), (3, 3), (5, 3), (6, 4), (7, 5), (8, 3), (9, 4), (10, 0), (11, 0)] ∧
      (opcodeOf w).toNat ≠ 4

/-- The bytes that the statement at which context A stands stores to: the encoder's nine bytes of its slot, or the one
byte that holds an invalid flag (41_slot_table_loader.md R108, R110). -/
def storesTo (c : Block) (a : Nat) : Prop :=
  match c.seq with
  | .run _ (.load .o2 _ _) => inSlot 0 a
  | .run _ (.load .o3 _ _) => a = flagAddr 0
  | .run _ (.load .p3 x _) => a = flagAddr x.cand
  | .run _ (.load .p4 x _) => inSlot x.cand a
  | .run _ (.load .p6 x _) => a = flagAddr x.cand
  | .run _ (.load .p7 x _) => x.inPlace = false ∧ ∃ q, x.prev = some q ∧ a = flagAddr q
  | _ => False

/-- The slot whose length field the statement at which context A stands writes. -/
def writesLengthOf (c : Block) (j : Nat) : Prop :=
  match c.seq with
  | .run _ (.load .o2 _ _) => j = 0
  | .run _ (.load .p4 x _) => j = x.cand
  | _ => False

/-- What a conversation's end does (44_service_mode.md R150): the output restored, one response, the command ended. -/
def finished (c : Block) (st : AckState) (r : Response) (l : EndLabel) : Block :=
  { c with
    seq := .idle
    outEnable := if c.svc.restoreOff then false else c.outEnable
    svc := { c.svc with restoreOff := false }
    ack := { c.ack with ackState := st }
    io := { c.io with events := c.io.events ++ [.response r, .ended l] } }

/-- The state in which the foreground of block `ch` moves. -/
def State.moving (s : State) (ch : Channel) (g : Grain) (rest : List (Channel × Turn)) : State :=
  { s with focus := ch, grain := g, turns := rest }

end Sys2Proof.Machine

open Sys2Proof Sys2Proof.Machine

/-! ## Command words -/

/-- 30_encoding.md R70, R71: decoding an encoded well-formed command gives it back, every operand at every value. -/
def Obligations.DecodeInvertsEncode : Prop := ∀ i : Instr, i.wf = true → decode (encode i) = .ok i

/-- 30_encoding.md R70, R71: every field a command word supplies is in the command it decodes to; only the operand words
at index `argc` and above are dropped. -/
def Obligations.EncodeKeepsDecodedFields : Prop :=
  ∀ (w : CommandWord) (i : Instr), decode w = .ok i →
    i.wf = true ∧ opcodeOf (encode i) = opcodeOf w ∧ argcOf (encode i) = argcOf w ∧ rsvOf (encode i) = rsvOf w ∧
      ∀ n, n < min (argcOf w).toNat 6 → argOf (encode i) n = argOf w n

/-- 30_encoding.md R72: the decoder refuses exactly the reserved words. -/
def Obligations.DecodeRefusesExactlyReservedWords : Prop :=
  ∀ w : CommandWord, (∃ e, decode w = .error e) ↔ reservedWord w

/-- 95_test_vectors.md 4.2 to 4.6: command words written out from the encoding decode to their commands. -/
def Obligations.SampleWordsDecode : Prop :=
  decode 0x1000000400000002A000000030401#208 = .ok (.throttle 3 42 64 1) ∧
    decode 0x90000000030202#208 = .ok (.functionShort 3 144) ∧
    decode 0x100000001000000180303#208 = .ok (.accessory 24 1 1) ∧
    decode 0x800000003F00000003000000010404#208 = .ok (.rawPacket 4 [1, 3, 0x3F, 0x80]) ∧
    decode 0x80000000700000055000000080406#208 = .ok (.writeCvByte 8 0x55 7 8) ∧
    decode 0xB#208 = .ok .printCapacity

/-! ## The step -/

/-- 60_exceptions.md R184: a foreground move of a block at Idle runs the command that the word at its port decodes to,
with that word taken from the port; so does the default move of the block whose turn it is. The list of words at the port,
the list of moves and the default move are the model's choices (notes/assumptions/5.md, 8.md, 9.md). -/
def Obligations.StepRunsDecodedCommand : Prop :=
  ∀ (s : State) (w : CommandWord) (ws : List CommandWord) (i : Instr), decode w = .ok i →
    (∀ ch g rest, s.turns = (ch, .foreground g) :: rest → (s.block ch).seq = .idle → (s.block ch).io.cmds = w :: ws →
      step s = exec i ((s.moving ch g rest).setBlock ch ((s.block ch).withCmds ws))) ∧
    (∀ ch, s.turns = [] → ch = s.focus.other → (s.block ch).seq = .idle → (s.block ch).io.cmds = w :: ws →
      (s.block ch).io.sampled = false →
      step s = exec i ((s.moving ch .burst []).setBlock ch ((s.block ch).withCmds ws)))

/-- 10_state.md R24: a foreground move of a block that is running a command goes on with that command; the list
of moves is the model's (notes/assumptions/5.md). -/
def Obligations.StepResumesRunningCommand : Prop :=
  ∀ (s : State) (ch : Channel) (g : Grain) (rest : List (Channel × Turn)) (i : Instr) (pos : Pos),
    s.turns = (ch, .foreground g) :: rest → (s.block ch).seq = .run i pos → step s = exec i (s.moving ch g rest)

/-- 30_encoding.md R72, 60_exceptions.md R160: a reserved word at the port of an idle block is taken and ignored:
nothing else of the machine changes, no response is emitted; the label of the end stands in the model's own record
(notes/assumptions/12.md). -/
def Obligations.ReservedWordIsIgnored : Prop :=
  ∀ (s : State) (ch : Channel) (g : Grain) (rest : List (Channel × Turn)) (w : CommandWord) (ws : List CommandWord),
    s.turns = (ch, .foreground g) :: rest → (s.block ch).seq = .idle → (s.block ch).io.cmds = w :: ws →
    reservedWord w →
    step s =
      .next ((s.moving ch g rest).setBlock ch
        { s.block ch with
          io := { (s.block ch).io with cmds := ws, events := (s.block ch).io.events ++ [.ended .ignored] } })

/-- 60_exceptions.md R184: a command given to a block that is running another one is turned away; that `exec` then leaves
the whole machine as it is, is the model's choice (notes/assumptions/11.md). -/
def Obligations.BusyBlockTurnsCommandAway : Prop :=
  ∀ (i j : Instr) (pos : Pos) (s : State), s.cur.seq = .run j pos → i ≠ j → exec i s = .next s

/-- 60_exceptions.md R180, R181, R184: the host's output-enable write works at any time, its configuration write at Idle;
the current monitor's `check` takes one sample into its accumulator and shows a trip when the smoothed current is above
the limit. Each changes nothing else. That a configuration write at another time does nothing is the model's choice
(notes/assumptions/18.md); so is the list the sample comes from, capped at CUR_MAX (3.md), and `check` as a move (16.md). -/
def Obligations.OutsideMovesWriteTheirOwnRegister : Prop :=
  ∀ (s : State) (ch : Channel) (v : Bool) (sample : Nat) (samples : List Nat) (rest : List (Channel × Turn)),
    let c := s.block ch
    let moved := fun d : Block => (({ s with focus := ch, turns := rest } : State).setBlock ch d)
    let acc := Config.smooth c.acc (min sample c.params.curMax)
    (s.turns = (ch, .setOutEnable v) :: rest → step s = .next (moved { c with outEnable := v })) ∧
    (s.turns = (ch, .configWrite v) :: rest → c.seq = .idle →
      step s = .next (moved { c with accessoriesReversed := v })) ∧
    (s.turns = (ch, .configWrite v) :: rest → c.seq ≠ .idle → step s = .next (moved c)) ∧
    (s.turns = (ch, .currentCheck) :: rest → c.io.currents = sample :: samples →
      step s =
        .next (moved
          { c with
            acc := acc
            io := { c.io with
              currents := samples
              events := c.io.events ++
                (if c.params.currentSampleMax < Config.smoothOut acc then [.overcurrent] else []) } }))

/-! ## Reset -/

/-- 10_state.md R27: the nine bytes, the length and the invalid flag of every slot at reset; context B selects none of
them before a load. -/
def Obligations.ResetSlotsAreBlank : Prop :=
  ∀ (q : Params) (j : Nat), j ≤ q.n →
    readSlot j (Block.reset q) = .ok ⟨0, [0, 0, 0, 0, 0, 0, 1, 0, 0]⟩ ∧ (Block.reset q).invalid j = true ∧
      ∀ m, ∃ c, engineSteps m (Block.reset q) = .ok c ∧ c.engine.cur = .idle

/-- 70_reset_and_hazards.md R189, 10_state.md R27, R28, R29, R32, R36, R37, R38, R39, R44, R45, R46: every register of both
blocks right after reset, with R24, R30, R31, R33, R34, R35, R42 and R43 of 10_state.md for those R189 repeats. Nothing
has been seen by the outside: that record is the model's own (notes/assumptions/12.md). `acc` is at ACC_RESET, which the
spec leaves OPEN (notes/assumptions/2.md). -/
def Obligations.ResetLeavesTheStatedValues : Prop :=
  State.reset.Both fun c =>
    (c.seq = .idle ∧ c.next = none ∧ c.nextRepeat = 0 ∧ c.outEnable = false ∧
        c.accessoriesReversed = c.params.accRevDefault ∧ c.acc = c.params.accReset ∧ c.io.events = []) ∧
      (c.table.maxLoaded = 0 ∧ c.table.recycleReg = none ∧ (∀ s, c.mapped s = none) ∧
        (∀ a, c.byteAt a = if a % 9 = 6 then 1 else 0) ∧
        ∀ j, c.table.bitCounts.getD j 0 = 0 ∧ c.invalid j = true) ∧
      c.engine = ⟨0, .idle, idleFrame, 0, 0⟩ ∧ c.payload = ⟨[0, 0, 0, 0, 0, 0], 2⟩ ∧
      c.lastLoad = ⟨false, 0, 0, [0, 0, 0, 0, 0, 0], 0⟩ ∧ c.ack = ⟨.off, 0, 0, 0, 0⟩ ∧
      c.svc = ⟨0, 0, 0, false, 0, 0, 0, 0, 0, 0⟩

/-- 60_exceptions.md R174, 70_reset_and_hazards.md R189: a block at which nothing is handed off, nothing persistent was
loaded and no one-shot repeats sends the idle packet at a packet completion; a reset block is such a block, a packet
completion keeps it one, and so does every move of the station but a publishing one: a step of context A at O3, P6 or P8,
or a burst that leaves a hand-off or a watermark behind (moves and bursts: notes/assumptions/5.md, 6.md). -/
def Obligations.IdleUntilTheFirstLoad : Prop :=
  (∀ q : Params, quiet (Block.reset q)) ∧
    (∀ c : Block, quiet c →
      engineStep c = .ok (afterPacket c .idle idleFrame c.engine.repeatLeft c.engine.rot none) ∧
        quiet (afterPacket c .idle idleFrame c.engine.repeatLeft c.engine.rot none)) ∧
    ∀ (s t : State) (ch : Channel), quiet (s.block ch) → step s = .next t →
      ((pickTurn s).2.focus = ch → (pickTurn s).1 = .foreground .micro → ¬publishes (s.block ch)) →
      ((pickTurn s).2.focus = ch → (pickTurn s).1 = .foreground .burst →
        (t.block ch).next = none ∧ (t.block ch).table.maxLoaded = 0) →
      quiet (t.block ch)

/-- 70_reset_and_hazards.md R191: power-on reset puts every register of the block at its reset value, whatever it was
doing, with no response; the other block is untouched (R188). What the host and the environment still hold is the
model's own record (notes/assumptions/21.md) and no part of this statement. -/
def Obligations.PowerOnResetIsTotal : Prop :=
  ∀ (s : State) (ch : Channel) (rest : List (Channel × Turn)), s.turns = (ch, .powerOnReset) :: rest →
    ∃ t, step s = .next t ∧ t.block ch.other = s.block ch.other ∧
      t.block ch = { Block.reset (s.block ch).params with io := (t.block ch).io } ∧
      (t.block ch).io.events = (s.block ch).io.events

/-! ## Payload fields -/

/-- 30_encoding.md R75. -/
def Obligations.CabAddressRoundTrip : Prop :=
  ∀ cab : Nat, cab ≤ 10239 →
    cabOf (cabBytes cab) = cab ∧
      (((cabBytes cab).length = 1 ∧ ((cabBytes cab).getD 0 0).toNat < 0x80) ∨
        ((cabBytes cab).length = 2 ∧ 0xC0 ≤ ((cabBytes cab).getD 0 0).toNat))

/-- 30_encoding.md R76 to R79: the speed byte (direction in bit 7; the low 7 bits are 1 for a negative speed, 0 for stop,
otherwise one more than the speed capped at 126), the function bytes and the accessory bytes, by their bits. -/
def Obligations.OperandByteFields : Prop :=
  (∀ (speed : Int) (dir : Nat), dir ≤ 1 →
    (speedByte speed dir).toNat / 128 = dir ∧
      (speed < 0 → (speedByte speed dir).toNat % 128 = 1) ∧ (speed = 0 → (speedByte speed dir).toNat % 128 = 0) ∧
      (0 < speed → ((speedByte speed dir).toNat % 128 : Int) = min speed 126 + 1)) ∧
    (∀ b : Byte, 0x80 ≤ (fShort b).toNat ∧ (fShort b).toNat ≤ 0xBF ∧ (fShort b).toNat % 64 = b.toNat % 64) ∧
    (∀ b : Byte, (fLong b).toNat = 0xDE + b.toNat % 2) ∧
    ∀ addr port act : Nat, addr ≤ 511 → port ≤ 3 → act ≤ 1 →
      (acc0 addr).toNat = 0x80 + addr % 64 ∧
        (acc1 addr port act).toNat = 0x80 + 16 * (7 - addr / 64) + 8 + 2 * port + act

/-- 30_encoding.md R80, R81, R82: the CV address split loses nothing, and each service packet carries it with its
selector and data byte. -/
def Obligations.ServicePacketFields : Prop :=
  ∀ cv : Word, 1 ≤ cv.toInt → cv.toInt ≤ 1024 →
    (cvHi cv).toNat < 4 ∧ (cvHi cv).toNat * 256 + (cvLo cv).toNat + 1 = cv.toNat ∧
      (∀ i, i ≤ 7 → (probeBit cv i).map BitVec.toNat = [0x78 + (cvHi cv).toNat, (cvLo cv).toNat, 0xE8 + i]) ∧
      (∀ v : Byte,
        (probeVerifyByte cv v).map BitVec.toNat = [0x74 + (cvHi cv).toNat, (cvLo cv).toNat, v.toNat] ∧
          (probeWriteByte cv v).map BitVec.toNat = [0x7C + (cvHi cv).toNat, (cvLo cv).toNat, v.toNat]) ∧
      ∀ v b, v ≤ 1 → b ≤ 7 →
        (probeWriteBit cv v b).map BitVec.toNat = [0x78 + (cvHi cv).toNat, (cvLo cv).toNat, 0xF0 + 8 * v + b] ∧
          (probeVerifyBit cv v b).map BitVec.toNat = [0x78 + (cvHi cv).toNat, (cvLo cv).toNat, 0xE0 + 8 * v + b]

/-! ## Encoder -/

/-- 40_encoder.md R98: the packing loop equals the per-byte formula. -/
def Obligations.EncoderClosedForm : Prop :=
  ∀ q : List Byte, 3 ≤ q.length → q.length ≤ 6 →
    let k := q.length - 1
    packFrame q =
      (List.range 9).map fun n =>
        (if 1 ≤ n ∧ n ≤ k + 1 then (q.getD (n - 1) 0 &&& u8 (2 ^ n - 1)) <<< (8 - n) else 0) |||
          (if n ≤ k then q.getD n 0 >>> (n + 1) else 0) ||| (if n = k + 1 then 1#8 <<< (6 - k) else 0) |||
          (if n = 6 then 1 else 0)

/-- 40_encoder.md R102: start bits, stop bit, the packet read back, the checksum law. -/
def Obligations.EncoderDecodingLaw : Prop :=
  ∀ payload : List Byte, 2 ≤ payload.length → payload.length ≤ 5 →
    let q := payload ++ [checksum payload]
    let f := encodedFrame q
    f.bits.toNat = 9 * payload.length + 10 ∧ (∀ i, i < q.length → frameBit f.buf (9 * i) = false) ∧
      frameBit f.buf (f.bits.toNat - 1) = true ∧ (∀ i, i < q.length → frameByte f.buf i = q.getD i 0) ∧
      checksum q = 0

/-- 30_encoding.md R90: past the frame only the invalid flag is written 1. -/
def Obligations.BitsPastTheFrameAreZero : Prop :=
  ∀ q : List Byte, 3 ≤ q.length → q.length ≤ 6 → ∀ p, 9 * q.length + 1 ≤ p → p < 72 →
    (frameBit (encodedFrame q).buf p = true ↔ p = 55) ∧ frameBit (publishedFrame q).buf p = false

/-- 40_encoder.md R103 to R105, 60_exceptions.md R175: the fixed frames, the corner case of all ones, and the worked
example with its checksum, its length, its bytes, its bits on the track and its flag while it is still invalid. -/
def Obligations.FixedFramesAreEncoded : Prop :=
  publishedFrame [0xFF, 0x00, 0xFF] = idleFrame ∧ publishedFrame [0x00, 0x00, 0x00] = resetFrame ∧
    publishedFrame [0xFF, 0xFF, 0xFF, 0xFF, 0xFF, 0xFF] =
      ⟨55, [0x7F, 0xBF, 0xDF, 0xEF, 0xF7, 0xFB, 0xFE, 0x00, 0x00]⟩ ∧
    checksum [0x2A, 0x3F, 0xC1] = 0xD4 ∧
    publishedFrame [0x2A, 0x3F, 0xC1, 0xD4] = ⟨37, [0x15, 0x0F, 0xD8, 0x2D, 0x48, 0x00, 0x00, 0x00, 0x00]⟩ ∧
    (encodedFrame [0x2A, 0x3F, 0xC1, 0xD4]).buf.getD 6 0 = 0x01 ∧
    ∀ q : Params, (publishedFrame [0x2A, 0x3F, 0xC1, 0xD4]).trackBits q =
      List.replicate q.preambleBits true ++
        [false, false, false, true, false, true, false, true, false, false, false, false, true, true,
        true, true, true, true, false, true, true, false, false, false, false, false, true, false, true,
        true, false, true, false, true, false, false, true]

/-- 40_encoder.md R94, R97, R101: the encoder writes the payload's checksum, the nine bytes and the length of its slot,
a function of the payload alone, and nothing else. -/
def Obligations.EncoderWritesOnlyItsSlot : Prop :=
  ∀ (j : Nat) (c : Block), j ≤ c.params.n → c.table.bitCounts.length = c.slots → c.payload.k < c.payload.p.length →
    c.payload.k ≤ 5 →
    let payload := c.payload.p.take c.payload.k
    ∃ c', encodeInto j c = .ok c' ∧ c'.slotFrame j = encodedFrame (payload ++ [checksum payload]) ∧
      (∀ a, ¬inSlot j a → c'.byteAt a = c.byteAt a) ∧
      (∀ i, i ≠ j → c'.table.bitCounts.getD i 0 = c.table.bitCounts.getD i 0) ∧
      c' =
        { c with
          payload := { c.payload with p := c.payload.p.set c.payload.k (checksum payload) }
          table := { c.table with mem := c'.table.mem, bitCounts := c'.table.bitCounts } }

/-- 20_memory.md R48: an access of one to nine bytes inside one slot reads the bytes there, and a write is read back and
leaves the other bytes alone. That any other access, which the spec does not give, stops with a fault is the model's
choice (notes/assumptions/13.md, DEDUCED). -/
def Obligations.SlotRamAccess : Prop :=
  ∀ (c : Block) (addr : Nat) (v : List Byte),
    ((1 ≤ v.length ∧ addr % 9 + v.length ≤ 9 ∧ addr + v.length ≤ 9 * (c.params.n + 1)) →
      ∃ c', memWrite addr v c = .ok c' ∧ memRead addr v.length c' = .ok v ∧
        ∀ a, (a < addr ∨ addr + v.length ≤ a) → c'.byteAt a = c.byteAt a) ∧
    (∀ n, 1 ≤ n → addr % 9 + n ≤ 9 → addr + n ≤ 9 * (c.params.n + 1) →
      memRead addr n c = .ok ((List.range n).map fun i => c.byteAt (addr + i))) ∧
    (¬(1 ≤ v.length ∧ addr % 9 + v.length ≤ 9 ∧ addr + v.length ≤ 9 * (c.params.n + 1)) →
      memWrite addr v c = .error (.noSuchAddress addr) ∧ memRead addr v.length c = .error (.noSuchAddress addr))

/-! ## The waveform engine's interrupt -/

/-- 60_exceptions.md R166, R170, R175, R177: a packet completion counts one packet, emits the latched frame, and writes
nothing but the engine's registers and `next`, the latter only to `none`. An engine move of the station is one packet
completion of its block, and so is the default move of a block whose context A has nothing to do, holds, or has just taken
a sample; the list of moves and the default move are the model's choices (notes/assumptions/5.md, 8.md). -/
def Obligations.EngineWritesOnlyItsRegisters : Prop :=
  (∀ c c' : Block, engineStep c = .ok c' →
    c' = { c with engine := c'.engine, next := c'.next, io := c'.io } ∧
      c'.engine.packetsTransmitted = c.engine.packetsTransmitted + 1 ∧ (c'.next = c.next ∨ c'.next = none) ∧
      c'.io = { c.io with events := c.io.events ++ [.emitted c'.engine.latched], sampled := false }) ∧
    (∀ (s : State) (ch : Channel) (rest : List (Channel × Turn)), s.turns = (ch, .engine) :: rest →
      completesPacket s ch rest) ∧
    ∀ (s : State) (ch : Channel), s.turns = [] → ch = s.focus.other →
      (((s.block ch).seq = .idle ∧ (s.block ch).io.cmds = []) ∨
        (∃ i pos, (s.block ch).seq = .run i pos ∧ holding (s.block ch) = true) ∨ (s.block ch).io.sampled = true) →
      completesPacket s ch []

/-- 60_exceptions.md R171, R172: while slot 0 repeats, the same frame goes out and `next` is not looked at; otherwise a
handed-off slot is copied, sent, and the hand-off cleared. -/
def Obligations.RepeatThenAdoption : Prop :=
  ∀ c : Block,
    (c.engine.cur = .slot 0 → 0 < c.engine.repeatLeft →
      engineStep c =
        .ok (afterPacket c (.slot 0) c.engine.latched (c.engine.repeatLeft - 1) c.engine.rot c.next)) ∧
    ∀ j, ¬(c.engine.cur = .slot 0 ∧ 0 < c.engine.repeatLeft) → c.next = some j → j ≤ c.params.n →
      engineStep c =
        .ok (afterPacket c (.slot j) (c.slotFrame j) (if j = 0 then c.nextRepeat else 0)
          (if j = 0 then c.engine.rot else j) none)

/-- 60_exceptions.md R171, R172: a one-shot handed off with `nextRepeat = r` is sent `1 + r` times in a row. -/
def Obligations.OneShotIsSentOnePlusRepeatTimes : Prop :=
  ∀ c : Block, ¬(c.engine.cur = .slot 0 ∧ 0 < c.engine.repeatLeft) → c.next = some 0 →
    ∃ c', engineSteps (1 + c.nextRepeat.toNat) c = .ok c' ∧
      c'.io.events = c.io.events ++ List.replicate (1 + c.nextRepeat.toNat) (.emitted (c.slotFrame 0)) ∧
      c'.engine.cur = .slot 0 ∧ c'.engine.repeatLeft = 0 ∧ c'.engine.rot = c.engine.rot ∧ c'.next = none

/-- 60_exceptions.md R173: the rotation visits every slot of 1..maxLoaded once, cyclically, ending with `rot`. -/
def Obligations.RotationVisitsInCyclicOrder : Prop :=
  ∀ c : Block,
    rotationOrder c =
      if 1 ≤ c.engine.rot ∧ c.engine.rot ≤ c.table.maxLoaded then
        List.range' (c.engine.rot + 1) (c.table.maxLoaded - c.engine.rot) ++ List.range' 1 c.engine.rot
      else List.range' 1 c.table.maxLoaded

/-- 60_exceptions.md R173: with no repeat and no hand-off pending, the first slot of that order whose invalid flag is 0
is sent and becomes `rot`. -/
def Obligations.RotationSendsTheFirstValidSlot : Prop :=
  ∀ (c : Block) (before after : List Nat) (j : Nat), ¬(c.engine.cur = .slot 0 ∧ 0 < c.engine.repeatLeft) →
    c.next = none → c.table.maxLoaded ≤ c.params.n → rotationOrder c = before ++ j :: after →
    (∀ i ∈ before, c.invalid i = true) → c.invalid j = false →
    engineStep c = .ok (afterPacket c (.slot j) (c.slotFrame j) c.engine.repeatLeft j none)

/-- 60_exceptions.md R174: the idle packet when no slot of 1..maxLoaded is valid; `rot` stays. -/
def Obligations.IdleFallback : Prop :=
  ∀ c : Block, ¬(c.engine.cur = .slot 0 ∧ 0 < c.engine.repeatLeft) → c.next = none →
    c.table.maxLoaded ≤ c.params.n → (∀ j, 1 ≤ j → j ≤ c.table.maxLoaded → c.invalid j = true) →
    engineStep c = .ok (afterPacket c .idle idleFrame c.engine.repeatLeft c.engine.rot none)

/-- 41_slot_table_loader.md R117: a hand-off is adopted at the first packet completion at which slot 0 is not being
repeated, `1 + repeatLeft` completions away at most, and not before; at most 5 with the repeat counts in use. -/
def Obligations.HandOffWaitIsBounded : Prop :=
  ∀ (c : Block) (j : Nat), c.next = some j → j ≤ c.params.n →
    let wait := if c.engine.cur = .slot 0 then c.engine.repeatLeft.toNat else 0
    (∀ m, m ≤ wait → ∃ c', engineSteps m c = .ok c' ∧ c'.next = some j ∧
      (m < wait ↔ c'.engine.cur = .slot 0 ∧ 0 < c'.engine.repeatLeft)) ∧
      (∃ c', engineSteps (wait + 1) c = .ok c' ∧ c'.next = none ∧ c'.engine.cur = .slot j) ∧
      (c.RepeatsOk → wait + 1 ≤ 5)

/-- 44_service_mode.md R148: a packet-count wait holds for exactly `n` packet completions. -/
def Obligations.PacketWaitEndsAfterExactlyN : Prop :=
  ∀ (c : Block) (op : Instr) (n m : Nat), c.seq = .run op (.wp2 n) → c.svc.waitStart = c.engine.packetsTransmitted →
    n ≤ 20 → m ≤ n → c.table.maxLoaded ≤ c.params.n → (∀ j, c.next = some j → j ≤ c.params.n) →
    ∃ c', engineSteps m c = .ok c' ∧ c'.seq = c.seq ∧ holding c' = decide (m < n)

/-! ## Command builders and read-outs -/

/-- 42_command_builders.md R126; 41_slot_table_loader.md R109, R111: THROTTLE runs to its end, in the slot that the cases
of `slotChoice` name. -/
def Obligations.ThrottleCompletes : Prop :=
  ∀ (s : State) (slot cab speed dir : Word), s.readyForBuilder → ¬outside slot 1 s.cur.params.n →
    ¬outside cab 0 10239 → ¬outside dir 0 1 →
    runsPersistent (.throttle slot cab speed dir) slot.toNat (throttlePayload cab.toNat speed.toInt dir.toNat)
      [.response (.throttle slot.toInt (if speed.toInt < 0 then 0 else min speed.toInt 126) dir.toInt), .ended .ok] s

/-- 42_command_builders.md R127, R128: FUNCTION_SHORT and FUNCTION_LONG run to their end. -/
def Obligations.FunctionsComplete : Prop :=
  ∀ (s : State) (cab fByte eByte : Word), s.readyForBuilder → ¬outside cab 0 10239 → ¬outside fByte 0 255 →
    runsOneShot (.functionShort cab fByte) (cabBytes cab.toNat ++ [(u8 fByte.toNat ||| 0x80) &&& 0xBF]) 4 s ∧
      (¬outside eByte 0 255 →
        runsOneShot (.functionLong cab fByte eByte)
          (cabBytes cab.toNat ++ [(u8 fByte.toNat ||| 0xDE) &&& 0xDF, u8 eByte.toNat]) 4 s)

/-- 42_command_builders.md R129: ACCESSORY runs to its end, `activate` inverted where the polarity is reversed. -/
def Obligations.AccessoryCompletes : Prop :=
  ∀ (s : State) (addr port activate : Word), s.readyForBuilder → ¬outside addr 0 511 → ¬outside port 0 3 →
    ¬outside activate 0 1 →
    runsOneShot (.accessory addr port activate)
      [acc0 addr.toNat,
        acc1 addr.toNat port.toNat (if s.cur.accessoriesReversed then 1 - activate.toNat else activate.toNat)] 4 s

/-- 42_command_builders.md R130, R131: WRITE_MAIN_CV_BYTE and WRITE_MAIN_CV_BIT run to their end; the bit operation
clamps `bit` and `value`, whatever they are. -/
def Obligations.MainCvWritesComplete : Prop :=
  ∀ (s : State) (cab cv bit value : Word), s.readyForBuilder → ¬outside cab 0 10239 → ¬outside cv 1 1024 →
    let b := (min (max bit.toInt 0) 7).toNat
    let v := (min (max value.toInt 0) 1).toNat
    (¬outside value 0 255 →
      runsOneShot (.writeMainCvByte cab cv value) (cabBytes cab.toNat ++ [0xEC + cvHi cv, cvLo cv, u8 value.toNat])
        4 s) ∧
      runsOneShot (.writeMainCvBit cab cv bit value)
        (cabBytes cab.toNat ++ [0xE8 + cvHi cv, cvLo cv, (0xF0 : Byte) ||| (u8 v <<< 3) ||| u8 b]) 4 s

/-- 42_command_builders.md R132: RAW_PACKET runs to its end, slot 0 as a one-shot sent once, the others persistent. -/
def Obligations.RawPacketCompletes : Prop :=
  ∀ (s : State) (slot : Word) (bytes : List Word), s.readyForBuilder → 2 ≤ bytes.length → bytes.length ≤ 5 →
    (∀ b ∈ bytes, ¬outside b 0 255) → ¬outside slot 0 s.cur.params.n →
    let i := Instr.rawPacket (BitVec.ofNat 4 (bytes.length + 1)) (slot :: bytes)
    let payload := bytes.map fun b => u8 b.toNat
    (slot = 0 → runsOneShot i payload 0 s) ∧ (slot ≠ 0 → runsPersistent i slot.toNat payload [.ended .ok] s)

/-- 60_exceptions.md R161, R164: a RAW_PACKET with a bad count, or with a bad byte whatever its slot, answers
InvalidPacket, and nothing else changes. -/
def Obligations.RawPacketRejectsBadPackets : Prop :=
  ∀ (s : State) (argc : BitVec 4) (args : List Word), s.cur.seq = .idle →
    (argc.toNat < 3 ∨ 6 < argc.toNat ∨ ∃ b ∈ args.tail, outside b 0 255) →
    exec (.rawPacket argc args) s =
      .next (s.setCur
        { s.cur with
          io := { s.cur.io with
            events := s.cur.io.events ++ [.response .invalidPacket, .ended .invalidPacket] } })

/-- 60_exceptions.md R160, R164; 44_service_mode.md R146: a command with a refused operand, or a service-mode command on
MAIN, is ignored: nothing but the label of its end. -/
def Obligations.RefusedOperandsAreIgnored : Prop :=
  ∀ (i : Instr) (s : State), s.cur.seq = .idle → refusedOperands s.cur.params i →
    exec i s =
      .next (s.setCur { s.cur with io := { s.cur.io with events := s.cur.io.events ++ [.ended .ignored] } })

/-- 42_command_builders.md R133, R134: PRINT_LAST_PACKET emits the record of the last load, or nothing before the first;
PRINT_CAPACITY reports N. Neither changes anything else. -/
def Obligations.ReadoutsComplete : Prop :=
  ∀ s : State, s.cur.seq = .idle →
    (exec .printLastPacket s =
      .next (s.setCur
        { s.cur with
          io := { s.cur.io with
            events := s.cur.io.events ++
              (if s.cur.lastLoad.valid then
                [.response (.lastPacket s.cur.lastLoad.slot (s.cur.lastLoad.bytes.take s.cur.lastLoad.len)
                  s.cur.lastLoad.rep)]
              else []) ++ [.ended .ok] } })) ∧
    exec .printCapacity s =
      .next (s.setCur
        { s.cur with
          io := { s.cur.io with
            events := s.cur.io.events ++ [.response (.capacity s.cur.params.n), .ended .ok] } })

/-- 41_slot_table_loader.md R108, R109, R110: while a hand-off is pending, a one-shot load waits before it encodes, with
nothing but its payload written. A persistent load that rewrites its slot in place waits before it touches that slot; any
other waits with the encoded frame, still invalid, in the slot it chose. Nothing else of the block has changed. -/
def Obligations.LoadsWaitForTheHandOff : Prop :=
  ∀ (s : State) (j : Nat) (cab fByte slot speed dir : Word), s.grain = .burst → s.cur.seq = .idle →
    s.cur.next = some j → s.cur.ShapeOk → s.cur.PoolOk → ¬outside cab 0 10239 →
    (¬outside fByte 0 255 →
      let i := Instr.functionShort cab fByte
      exec i s =
        .next (s.setCur
          { s.cur with
            seq := .run i (.load .o1 ⟨0, 4, false, none, 0, false⟩ .builder)
            payload := written (cabBytes cab.toNat ++ [(u8 fByte.toNat ||| 0x80) &&& 0xBF]) s.cur })) ∧
    (¬outside slot 1 s.cur.params.n → ¬outside dir 0 1 →
      let i := Instr.throttle slot cab speed dir
      let payload := throttlePayload cab.toNat speed.toInt dir.toNat
      let q := payload ++ [checksum payload]
      ∃ x r, slotChoice slot.toNat 0 s.cur x r ∧
        (x.inPlace = true →
          exec i s =
            .next (s.setCur
              { s.cur with
                seq := .run i (.load .p2 x .builder)
                payload := written payload s.cur
                table := { s.cur.table with recycleReg := r } })) ∧
        (x.inPlace = false →
          ∃ c', exec i s = .next (s.setCur c') ∧ c'.slotFrame x.cand = encodedFrame q ∧
            (∀ a, ¬inSlot x.cand a → c'.byteAt a = s.cur.byteAt a) ∧
            (∀ m, m ≠ x.cand → c'.table.bitCounts.getD m 0 = s.cur.table.bitCounts.getD m 0) ∧
            c' =
              { s.cur with
                seq := .run i (.load .p5 x .builder)
                payload := ⟨q ++ s.cur.payload.p.drop q.length, payload.length⟩
                table :=
                  { s.cur.table with
                    mem := c'.table.mem
                    bitCounts := c'.table.bitCounts
                    recycleReg := r } }))

/-! ## Service mode -/

/-- 44_service_mode.md R146, R149: each conversation starts by copying its operands and the power-on preamble: the
output is turned on and 20 packets are waited for if it was off, 3 if it was on. What the operand registers hold is the
model's choice (notes/assumptions/19.md, DESIGN CHOICE): the operands unclamped, the registers of operands that a
conversation lacks kept, and `value` starting as the byte to write or the clamped bit. -/
def Obligations.ConversationsStartWithThePreamble : Prop :=
  ∀ (s : State) (cv bit value cb cbSub : Word), s.cur.seq = .idle → s.cur.params.channel = .prog →
    ¬outside cv 1 1024 →
    let n := if s.cur.outEnable then 3 else 20
    let started := fun (i : Instr) (v : SvcRegs) =>
      exec i s =
        .next (s.setCur
          { s.cur with
            seq := .run i (.wp2 n)
            outEnable := true
            svc := { v with restoreOff := !s.cur.outEnable, waitStart := s.cur.engine.packetsTransmitted } })
    started (.readCv cv cb cbSub) { s.cur.svc with opCv := cv, opCb := cb, opCbSub := cbSub } ∧
      (¬outside value 0 255 →
        started (.writeCvByte cv value cb cbSub)
          { s.cur.svc with opCv := cv, opValue := value, opCb := cb, opCbSub := cbSub, value := u8 value.toNat }) ∧
      started (.writeCvBit cv bit value cb cbSub)
        { s.cur.svc with
          opCv := cv
          opBit := bit
          opValue := value
          opCb := cb
          opCbSub := cbSub
          value := u8 (min (max value.toInt 0) 1).toNat }

/-- 44_service_mode.md R149: the base current is the mean of ACK_BASE_COUNT samples, rounded down. The samples are those
listed in the state, each capped at CUR_MAX, which is the model's choice (notes/assumptions/3.md, DESIGN CHOICE); samples
that are free values are no part of this statement. -/
def Obligations.BaseCurrentIsTheMean : Prop :=
  ∀ (op : Instr) (cmd : Command) (c : Block) (vs rest : List Nat), 1 ≤ c.params.ackBaseCount →
    vs.length = c.params.ackBaseCount → c.io.currents = vs ++ rest → c.seq = .run op (.b2 0 0) →
    let read := vs.map fun v => min v c.params.curMax
    microSteps op cmd c.params.ackBaseCount c =
      cmd.based
        { c with
          seq := .run op (.b2 (c.params.ackBaseCount - 1) (read.take (c.params.ackBaseCount - 1)).sum)
          svc := { c.svc with base := read.sum / c.params.ackBaseCount }
          io := { c.io with currents := rest } }

/-- 43_ack_detector.md R137, R140, R143: what one sample does, with the bounds of threshold and dwell. -/
def Obligations.AckJudgement : Prop :=
  ∀ (q : Params) (a : AckRegs) (cur : Nat) (tick : Word),
    let c := cur - a.ackBase
    let pulse := (tick - a.upTick).toNat
    (a.ackState = .seekRise → q.ackSampleThreshold < c →
      judgeSample q a cur tick = { a with ackState := .seekFall, upTick := tick }) ∧
    (a.ackState = .seekRise → c ≤ q.ackSampleThreshold → judgeSample q a cur tick = a) ∧
    (a.ackState = .seekFall → q.ackSampleThreshold ≤ c → judgeSample q a cur tick = a) ∧
    (a.ackState = .seekFall → c < q.ackSampleThreshold → 1125 ≤ pulse → pulse ≤ 2125 →
      judgeSample q a cur tick = { a with ackState := .confirmed, downTick := tick }) ∧
    (a.ackState = .seekFall → c < q.ackSampleThreshold → (pulse < 1125 ∨ 2125 < pulse) →
      judgeSample q a cur tick = { a with ackState := .seekRise, downTick := tick })

/-- 43_ack_detector.md R137, R138: the ack detector, statement by statement. A leg's load hands over to AK0, which arms the
detector with the base current. AK1 goes on to a sample before nine packets since then, and from nine on it takes none and
puts the reset packet into user slot 1. AK2 takes one current and one tick. AK3 applies the judgement and goes back to AK1,
or puts the reset packet back after a confirmed pulse. AK6 arms the linger, which holds until three packets have passed.
Where the draws come from is the model's choice (notes/assumptions/3.md), and so is the step then owed to context B
(5.md). -/
def Obligations.AckWindowAndLinger : Prop :=
  ∀ (s : State) (i : Instr) (l : Leg), s.grain = .micro → isService i = true →
    (∀ x ret pos, x.print = false → s.cur.seq = .run i (.load .p9 x ret) →
      ((ret = .leg l ∧ l ≠ .burst ∧ pos = .ak0 l) ∨ (ret = .ackTimeout l ∧ pos = .ak1b l) ∨
        (ret = .ackConfirm l ∧ pos = .ak6 l)) →
      exec i s = .next (s.setCur { s.cur with seq := .run i pos, lastLoad := recorded x s.cur })) ∧
    (s.cur.seq = .run i (.ak0 l) →
      exec i s =
        .next (s.setCur
          { s.cur with
            seq := .run i (.ak1 l)
            ack :=
              { s.cur.ack with
                armedAt := s.cur.engine.packetsTransmitted
                ackBase := s.cur.svc.base
                ackState := .seekRise } })) ∧
    (s.cur.seq = .run i (.ak1 l) → (s.cur.engine.packetsTransmitted - s.cur.ack.armedAt).toNat < 9 →
      exec i s = .next (s.setCur { s.cur with seq := .run i (.ak2 l) })) ∧
    (s.cur.seq = .run i (.ak1 l) → (s.cur.ack.ackState = .seekRise ∨ s.cur.ack.ackState = .seekFall) →
      9 ≤ (s.cur.engine.packetsTransmitted - s.cur.ack.armedAt).toNat → s.cur.PoolOk →
      loadsUserSlot1 i [0, 0] (.ackTimeout l) s.cur s) ∧
    (∀ v tick io io', s.cur.seq = .run i (.ak2 l) → drawnCurrent s.cur v io →
      drawnTick s.cur.params.channel io tick io' →
      exec i s =
        .next (s.setCur { s.cur with seq := .run i (.ak3 l v tick), io := { io' with sampled := true } })) ∧
    (∀ v tick, s.cur.seq = .run i (.ak3 l v tick) →
      let a := judgeSample s.cur.params s.cur.ack v tick
      (a.ackState ≠ .confirmed → exec i s = .next (s.setCur { s.cur with seq := .run i (.ak1 l), ack := a })) ∧
        (a.ackState = .confirmed → s.cur.PoolOk →
          loadsUserSlot1 i [0, 0] (.ackConfirm l) { s.cur with ack := a } s)) ∧
    (s.cur.seq = .run i (.ak6 l) →
      exec i s =
        .next (s.setCur
          { s.cur with
            seq := .run i (.ak7 l)
            ack := { s.cur.ack with armedAt := s.cur.engine.packetsTransmitted } })) ∧
    (s.cur.seq = .run i (.ak7 l) → (s.cur.engine.packetsTransmitted - s.cur.ack.armedAt).toNat < 3 →
      exec i s = .next s) ∧
    (s.cur.seq = .run i (.ak7 l) → 3 ≤ (s.cur.engine.packetsTransmitted - s.cur.ack.armedAt).toNat →
      exec i s = .next (s.setCur { s.cur with seq := .run i (.ak8 l) }))

/-- 44_service_mode.md R149, R152: the last base sample ends the preamble and READ_CV begins its first round with `value` 0,
`bitIdx` 0 and the reset burst in slot 0. After the burst the probe of bit `bitIdx` is loaded. After the probe the verdict
is recorded as that bit; the next round begins with the reset burst, and after bit 7 the verify-byte probe of the
reconstructed value is loaded. Where a sample comes from is the model's choice (notes/assumptions/3.md). -/
def Obligations.ReadCvRecordsEachBit : Prop :=
  ∀ (s : State) (cv cb cbSub : Word), s.grain = .micro → s.cur.PoolOk →
    let i := Instr.readCv cv cb cbSub
    let a := cvHi s.cur.svc.opCv
    let lo := cvLo s.cur.svc.opCv
    let burstBegins := fun c : Block =>
      exec i s =
        .next (s.setCur
          { c with
            seq := .run i (.load .o1 ⟨0, 3, false, none, 0, false⟩ (.leg .burst))
            payload := written [0, 0] c })
    (∀ taken sum v io, s.cur.seq = .run i (.b2 taken sum) → s.cur.params.ackBaseCount ≤ taken + 1 →
      drawnCurrent s.cur v io →
      burstBegins
        { s.cur with
          svc := { s.cur.svc with base := (sum + v) / s.cur.params.ackBaseCount, value := 0, bitIdx := 0 }
          io := io }) ∧
    (∀ x, x.print = false → s.cur.seq = .run i (.load .o4 x (.leg .burst)) →
      loadsUserSlot1 i [0x78 + a, lo, 0xE8 + u8 s.cur.svc.bitIdx] (.leg .probe)
        { s.cur with lastLoad := recorded x s.cur } s) ∧
    ∀ ok : Bool, s.cur.svc.bitIdx ≤ 7 → s.cur.seq = .run i (if ok then .ak8 .probe else .ak1b .probe) →
      let v := if ok then s.cur.svc.value ||| (1#8 <<< s.cur.svc.bitIdx) else s.cur.svc.value
      let c : Block :=
        { s.cur with
          svc := { s.cur.svc with value := v, bitIdx := s.cur.svc.bitIdx + 1 }
          ack := { s.cur.ack with ackState := if ok then .done else .off } }
      (s.cur.svc.bitIdx < 7 → burstBegins c) ∧
        (s.cur.svc.bitIdx = 7 → loadsUserSlot1 i [0x74 + a, lo, v] (.leg .verify) c s)

/-- 44_service_mode.md R150 to R152: READ_CV runs to its end with the verdict on its verify-byte probe: the value, or -1,
the output restored, one response. -/
def Obligations.ReadCvCompletes : Prop :=
  ∀ (s : State) (cv cb cbSub : Word),
    let answer := fun v : Int =>
      Response.cv s.cur.svc.opCb.toInt s.cur.svc.opCbSub.toInt s.cur.svc.opCv.toInt v
    (s.cur.seq = .run (.readCv cv cb cbSub) (.ak8 .verify) →
      exec (.readCv cv cb cbSub) s =
        .next (s.setCur (finished s.cur .done (answer s.cur.svc.value.toNat) .ok))) ∧
    (s.cur.seq = .run (.readCv cv cb cbSub) (.ak1b .verify) →
      exec (.readCv cv cb cbSub) s = .next (s.setCur (finished s.cur .off (answer (-1)) .ackFail)))

/-- 44_service_mode.md R149, R150, R151, R153: the last base sample ends the preamble and WRITE_CV_BYTE loads its
write-byte packet. It runs to its end: an ack on the write or on the verify-byte fallback reports the value, no ack on
either reports -1; a missing write ack loads the fallback. Where a sample comes from is the model's choice
(notes/assumptions/3.md). -/
def Obligations.WriteCvByteCompletes : Prop :=
  ∀ (s : State) (cv value cb cbSub : Word),
    let i := Instr.writeCvByte cv value cb cbSub
    let answer := fun v : Int =>
      Response.cv s.cur.svc.opCb.toInt s.cur.svc.opCbSub.toInt s.cur.svc.opCv.toInt v
    ((s.cur.seq = .run i (.ak8 .write) ∨ s.cur.seq = .run i (.ak8 .fallback)) →
      exec i s = .next (s.setCur (finished s.cur .done (answer s.cur.svc.value.toNat) .ok))) ∧
    (s.cur.seq = .run i (.ak1b .fallback) →
      exec i s = .next (s.setCur (finished s.cur .off (answer (-1)) .ackFail))) ∧
    (s.cur.seq = .run i (.ak1b .write) → s.grain = .micro → s.cur.PoolOk →
      loadsUserSlot1 i [0x74 + cvHi s.cur.svc.opCv, cvLo s.cur.svc.opCv, s.cur.svc.value] (.leg .fallback)
        { s.cur with ack := { s.cur.ack with ackState := .off } } s) ∧
    ∀ taken sum v io, s.cur.seq = .run i (.b2 taken sum) → s.cur.params.ackBaseCount ≤ taken + 1 →
      drawnCurrent s.cur v io → s.grain = .micro → s.cur.PoolOk →
      loadsUserSlot1 i [0x7C + cvHi s.cur.svc.opCv, cvLo s.cur.svc.opCv, s.cur.svc.value] (.leg .write)
        { s.cur with svc := { s.cur.svc with base := (sum + v) / s.cur.params.ackBaseCount }, io := io } s

/-- 44_service_mode.md R149, R150, R151, R154: the last base sample ends the preamble and WRITE_CV_BIT loads its write-bit
packet, bit number and value clamped. It runs to its end with the clamped bit number and value, or -1; a missing write ack
loads the verify-bit fallback, bit 4 of byte 2 cleared. Where a sample comes from is the model's choice
(notes/assumptions/3.md). -/
def Obligations.WriteCvBitCompletes : Prop :=
  ∀ (s : State) (cv bit value cb cbSub : Word),
    let i := Instr.writeCvBit cv bit value cb cbSub
    let b := min (max s.cur.svc.opBit.toInt 0) 7
    let v := min (max s.cur.svc.opValue.toInt 0) 1
    let answer := fun r : Int =>
      Response.cvBit s.cur.svc.opCb.toInt s.cur.svc.opCbSub.toInt s.cur.svc.opCv.toInt b r
    ((s.cur.seq = .run i (.ak8 .write) ∨ s.cur.seq = .run i (.ak8 .fallback)) →
      exec i s = .next (s.setCur (finished s.cur .done (answer v) .ok))) ∧
    (s.cur.seq = .run i (.ak1b .fallback) →
      exec i s = .next (s.setCur (finished s.cur .off (answer (-1)) .ackFail))) ∧
    (s.cur.seq = .run i (.ak1b .write) → s.grain = .micro → s.cur.PoolOk →
      loadsUserSlot1 i
        [0x78 + cvHi s.cur.svc.opCv, cvLo s.cur.svc.opCv, (0xE0 : Byte) ||| (u8 v.toNat <<< 3) ||| u8 b.toNat]
        (.leg .fallback) { s.cur with ack := { s.cur.ack with ackState := .off } } s) ∧
    ∀ taken sum w io, s.cur.seq = .run i (.b2 taken sum) → s.cur.params.ackBaseCount ≤ taken + 1 →
      drawnCurrent s.cur w io → s.grain = .micro → s.cur.PoolOk →
      loadsUserSlot1 i
        [0x78 + cvHi s.cur.svc.opCv, cvLo s.cur.svc.opCv, (0xF0 : Byte) ||| (u8 v.toNat <<< 3) ||| u8 b.toNat]
        (.leg .write)
        { s.cur with svc := { s.cur.svc with base := (sum + w) / s.cur.params.ackBaseCount }, io := io } s

/-! ## Frames -/

/-- 10_state.md R33 to R37, R42, R46, R47: whatever a command does, at any position and with any grain, the other block
and everything that is not the foreground's to write stay as they are. -/
def Obligations.CommandsLeaveTheRestAlone : Prop :=
  ∀ (i : Instr) (s t : State), exec i s = .next t →
    t.focus = s.focus ∧ t.grain = s.grain ∧ t.turns = s.turns ∧ t.block s.focus.other = s.block s.focus.other ∧
      t.cur.params = s.cur.params ∧ t.cur.engine = s.cur.engine ∧
      t.cur.accessoriesReversed = s.cur.accessoriesReversed ∧ t.cur.acc = s.cur.acc ∧
      t.cur.io.cmds = s.cur.io.cmds

/-- 42_command_builders.md R124: a builder or a read-out, at any position of its own, leaves the service-mode registers,
the ack detector, the output enable and the environment's draws alone. -/
def Obligations.BuildersLeaveServiceModeAlone : Prop :=
  ∀ (i : Instr) (s t : State), isService i = false → s.cur.PositionOk → exec i s = .next t →
    t.cur.ack = s.cur.ack ∧ t.cur.svc = s.cur.svc ∧ t.cur.outEnable = s.cur.outEnable ∧
      t.cur.io.currents = s.cur.io.currents ∧ t.cur.io.ticks = s.cur.io.ticks ∧ t.cur.io.draws = s.cur.io.draws

/-- 20_memory.md R55, R66: one step of context A stores only to the bytes that the statement it stands at names: the
slot the encoder is given, or the byte of an invalid flag; every other byte and length field reads as before. -/
def Obligations.MicroStepStoresOnlyWhereItsStatementSays : Prop :=
  ∀ (i : Instr) (s t : State), s.grain = .micro → exec i s = .next t →
    (∀ a, ¬storesTo s.cur a → t.cur.byteAt a = s.cur.byteAt a) ∧
      ∀ j, ¬writesLengthOf s.cur j → t.cur.table.bitCounts.getD j 0 = s.cur.table.bitCounts.getD j 0

/-- 20_memory.md R58: a burst is a run of single steps of context A, so every state it passes through is one at which
context B could have stepped. Where a burst pauses is the model's choice (notes/assumptions/6.md). -/
def Obligations.BurstIsARunOfMicroSteps : Prop :=
  ∀ (op : Instr) (cmd : Command) (c c' : Block), foreground op cmd .burst c = .ok c' →
    ∃ m, 1 ≤ m ∧ m ≤ burstLength c ∧ microSteps op cmd m c = .ok c' ∧
      ∀ k, 1 ≤ k → k < m → ∃ d, microSteps op cmd k c = .ok d ∧ paused d = false

/-- 00_scope.md R4, 60_exceptions.md R186: a move of a block depends on that block alone and changes that block alone. -/
def Obligations.BlocksShareNoState : Prop :=
  ∀ (s s' : State) (ch : Channel) (t : Turn) (rest rest' : List (Channel × Turn)), s.turns = (ch, t) :: rest →
    s'.turns = (ch, t) :: rest' → s.block ch = s'.block ch →
    (∃ u u', step s = .next u ∧ step s' = .next u' ∧ u.block ch = u'.block ch ∧
      u.block ch.other = s.block ch.other ∧ u'.block ch.other = s'.block ch.other) ∨
    ∃ f, step s = .fault f ∧ step s' = .fault f

/-! ## Invariants -/

/-- 70_reset_and_hazards.md R188, R189: a reset station is sound. -/
def Obligations.ResetIsSound : Prop :=
  State.reset.ChannelsOk ∧ State.reset.Both Block.Sound ∧ State.reset.Both Block.RepeatsOk ∧
    State.reset.Both Block.CurrentsOk

/-- 20_memory.md R48: every step keeps the slot RAM of both blocks in its canonical form and inside its bounds. -/
def Obligations.StepKeepsMemory : Prop :=
  ∀ s t : State, s.Both Block.MemoryOk → step s = .next t → t.Both Block.MemoryOk

/-- 10_state.md R32, R44, R45: every step keeps the repeat counts at most 4, and the measured currents readings of the
probe. -/
def Obligations.StepKeepsRegisterRanges : Prop :=
  ∀ s t : State, s.Both Block.RepeatsOk → s.Both Block.CurrentsOk → s.main.params.wf = true → s.prog.params.wf = true →
    step s = .next t → t.Both Block.RepeatsOk ∧ t.Both Block.CurrentsOk

/-- 41_slot_table_loader.md R118, R119: every step keeps the partition of the pool, at every position of a load. -/
def Obligations.StepKeepsPool : Prop :=
  ∀ s t : State, s.Both Block.PoolOk → step s = .next t → t.Both Block.PoolOk

/-- 41_slot_table_loader.md R120, R121: every step keeps `next` on a valid slot, mapped slots valid and the recycled slot
invalid, with the exceptions inside a load. -/
def Obligations.StepKeepsFlags : Prop :=
  ∀ s t : State, s.Both (fun c => c.ShapeOk ∧ c.PoolOk ∧ c.FlagsOk) → step s = .next t →
    t.Both (fun c => c.ShapeOk ∧ c.PoolOk ∧ c.FlagsOk)

/-- 60_exceptions.md R165; 41_slot_table_loader.md R121; 70_reset_and_hazards.md R193: a sound station never stops and
stays sound, each block at its own channel: no fault is reached, and every frame ever sent is the complete result of one encoder call or the idle
packet. -/
def Obligations.SoundStationStepsSafely : Prop :=
  ∀ s : State, s.ChannelsOk → s.Both Block.Sound → s.StepsSafely

/-- 41_slot_table_loader.md R116: on a sound block, no command overwrites a hand-off that is not adopted yet. -/
def Obligations.HandOffIsNeverOverwritten : Prop :=
  ∀ (i : Instr) (s t : State) (j : Nat), s.cur.Sound → s.cur.next = some j → exec i s = .next t →
    t.cur.next = some j

/-- 41_slot_table_loader.md R118: `maxLoaded` never decreases, but for a power-on reset. -/
def Obligations.MaxLoadedNeverDecreases : Prop :=
  ∀ (s t : State) (ch : Channel), (pickTurn s).1 ≠ .powerOnReset → step s = .next t →
    (s.block ch).table.maxLoaded ≤ (t.block ch).table.maxLoaded
end

