-- ==== Sys2Proof/Laws/State.lean ====
section
/-! SUPPORT. What each named update does to each field of a block, and the two accessors of a state's blocks: true by
definition, tagged for simp, so that no later proof unfolds a record update. -/

namespace Sys2Proof.Machine

/-! ### `goto` -/

@[simp] theorem goto_params (c : Block) (op : Instr) (pos : Pos) : (c.goto op pos).params = c.params := rfl
@[simp] theorem goto_seq (c : Block) (op : Instr) (pos : Pos) : (c.goto op pos).seq = .run op pos := rfl
@[simp] theorem goto_table (c : Block) (op : Instr) (pos : Pos) : (c.goto op pos).table = c.table := rfl
@[simp] theorem goto_next (c : Block) (op : Instr) (pos : Pos) : (c.goto op pos).next = c.next := rfl
@[simp] theorem goto_nextRepeat (c : Block) (op : Instr) (pos : Pos) : (c.goto op pos).nextRepeat = c.nextRepeat := rfl
@[simp] theorem goto_engine (c : Block) (op : Instr) (pos : Pos) : (c.goto op pos).engine = c.engine := rfl
@[simp] theorem goto_payload (c : Block) (op : Instr) (pos : Pos) : (c.goto op pos).payload = c.payload := rfl
@[simp] theorem goto_lastLoad (c : Block) (op : Instr) (pos : Pos) : (c.goto op pos).lastLoad = c.lastLoad := rfl
@[simp] theorem goto_accessoriesReversed (c : Block) (op : Instr) (pos : Pos) : (c.goto op pos).accessoriesReversed = c.accessoriesReversed := rfl
@[simp] theorem goto_outEnable (c : Block) (op : Instr) (pos : Pos) : (c.goto op pos).outEnable = c.outEnable := rfl
@[simp] theorem goto_ack (c : Block) (op : Instr) (pos : Pos) : (c.goto op pos).ack = c.ack := rfl
@[simp] theorem goto_svc (c : Block) (op : Instr) (pos : Pos) : (c.goto op pos).svc = c.svc := rfl
@[simp] theorem goto_acc (c : Block) (op : Instr) (pos : Pos) : (c.goto op pos).acc = c.acc := rfl
@[simp] theorem goto_io (c : Block) (op : Instr) (pos : Pos) : (c.goto op pos).io = c.io := rfl

/-! ### `log` -/

@[simp] theorem log_params (c : Block) (e : Event) : (c.log e).params = c.params := rfl
@[simp] theorem log_seq (c : Block) (e : Event) : (c.log e).seq = c.seq := rfl
@[simp] theorem log_table (c : Block) (e : Event) : (c.log e).table = c.table := rfl
@[simp] theorem log_next (c : Block) (e : Event) : (c.log e).next = c.next := rfl
@[simp] theorem log_nextRepeat (c : Block) (e : Event) : (c.log e).nextRepeat = c.nextRepeat := rfl
@[simp] theorem log_engine (c : Block) (e : Event) : (c.log e).engine = c.engine := rfl
@[simp] theorem log_payload (c : Block) (e : Event) : (c.log e).payload = c.payload := rfl
@[simp] theorem log_lastLoad (c : Block) (e : Event) : (c.log e).lastLoad = c.lastLoad := rfl
@[simp] theorem log_accessoriesReversed (c : Block) (e : Event) : (c.log e).accessoriesReversed = c.accessoriesReversed := rfl
@[simp] theorem log_outEnable (c : Block) (e : Event) : (c.log e).outEnable = c.outEnable := rfl
@[simp] theorem log_ack (c : Block) (e : Event) : (c.log e).ack = c.ack := rfl
@[simp] theorem log_svc (c : Block) (e : Event) : (c.log e).svc = c.svc := rfl
@[simp] theorem log_acc (c : Block) (e : Event) : (c.log e).acc = c.acc := rfl
@[simp] theorem log_io (c : Block) (e : Event) : (c.log e).io = { c.io with events := c.io.events ++ [e] } := rfl

/-! ### `emit` -/

@[simp] theorem emit_params (c : Block) (r : Response) : (c.emit r).params = c.params := rfl
@[simp] theorem emit_seq (c : Block) (r : Response) : (c.emit r).seq = c.seq := rfl
@[simp] theorem emit_table (c : Block) (r : Response) : (c.emit r).table = c.table := rfl
@[simp] theorem emit_next (c : Block) (r : Response) : (c.emit r).next = c.next := rfl
@[simp] theorem emit_nextRepeat (c : Block) (r : Response) : (c.emit r).nextRepeat = c.nextRepeat := rfl
@[simp] theorem emit_engine (c : Block) (r : Response) : (c.emit r).engine = c.engine := rfl
@[simp] theorem emit_payload (c : Block) (r : Response) : (c.emit r).payload = c.payload := rfl
@[simp] theorem emit_lastLoad (c : Block) (r : Response) : (c.emit r).lastLoad = c.lastLoad := rfl
@[simp] theorem emit_accessoriesReversed (c : Block) (r : Response) : (c.emit r).accessoriesReversed = c.accessoriesReversed := rfl
@[simp] theorem emit_outEnable (c : Block) (r : Response) : (c.emit r).outEnable = c.outEnable := rfl
@[simp] theorem emit_ack (c : Block) (r : Response) : (c.emit r).ack = c.ack := rfl
@[simp] theorem emit_svc (c : Block) (r : Response) : (c.emit r).svc = c.svc := rfl
@[simp] theorem emit_acc (c : Block) (r : Response) : (c.emit r).acc = c.acc := rfl
@[simp] theorem emit_io (c : Block) (r : Response) : (c.emit r).io = { c.io with events := c.io.events ++ [.response r] } := rfl

/-! ### `endCommand` -/

@[simp] theorem endCommand_params (c : Block) (l : EndLabel) : (c.endCommand l).params = c.params := rfl
@[simp] theorem endCommand_seq (c : Block) (l : EndLabel) : (c.endCommand l).seq = .idle := rfl
@[simp] theorem endCommand_table (c : Block) (l : EndLabel) : (c.endCommand l).table = c.table := rfl
@[simp] theorem endCommand_next (c : Block) (l : EndLabel) : (c.endCommand l).next = c.next := rfl
@[simp] theorem endCommand_nextRepeat (c : Block) (l : EndLabel) : (c.endCommand l).nextRepeat = c.nextRepeat := rfl
@[simp] theorem endCommand_engine (c : Block) (l : EndLabel) : (c.endCommand l).engine = c.engine := rfl
@[simp] theorem endCommand_payload (c : Block) (l : EndLabel) : (c.endCommand l).payload = c.payload := rfl
@[simp] theorem endCommand_lastLoad (c : Block) (l : EndLabel) : (c.endCommand l).lastLoad = c.lastLoad := rfl
@[simp] theorem endCommand_accessoriesReversed (c : Block) (l : EndLabel) : (c.endCommand l).accessoriesReversed = c.accessoriesReversed := rfl
@[simp] theorem endCommand_outEnable (c : Block) (l : EndLabel) : (c.endCommand l).outEnable = c.outEnable := rfl
@[simp] theorem endCommand_ack (c : Block) (l : EndLabel) : (c.endCommand l).ack = c.ack := rfl
@[simp] theorem endCommand_svc (c : Block) (l : EndLabel) : (c.endCommand l).svc = c.svc := rfl
@[simp] theorem endCommand_acc (c : Block) (l : EndLabel) : (c.endCommand l).acc = c.acc := rfl
@[simp] theorem endCommand_io (c : Block) (l : EndLabel) : (c.endCommand l).io = { c.io with events := c.io.events ++ [.ended l] } := rfl

/-! ### `withMem` -/

@[simp] theorem withMem_params (c : Block) (m : Memory) : (c.withMem m).params = c.params := rfl
@[simp] theorem withMem_seq (c : Block) (m : Memory) : (c.withMem m).seq = c.seq := rfl
@[simp] theorem withMem_table (c : Block) (m : Memory) : (c.withMem m).table = { c.table with mem := m } := rfl
@[simp] theorem withMem_next (c : Block) (m : Memory) : (c.withMem m).next = c.next := rfl
@[simp] theorem withMem_nextRepeat (c : Block) (m : Memory) : (c.withMem m).nextRepeat = c.nextRepeat := rfl
@[simp] theorem withMem_engine (c : Block) (m : Memory) : (c.withMem m).engine = c.engine := rfl
@[simp] theorem withMem_payload (c : Block) (m : Memory) : (c.withMem m).payload = c.payload := rfl
@[simp] theorem withMem_lastLoad (c : Block) (m : Memory) : (c.withMem m).lastLoad = c.lastLoad := rfl
@[simp] theorem withMem_accessoriesReversed (c : Block) (m : Memory) : (c.withMem m).accessoriesReversed = c.accessoriesReversed := rfl
@[simp] theorem withMem_outEnable (c : Block) (m : Memory) : (c.withMem m).outEnable = c.outEnable := rfl
@[simp] theorem withMem_ack (c : Block) (m : Memory) : (c.withMem m).ack = c.ack := rfl
@[simp] theorem withMem_svc (c : Block) (m : Memory) : (c.withMem m).svc = c.svc := rfl
@[simp] theorem withMem_acc (c : Block) (m : Memory) : (c.withMem m).acc = c.acc := rfl
@[simp] theorem withMem_io (c : Block) (m : Memory) : (c.withMem m).io = c.io := rfl

/-! ### `withBitCount` -/

@[simp] theorem withBitCount_params (c : Block) (j : Nat) (v : BitVec 6) : (c.withBitCount j v).params = c.params := rfl
@[simp] theorem withBitCount_seq (c : Block) (j : Nat) (v : BitVec 6) : (c.withBitCount j v).seq = c.seq := rfl
@[simp] theorem withBitCount_table (c : Block) (j : Nat) (v : BitVec 6) : (c.withBitCount j v).table = { c.table with bitCounts := c.table.bitCounts.set j v } := rfl
@[simp] theorem withBitCount_next (c : Block) (j : Nat) (v : BitVec 6) : (c.withBitCount j v).next = c.next := rfl
@[simp] theorem withBitCount_nextRepeat (c : Block) (j : Nat) (v : BitVec 6) : (c.withBitCount j v).nextRepeat = c.nextRepeat := rfl
@[simp] theorem withBitCount_engine (c : Block) (j : Nat) (v : BitVec 6) : (c.withBitCount j v).engine = c.engine := rfl
@[simp] theorem withBitCount_payload (c : Block) (j : Nat) (v : BitVec 6) : (c.withBitCount j v).payload = c.payload := rfl
@[simp] theorem withBitCount_lastLoad (c : Block) (j : Nat) (v : BitVec 6) : (c.withBitCount j v).lastLoad = c.lastLoad := rfl
@[simp] theorem withBitCount_accessoriesReversed (c : Block) (j : Nat) (v : BitVec 6) : (c.withBitCount j v).accessoriesReversed = c.accessoriesReversed := rfl
@[simp] theorem withBitCount_outEnable (c : Block) (j : Nat) (v : BitVec 6) : (c.withBitCount j v).outEnable = c.outEnable := rfl
@[simp] theorem withBitCount_ack (c : Block) (j : Nat) (v : BitVec 6) : (c.withBitCount j v).ack = c.ack := rfl
@[simp] theorem withBitCount_svc (c : Block) (j : Nat) (v : BitVec 6) : (c.withBitCount j v).svc = c.svc := rfl
@[simp] theorem withBitCount_acc (c : Block) (j : Nat) (v : BitVec 6) : (c.withBitCount j v).acc = c.acc := rfl
@[simp] theorem withBitCount_io (c : Block) (j : Nat) (v : BitVec 6) : (c.withBitCount j v).io = c.io := rfl

/-! ### `withMapped` -/

@[simp] theorem withMapped_params (c : Block) (s j : Nat) : (c.withMapped s j).params = c.params := rfl
@[simp] theorem withMapped_seq (c : Block) (s j : Nat) : (c.withMapped s j).seq = c.seq := rfl
@[simp] theorem withMapped_table (c : Block) (s j : Nat) : (c.withMapped s j).table = { c.table with map := c.table.map.set (s - 1) (some j) } := rfl
@[simp] theorem withMapped_next (c : Block) (s j : Nat) : (c.withMapped s j).next = c.next := rfl
@[simp] theorem withMapped_nextRepeat (c : Block) (s j : Nat) : (c.withMapped s j).nextRepeat = c.nextRepeat := rfl
@[simp] theorem withMapped_engine (c : Block) (s j : Nat) : (c.withMapped s j).engine = c.engine := rfl
@[simp] theorem withMapped_payload (c : Block) (s j : Nat) : (c.withMapped s j).payload = c.payload := rfl
@[simp] theorem withMapped_lastLoad (c : Block) (s j : Nat) : (c.withMapped s j).lastLoad = c.lastLoad := rfl
@[simp] theorem withMapped_accessoriesReversed (c : Block) (s j : Nat) : (c.withMapped s j).accessoriesReversed = c.accessoriesReversed := rfl
@[simp] theorem withMapped_outEnable (c : Block) (s j : Nat) : (c.withMapped s j).outEnable = c.outEnable := rfl
@[simp] theorem withMapped_ack (c : Block) (s j : Nat) : (c.withMapped s j).ack = c.ack := rfl
@[simp] theorem withMapped_svc (c : Block) (s j : Nat) : (c.withMapped s j).svc = c.svc := rfl
@[simp] theorem withMapped_acc (c : Block) (s j : Nat) : (c.withMapped s j).acc = c.acc := rfl
@[simp] theorem withMapped_io (c : Block) (s j : Nat) : (c.withMapped s j).io = c.io := rfl

/-! ### `withRecycle` -/

@[simp] theorem withRecycle_params (c : Block) (r : Option Nat) : (c.withRecycle r).params = c.params := rfl
@[simp] theorem withRecycle_seq (c : Block) (r : Option Nat) : (c.withRecycle r).seq = c.seq := rfl
@[simp] theorem withRecycle_table (c : Block) (r : Option Nat) : (c.withRecycle r).table = { c.table with recycleReg := r } := rfl
@[simp] theorem withRecycle_next (c : Block) (r : Option Nat) : (c.withRecycle r).next = c.next := rfl
@[simp] theorem withRecycle_nextRepeat (c : Block) (r : Option Nat) : (c.withRecycle r).nextRepeat = c.nextRepeat := rfl
@[simp] theorem withRecycle_engine (c : Block) (r : Option Nat) : (c.withRecycle r).engine = c.engine := rfl
@[simp] theorem withRecycle_payload (c : Block) (r : Option Nat) : (c.withRecycle r).payload = c.payload := rfl
@[simp] theorem withRecycle_lastLoad (c : Block) (r : Option Nat) : (c.withRecycle r).lastLoad = c.lastLoad := rfl
@[simp] theorem withRecycle_accessoriesReversed (c : Block) (r : Option Nat) : (c.withRecycle r).accessoriesReversed = c.accessoriesReversed := rfl
@[simp] theorem withRecycle_outEnable (c : Block) (r : Option Nat) : (c.withRecycle r).outEnable = c.outEnable := rfl
@[simp] theorem withRecycle_ack (c : Block) (r : Option Nat) : (c.withRecycle r).ack = c.ack := rfl
@[simp] theorem withRecycle_svc (c : Block) (r : Option Nat) : (c.withRecycle r).svc = c.svc := rfl
@[simp] theorem withRecycle_acc (c : Block) (r : Option Nat) : (c.withRecycle r).acc = c.acc := rfl
@[simp] theorem withRecycle_io (c : Block) (r : Option Nat) : (c.withRecycle r).io = c.io := rfl

/-! ### `withPayload` -/

@[simp] theorem withPayload_params (c : Block) (bytes : List Byte) : (c.withPayload bytes).params = c.params := rfl
@[simp] theorem withPayload_seq (c : Block) (bytes : List Byte) : (c.withPayload bytes).seq = c.seq := rfl
@[simp] theorem withPayload_table (c : Block) (bytes : List Byte) : (c.withPayload bytes).table = c.table := rfl
@[simp] theorem withPayload_next (c : Block) (bytes : List Byte) : (c.withPayload bytes).next = c.next := rfl
@[simp] theorem withPayload_nextRepeat (c : Block) (bytes : List Byte) : (c.withPayload bytes).nextRepeat = c.nextRepeat := rfl
@[simp] theorem withPayload_engine (c : Block) (bytes : List Byte) : (c.withPayload bytes).engine = c.engine := rfl
@[simp] theorem withPayload_payload (c : Block) (bytes : List Byte) : (c.withPayload bytes).payload = { p := bytes ++ c.payload.p.drop bytes.length, k := bytes.length } := rfl
@[simp] theorem withPayload_lastLoad (c : Block) (bytes : List Byte) : (c.withPayload bytes).lastLoad = c.lastLoad := rfl
@[simp] theorem withPayload_accessoriesReversed (c : Block) (bytes : List Byte) : (c.withPayload bytes).accessoriesReversed = c.accessoriesReversed := rfl
@[simp] theorem withPayload_outEnable (c : Block) (bytes : List Byte) : (c.withPayload bytes).outEnable = c.outEnable := rfl
@[simp] theorem withPayload_ack (c : Block) (bytes : List Byte) : (c.withPayload bytes).ack = c.ack := rfl
@[simp] theorem withPayload_svc (c : Block) (bytes : List Byte) : (c.withPayload bytes).svc = c.svc := rfl
@[simp] theorem withPayload_acc (c : Block) (bytes : List Byte) : (c.withPayload bytes).acc = c.acc := rfl
@[simp] theorem withPayload_io (c : Block) (bytes : List Byte) : (c.withPayload bytes).io = c.io := rfl

/-! ### `withCmds` -/

@[simp] theorem withCmds_params (c : Block) (ws : List CommandWord) : (c.withCmds ws).params = c.params := rfl
@[simp] theorem withCmds_seq (c : Block) (ws : List CommandWord) : (c.withCmds ws).seq = c.seq := rfl
@[simp] theorem withCmds_table (c : Block) (ws : List CommandWord) : (c.withCmds ws).table = c.table := rfl
@[simp] theorem withCmds_next (c : Block) (ws : List CommandWord) : (c.withCmds ws).next = c.next := rfl
@[simp] theorem withCmds_nextRepeat (c : Block) (ws : List CommandWord) : (c.withCmds ws).nextRepeat = c.nextRepeat := rfl
@[simp] theorem withCmds_engine (c : Block) (ws : List CommandWord) : (c.withCmds ws).engine = c.engine := rfl
@[simp] theorem withCmds_payload (c : Block) (ws : List CommandWord) : (c.withCmds ws).payload = c.payload := rfl
@[simp] theorem withCmds_lastLoad (c : Block) (ws : List CommandWord) : (c.withCmds ws).lastLoad = c.lastLoad := rfl
@[simp] theorem withCmds_accessoriesReversed (c : Block) (ws : List CommandWord) : (c.withCmds ws).accessoriesReversed = c.accessoriesReversed := rfl
@[simp] theorem withCmds_outEnable (c : Block) (ws : List CommandWord) : (c.withCmds ws).outEnable = c.outEnable := rfl
@[simp] theorem withCmds_ack (c : Block) (ws : List CommandWord) : (c.withCmds ws).ack = c.ack := rfl
@[simp] theorem withCmds_svc (c : Block) (ws : List CommandWord) : (c.withCmds ws).svc = c.svc := rfl
@[simp] theorem withCmds_acc (c : Block) (ws : List CommandWord) : (c.withCmds ws).acc = c.acc := rfl
@[simp] theorem withCmds_io (c : Block) (ws : List CommandWord) : (c.withCmds ws).io = { c.io with cmds := ws } := rfl

/-! ### `withAckState` -/

@[simp] theorem withAckState_params (c : Block) (st : AckState) : (c.withAckState st).params = c.params := rfl
@[simp] theorem withAckState_seq (c : Block) (st : AckState) : (c.withAckState st).seq = c.seq := rfl
@[simp] theorem withAckState_table (c : Block) (st : AckState) : (c.withAckState st).table = c.table := rfl
@[simp] theorem withAckState_next (c : Block) (st : AckState) : (c.withAckState st).next = c.next := rfl
@[simp] theorem withAckState_nextRepeat (c : Block) (st : AckState) : (c.withAckState st).nextRepeat = c.nextRepeat := rfl
@[simp] theorem withAckState_engine (c : Block) (st : AckState) : (c.withAckState st).engine = c.engine := rfl
@[simp] theorem withAckState_payload (c : Block) (st : AckState) : (c.withAckState st).payload = c.payload := rfl
@[simp] theorem withAckState_lastLoad (c : Block) (st : AckState) : (c.withAckState st).lastLoad = c.lastLoad := rfl
@[simp] theorem withAckState_accessoriesReversed (c : Block) (st : AckState) : (c.withAckState st).accessoriesReversed = c.accessoriesReversed := rfl
@[simp] theorem withAckState_outEnable (c : Block) (st : AckState) : (c.withAckState st).outEnable = c.outEnable := rfl
@[simp] theorem withAckState_ack (c : Block) (st : AckState) : (c.withAckState st).ack = { c.ack with ackState := st } := rfl
@[simp] theorem withAckState_svc (c : Block) (st : AckState) : (c.withAckState st).svc = c.svc := rfl
@[simp] theorem withAckState_acc (c : Block) (st : AckState) : (c.withAckState st).acc = c.acc := rfl
@[simp] theorem withAckState_io (c : Block) (st : AckState) : (c.withAckState st).io = c.io := rfl

/-! ### Blocks of a state -/

@[simp] theorem block_main (s : State) : s.block .main = s.main := rfl

@[simp] theorem block_prog (s : State) : s.block .prog = s.prog := rfl

@[simp] theorem setBlock_focus (s : State) (ch : Channel) (c : Block) : (s.setBlock ch c).focus = s.focus := by
  cases ch <;> rfl

@[simp] theorem setBlock_grain (s : State) (ch : Channel) (c : Block) : (s.setBlock ch c).grain = s.grain := by
  cases ch <;> rfl

@[simp] theorem setBlock_turns (s : State) (ch : Channel) (c : Block) : (s.setBlock ch c).turns = s.turns := by
  cases ch <;> rfl

@[simp] theorem setBlock_block (s : State) (ch : Channel) (c : Block) : (s.setBlock ch c).block ch = c := by
  cases ch <;> rfl

@[simp] theorem setBlock_other (s : State) (ch : Channel) (c : Block) :
    (s.setBlock ch c).block ch.other = s.block ch.other := by
  cases ch <;> rfl

@[simp] theorem setBlock_self (s : State) (ch : Channel) : s.setBlock ch (s.block ch) = s := by
  cases ch <;> rfl

@[simp] theorem setBlock_setBlock (s : State) (ch : Channel) (c d : Block) :
    (s.setBlock ch c).setBlock ch d = s.setBlock ch d := by
  cases ch <;> rfl

@[simp] theorem setCur_focus (s : State) (c : Block) : (s.setCur c).focus = s.focus := setBlock_focus s s.focus c

@[simp] theorem setCur_grain (s : State) (c : Block) : (s.setCur c).grain = s.grain := setBlock_grain s s.focus c

@[simp] theorem setCur_turns (s : State) (c : Block) : (s.setCur c).turns = s.turns := setBlock_turns s s.focus c

@[simp] theorem setCur_cur (s : State) (c : Block) : (s.setCur c).cur = c := by
  simp only [State.cur, setCur_focus]
  exact setBlock_block s s.focus c

@[simp] theorem setCur_other (s : State) (c : Block) : (s.setCur c).block s.focus.other = s.block s.focus.other :=
  setBlock_other s s.focus c

@[simp] theorem setCur_self (s : State) : s.setCur s.cur = s := setBlock_self s s.focus

@[simp] theorem setCur_setCur (s : State) (c d : Block) : (s.setCur c).setCur d = s.setCur d := by
  simp only [State.setCur, setBlock_focus]
  exact setBlock_setBlock s s.focus c d

/-- Where a change of the moving block ends in a next state, that state is the old one with the block replaced. -/
theorem lift_next {s t : State} {r : Except Fault Block} (h : s.lift r = .next t) :
    ∃ c, r = .ok c ∧ t = s.setCur c := by
  cases r with
  | ok c => exact ⟨c, rfl, by simpa [State.lift] using h.symm⟩
  | error e => simp [State.lift] at h

@[simp] theorem lift_ok (s : State) (c : Block) : s.lift (.ok c) = .next (s.setCur c) := rfl

@[simp] theorem lift_error (s : State) (e : Fault) : s.lift (.error e) = .fault e := rfl

end Sys2Proof.Machine
end

