-- ==== Sys2Proof/Laws/Memory.lean ====
section
/-! SUPPORT. The slot RAM: read after write, a write leaves the other addresses alone, every operation keeps the
canonical form, and equal reads of canonical memories make equal memories. -/

namespace Sys2Proof.Machine

/-! ### One byte -/

theorem get_insert (m : Memory) (a : Nat) (b : Byte) (x : Nat) (ha : ∀ y ∈ m, y.1 ≠ a) :
    (Memory.insert m a b).get x = if a = x then b else m.get x := by
  induction m with
  | nil => rfl
  | cons y m ih =>
    have hy : y.1 ≠ a := ha y (by simp)
    have ih := ih (fun z hz => ha z (by simp [hz]))
    by_cases hlt : a < y.1
    · simp [Memory.insert, Memory.get, hlt]
    · simp only [Memory.insert, hlt, if_false, Memory.get, ih]
      by_cases h1 : y.1 = x <;> by_cases h2 : a = x <;> simp [h1, h2]
      exact absurd (h1.trans h2.symm) hy

theorem get_filter (m : Memory) (a x : Nat) :
    Memory.get (m.filter (fun y => y.1 != a)) x = if a = x then blankByte x else m.get x := by
  induction m with
  | nil => simp [Memory.get]
  | cons y m ih =>
    by_cases hy : y.1 = a
    · rw [List.filter_cons_of_neg (by simp [hy]), ih]
      by_cases h : a = x
      · simp [h]
      · have : y.1 ≠ x := fun e => h (hy.symm.trans e)
        simp [h, Memory.get, this]
    · rw [List.filter_cons_of_pos (by simpa using hy)]
      simp only [Memory.get, ih]
      by_cases h : y.1 = x
      · have : a ≠ x := fun e => hy (h.trans e.symm)
        simp [h, this]
      · simp [h]

/-- Read after write, and the frame of a write. -/
theorem get_set (m : Memory) (a : Nat) (b : Byte) (x : Nat) : (m.set a b).get x = if a = x then b else m.get x := by
  unfold Memory.set
  by_cases hb : b = blankByte a
  · simp only [hb, if_true, get_filter]
    by_cases h : a = x <;> simp [h]
  · simp only [hb, if_false]
    rw [get_insert _ _ _ _ (by simp), get_filter]
    by_cases h : a = x <;> simp [h]

@[simp] theorem get_set_same (m : Memory) (a : Nat) (b : Byte) : (m.set a b).get a = b := by simp [get_set]

theorem get_set_other (m : Memory) {a x : Nat} (b : Byte) (h : a ≠ x) : (m.set a b).get x = m.get x := by
  simp [get_set, h]

/-! ### Runs of bytes -/

theorem get_setBytes (m : Memory) (a : Nat) (bs : List Byte) (x : Nat) :
    (m.setBytes a bs).get x = if a ≤ x ∧ x < a + bs.length then bs.getD (x - a) 0 else m.get x := by
  induction bs generalizing m a with
  | nil =>
    rw [if_neg (by simp)]
    rfl
  | cons b bs ih =>
    simp only [Memory.setBytes, ih, get_set, List.length_cons]
    by_cases h1 : a = x
    · subst h1
      simp
    · by_cases h2 : a + 1 ≤ x ∧ x < a + 1 + bs.length
      · have h3 : a ≤ x ∧ x < a + (bs.length + 1) := by omega
        rw [if_pos h2, if_pos h3]
        obtain ⟨d, hd⟩ : ∃ d, x - a = d + 1 := ⟨x - (a + 1), by omega⟩
        have hd' : x - (a + 1) = d := by omega
        simp [hd, hd']
      · have h3 : ¬(a ≤ x ∧ x < a + (bs.length + 1)) := by omega
        rw [if_neg h2, if_neg h3, if_neg h1]

/-- A byte outside the bytes written reads as before. -/
theorem get_setBytes_other (m : Memory) {a x : Nat} {bs : List Byte} (h : x < a ∨ a + bs.length ≤ x) :
    (m.setBytes a bs).get x = m.get x := by
  rw [get_setBytes, if_neg (by omega)]

@[simp] theorem length_getBytes (m : Memory) (a n : Nat) : (m.getBytes a n).length = n := by
  induction n generalizing a with
  | zero => rfl
  | succ n ih => simp [Memory.getBytes, ih]

theorem getD_getBytes (m : Memory) (a n i : Nat) (h : i < n) : (m.getBytes a n).getD i 0 = m.get (a + i) := by
  induction n generalizing a i with
  | zero => omega
  | succ n ih =>
    cases i with
    | zero => simp [Memory.getBytes]
    | succ i =>
      have := ih (a + 1) i (by omega)
      simp only [Memory.getBytes, List.getD_cons_succ, this]
      congr 1
      omega

/-- A run of bytes read from two memories is the same where each byte is. -/
theorem getBytes_congr {m m' : Memory} {a n : Nat} (h : ∀ x, a ≤ x → x < a + n → m.get x = m'.get x) :
    m.getBytes a n = m'.getBytes a n := by
  induction n generalizing a with
  | zero => rfl
  | succ n ih =>
    simp only [Memory.getBytes]
    rw [h a (by omega) (by omega), ih (fun x h1 h2 => h x (by omega) (by omega))]

/-- Bytes written are read back. -/
theorem getBytes_setBytes (m : Memory) (a : Nat) (bs : List Byte) : (m.setBytes a bs).getBytes a bs.length = bs := by
  apply List.ext_getElem (by simp)
  intro i h1 h2
  have h := getD_getBytes (m.setBytes a bs) a bs.length i h2
  rw [get_setBytes, if_pos (by omega)] at h
  simpa [List.getD_eq_getElem?_getD, h1, h2] using h

/-- A run of bytes apart from the bytes written reads as before. -/
theorem getBytes_setBytes_other (m : Memory) {a b n : Nat} {bs : List Byte}
    (h : b + n ≤ a ∨ a + bs.length ≤ b) : (m.setBytes a bs).getBytes b n = m.getBytes b n :=
  getBytes_congr fun x h1 h2 => get_setBytes_other m (by omega)

/-! ### The canonical form -/

theorem mem_insert {m : Memory} {a : Nat} {b : Byte} {x : Host.Cell} (h : x ∈ Memory.insert m a b) :
    x = (a, b) ∨ x ∈ m := by
  induction m with
  | nil => simpa [Memory.insert] using h
  | cons y m ih =>
    unfold Memory.insert at h
    split at h
    · simpa using h
    · rcases List.mem_cons.mp h with h | h
      · exact .inr (by simp [h])
      · rcases ih h with h | h
        · exact .inl h
        · exact .inr (by simp [h])

theorem sorted_insert {m : Memory} {a : Nat} {b : Byte} (hm : m.Pairwise (fun x y => x.1 < y.1))
    (ha : ∀ y ∈ m, y.1 ≠ a) : (Memory.insert m a b).Pairwise (fun x y => x.1 < y.1) := by
  induction m with
  | nil => simp [Memory.insert]
  | cons y m ih =>
    have hy : y.1 ≠ a := ha y (by simp)
    rw [List.pairwise_cons] at hm
    unfold Memory.insert
    split
    · rename_i hlt
      simp only [List.pairwise_cons, List.mem_cons]
      refine ⟨?_, hm.1, hm.2⟩
      rintro z (rfl | hz)
      · exact hlt
      · exact hlt.trans (hm.1 z hz)
    · rw [List.pairwise_cons]
      refine ⟨?_, ih hm.2 (fun z hz => ha z (by simp [hz]))⟩
      intro z hz
      rcases mem_insert hz with rfl | hz
      · simp only; omega
      · exact hm.1 z hz

/-- A write keeps the canonical form. -/
theorem set_wf {m : Memory} (hm : m.wf) (a : Nat) (b : Byte) : (m.set a b).wf := by
  have hs : List.Pairwise (fun x y : Host.Cell => x.1 < y.1) (m.filter (fun x => x.1 != a)) := hm.1.filter _
  have hv : ∀ x ∈ m.filter (fun x => x.1 != a), x.2 ≠ blankByte x.1 := fun x hx => hm.2 x (List.mem_of_mem_filter hx)
  unfold Memory.set
  by_cases hb : b = blankByte a
  · simp only [hb, if_true]
    exact ⟨hs, hv⟩
  · simp only [hb, if_false]
    refine ⟨sorted_insert hs (by simp), ?_⟩
    intro x hx
    rcases mem_insert hx with rfl | hx
    · exact hb
    · exact hv x hx

/-- A run of writes keeps the canonical form. -/
theorem setBytes_wf {m : Memory} (hm : m.wf) (a : Nat) (bs : List Byte) : (m.setBytes a bs).wf := by
  induction bs generalizing m a with
  | nil => exact hm
  | cons b bs ih => exact ih (set_wf hm a b) (a + 1)

/-- A write lists no address but its own and those listed before. -/
theorem mem_set {m : Memory} {a : Nat} {b : Byte} {x : Host.Cell} (h : x ∈ m.set a b) : x.1 = a ∨ x ∈ m := by
  unfold Memory.set at h
  by_cases hb : b = blankByte a
  · simp only [hb, if_true] at h
    exact .inr (List.mem_of_mem_filter h)
  · simp only [hb, if_false] at h
    rcases mem_insert h with rfl | h
    · exact .inl rfl
    · exact .inr (List.mem_of_mem_filter h)

theorem mem_setBytes {m : Memory} {a : Nat} {bs : List Byte} {x : Host.Cell} (h : x ∈ m.setBytes a bs) :
    (a ≤ x.1 ∧ x.1 < a + bs.length) ∨ x ∈ m := by
  induction bs generalizing m a with
  | nil => exact .inr h
  | cons b bs ih =>
    rcases ih h with h | h
    · exact .inl (by simp only [List.length_cons]; omega)
    · rcases mem_set h with h | h
      · exact .inl (by simp only [List.length_cons]; omega)
      · exact .inr h

/-- The empty memory is canonical. -/
theorem wf_nil : Memory.wf [] := ⟨List.Pairwise.nil, by simp⟩

/-! ### `MemRead` and `MemWrite` -/

/-- Everything `memRead` can do. -/
theorem memRead_cases {addr n : Nat} {c : Block} {v : List Byte} (h : memRead addr n c = .ok v) :
    accessOk c.slots addr n = true ∧ v = c.table.mem.getBytes addr n := by
  unfold memRead at h
  split at h
  · exact ⟨‹_›, by simpa using h.symm⟩
  · simp at h

/-- Everything `memWrite` can do. -/
theorem memWrite_cases {addr : Nat} {v : List Byte} {c c' : Block} (h : memWrite addr v c = .ok c') :
    accessOk c.slots addr v.length = true ∧ c' = c.withMem (c.table.mem.setBytes addr v) := by
  unfold memWrite at h
  split at h
  · exact ⟨‹_›, by simpa using h.symm⟩
  · simp at h

/-- A whole slot, or some bytes inside one, is an access the spec gives. -/
theorem accessOk_slot {slots j i n : Nat} (hj : j < slots) (hn : 1 ≤ n) (hi : i + n ≤ 9) :
    accessOk slots (slotAddr j i) n = true := by
  unfold accessOk slotAddr
  have h1 : (9 * j + i) / 9 = j := by omega
  have h2 : (9 * j + i + n - 1) / 9 = j := by omega
  simp only [h1, h2, Bool.and_eq_true, decide_eq_true_eq, beq_self_eq_true, and_true]
  omega

/-- An access inside the slot RAM stays below `9 * slots`. -/
theorem accessOk_lt {slots addr n : Nat} (h : accessOk slots addr n = true) : addr + n ≤ 9 * slots := by
  unfold accessOk at h
  simp only [Bool.and_eq_true, decide_eq_true_eq] at h
  exact h.2

end Sys2Proof.Machine
end

