-- ==== Sys2Proof/Laws/Encoder.lean ====
section
/-! SUPPORT. What the encoder writes, bit by bit: frame bit `p` of the packed bytes is 1 at the data bits that are 1, at
the stop bit and at the invalid flag, and nowhere else. -/

namespace Sys2Proof.Machine

@[simp] theorem length_putBit (b : List Byte) (pos : Nat) : (putBit b pos).length = b.length := by
  simp [putBit]

theorem length_foldl_putBit (ps : List Nat) (b : List Byte) : (ps.foldl putBit b).length = b.length := by
  induction ps generalizing b with
  | nil => rfl
  | cons p ps ih => simp [ih]

@[simp] theorem length_packFrame (q : List Byte) : (packFrame q).length = 9 := by
  simp [packFrame, length_foldl_putBit]

/-- Two frame positions in one byte are equal when their bit numbers are. -/
theorem position_eq {p pos : Nat} (h1 : p / 8 = pos / 8) (h2 : 7 - p % 8 = 7 - pos % 8) : p = pos := by
  omega

/-- One bit put at a position of the buffer shows there and nowhere else. -/
theorem frameBit_putBit (b : List Byte) (pos p : Nat) (hpos : pos / 8 < b.length) :
    frameBit (putBit b pos) p = (decide (p = pos) || frameBit b p) := by
  unfold frameBit putBit
  simp only [List.getD_eq_getElem?_getD, List.getElem?_modify, Option.map_eq_map]
  by_cases h : pos / 8 = p / 8
  · have hp : p / 8 < b.length := h ▸ hpos
    rw [List.getElem?_eq_getElem hp]
    simp only [Option.map_some, h, if_true, Option.getD_some, BitVec.getLsbD_or, BitVec.getLsbD_shiftLeft]
    rw [Bool.or_comm]
    congr 1
    by_cases e : p = pos
    · subst e
      simp
      omega
    · have : 7 - p % 8 ≠ 7 - pos % 8 := fun e' => e (position_eq h.symm e')
      simp only [e, decide_false]
      rcases Nat.lt_or_gt_of_ne this with hlt | hgt
      · simp [hlt]
      · have : 7 - p % 8 - (7 - pos % 8) ≠ 0 := by omega
        simp [BitVec.getLsbD_one, this]
  · have : p ≠ pos := fun e => h (by rw [e])
    simp [h, this]

theorem frameBit_foldl_putBit (ps : List Nat) (b : List Byte) (p : Nat) (hps : ∀ x ∈ ps, x / 8 < b.length) :
    frameBit (ps.foldl putBit b) p = (decide (p ∈ ps) || frameBit b p) := by
  induction ps generalizing b with
  | nil => simp
  | cons x ps ih =>
    simp only [List.foldl_cons]
    rw [ih (putBit b x) (fun y hy => by simpa using hps y (by simp [hy])),
      frameBit_putBit b x p (hps x (by simp))]
    by_cases h1 : p = x <;> by_cases h2 : p ∈ ps <;> simp [h1, h2]

/-- Which positions hold a data bit 1. -/
theorem mem_onesFrom {q : List Byte} {i p : Nat} :
    p ∈ onesFrom i q ↔ ∃ m t, m < q.length ∧ t < 8 ∧ (q.getD m 0).getLsbD (7 - t) = true ∧ p = 9 * (i + m) + 1 + t := by
  induction q generalizing i with
  | nil => simp [onesFrom]
  | cons b q ih =>
    simp only [onesFrom, List.mem_append, ih, onesOfByte, List.mem_filterMap, List.mem_range, List.length_cons]
    constructor
    · rintro (⟨t, ht, h⟩ | ⟨m, t, hm, ht, hb, rfl⟩)
      · split at h
        · exact ⟨0, t, by omega, ht, by simpa using ‹_›, by simpa using h.symm⟩
        · simp at h
      · exact ⟨m + 1, t, by omega, ht, by simpa using hb, by omega⟩
    · rintro ⟨m, t, hm, ht, hb, rfl⟩
      cases m with
      | zero => exact .inl ⟨t, ht, by simp at hb; simp [hb]⟩
      | succ m => exact .inr ⟨m, t, by omega, ht, by simpa using hb, by omega⟩

theorem onesFrom_lt {q : List Byte} {p : Nat} (h : p ∈ onesFrom 0 q) : p < 9 * q.length := by
  obtain ⟨m, t, hm, ht, -, rfl⟩ := mem_onesFrom.mp h
  omega

theorem frameBit_zeros (n p : Nat) : frameBit (List.replicate n 0) p = false := by
  unfold frameBit
  simp only [List.getD_eq_getElem?_getD, List.getElem?_replicate]
  split <;> simp

/-- Setting bit 0 of byte 6 is putting a bit at position 55 (30_encoding.md R90). -/
theorem modify_flag_eq_putBit (b : List Byte) : b.modify 6 (· ||| 0x01) = putBit b 55 := rfl

/-- Every frame bit the encoder writes (40_encoder.md R97). -/
theorem frameBit_packFrame {q : List Byte} (hq : q.length ≤ 6) (p : Nat) :
    frameBit (packFrame q) p = (decide (p = 55) || (decide (p = 9 * q.length) || decide (p ∈ onesFrom 0 q))) := by
  have hlen : ((onesFrom 0 q).foldl putBit (List.replicate 9 (0 : Byte))).length = 9 := by
    simp [length_foldl_putBit]
  unfold packFrame
  rw [modify_flag_eq_putBit, frameBit_putBit _ _ _ (by rw [length_putBit, hlen]; omega),
    frameBit_putBit _ _ _ (by rw [hlen]; omega), frameBit_foldl_putBit _ _ _ ?_, frameBit_zeros]
  · simp
  · intro x hx
    have := onesFrom_lt hx
    simp only [List.length_replicate]
    omega

/-- The encoder leaves the invalid flag at 1 (R99). -/
theorem flag_packFrame {q : List Byte} (hq : q.length ≤ 6) : flagOf ((packFrame q).getD 6 0) = true := by
  have h := frameBit_packFrame hq 55
  simpa [frameBit, flagOf] using h

/-- Clearing the flag leaves every other frame bit (40_encoder.md R104). -/
theorem frameBit_clearFlag (b : List Byte) (p : Nat) :
    frameBit (b.modify 6 (· &&& 0xFE)) p = (decide (p ≠ 55) && frameBit b p) := by
  unfold frameBit
  simp only [List.getD_eq_getElem?_getD, List.getElem?_modify, Option.map_eq_map]
  by_cases h : 6 = p / 8
  · simp only [h, if_true]
    cases hb : b[p / 8]? with
    | none => simp
    | some v =>
      simp only [Option.map_some, Option.getD_some, BitVec.getLsbD_and]
      have hm : p % 8 < 8 := Nat.mod_lt _ (by omega)
      have hf : ∀ k, k < 8 → BitVec.getLsbD (254 : Byte) (7 - k) = decide (k ≠ 7) := by decide
      rw [hf _ hm, Bool.and_comm]
      congr 1
      simp only [decide_eq_decide]
      omega
  · have : p ≠ 55 := by omega
    simp [h, this]

end Sys2Proof.Machine
end

