-- ==== Sys2Proof/Laws/Ops.lean ====
section
/-! SUPPORT. What each shared operation over the slot RAM can do, said once: the invalid flag (10_state.md R26), the copy
of a slot (20_memory.md R55) and the encoder call (40_encoder.md R94). Proofs cite these and unfold none of them. -/

namespace Sys2Proof.Machine

/-! ### Addresses and flags -/

theorem flagOf_set (b : Byte) : flagOf (b ||| 0x01) = true := by simp [flagOf]

theorem flagOf_clear (b : Byte) : flagOf (b &&& 0xFE) = false := by
  simp only [flagOf, BitVec.getLsbD_and]
  have : BitVec.getLsbD (0xFE : Byte) 0 = false := by decide
  rw [this, Bool.and_false]

theorem flagAddr_inj {i j : Nat} : flagAddr i = flagAddr j ↔ i = j := by
  unfold flagAddr slotAddr
  omega

theorem flagAddr_lt {j : Nat} {c : Block} : flagAddr j < 9 * c.slots ↔ j < c.slots := by
  unfold flagAddr slotAddr
  omega

theorem accessOk_flag {slots j : Nat} : accessOk slots (flagAddr j) 1 = true ↔ j < slots := by
  constructor
  · intro h
    have := accessOk_lt h
    unfold flagAddr slotAddr at this
    omega
  · intro h
    exact accessOk_slot h (by omega) (by omega)

theorem accessOk_whole {slots j : Nat} : accessOk slots (slotAddr j 0) 9 = true ↔ j < slots := by
  constructor
  · intro h
    have := accessOk_lt h
    unfold slotAddr at this
    omega
  · intro h
    exact accessOk_slot h (by omega) (by omega)

/-! ### Reading -/

/-- Reading an invalid flag of a slot that exists gives it. -/
theorem readInvalid_ok {j : Nat} {c : Block} (h : j < c.slots) : readInvalid j c = .ok (c.invalid j) := by
  simp [readInvalid, memRead, accessOk_flag.mpr h, Memory.getBytes, Block.invalid, Block.byteAt]

/-- Everything `readInvalid` can do. -/
theorem readInvalid_cases {j : Nat} {c : Block} {b : Bool} (h : readInvalid j c = .ok b) :
    j < c.slots ∧ b = c.invalid j := by
  by_cases hj : j < c.slots
  · rw [readInvalid_ok hj] at h
    exact ⟨hj, by simpa using h.symm⟩
  · simp [readInvalid, memRead, mt accessOk_flag.mp hj] at h

/-- Copying a slot that exists gives its frame. -/
theorem readSlot_ok {j : Nat} {c : Block} (h : j < c.slots) : readSlot j c = .ok (c.slotFrame j) := by
  simp [readSlot, memRead, accessOk_whole.mpr h, Block.slotFrame]

/-- Everything `readSlot` can do. -/
theorem readSlot_cases {j : Nat} {c : Block} {f : Frame} (h : readSlot j c = .ok f) :
    j < c.slots ∧ f = c.slotFrame j := by
  by_cases hj : j < c.slots
  · rw [readSlot_ok hj] at h
    exact ⟨hj, by simpa using h.symm⟩
  · simp [readSlot, memRead, mt accessOk_whole.mp hj] at h

/-! ### Rewriting a flag byte -/

/-- A block with byte 6 of slot `j` replaced. -/
abbrev Block.withFlagByte (c : Block) (j : Nat) (b : Byte) : Block := c.withMem (c.table.mem.set (flagAddr j) b)

/-- Rewriting byte 6 of a slot that exists. -/
theorem modifyFlagByte_ok {j : Nat} {f : Byte → Byte} {c : Block} (h : j < c.slots) :
    modifyFlagByte j f c = .ok (c.withFlagByte j (f (c.byteAt (flagAddr j)))) := by
  simp [modifyFlagByte, memRead, memWrite, accessOk_flag.mpr h, Memory.getBytes, Memory.setBytes, Block.byteAt]

/-- Everything `modifyFlagByte` can do. -/
theorem modifyFlagByte_cases {j : Nat} {f : Byte → Byte} {c c' : Block} (h : modifyFlagByte j f c = .ok c') :
    j < c.slots ∧ c' = c.withFlagByte j (f (c.byteAt (flagAddr j))) := by
  by_cases hj : j < c.slots
  · rw [modifyFlagByte_ok hj] at h
    exact ⟨hj, by simpa using h.symm⟩
  · simp [modifyFlagByte, memRead, mt accessOk_flag.mp hj] at h

/-- Setting the invalid flag of a slot that exists. -/
theorem setInvalid_ok {j : Nat} {c : Block} (h : j < c.slots) :
    setInvalid j c = .ok (c.withFlagByte j (c.byteAt (flagAddr j) ||| 0x01)) := modifyFlagByte_ok h

/-- Everything `setInvalid` can do. -/
theorem setInvalid_cases {j : Nat} {c c' : Block} (h : setInvalid j c = .ok c') :
    j < c.slots ∧ c' = c.withFlagByte j (c.byteAt (flagAddr j) ||| 0x01) := modifyFlagByte_cases h

/-- Clearing the invalid flag of a slot that exists. -/
theorem clearInvalid_ok {j : Nat} {c : Block} (h : j < c.slots) :
    clearInvalid j c = .ok (c.withFlagByte j (c.byteAt (flagAddr j) &&& 0xFE)) := modifyFlagByte_ok h

/-- Everything `clearInvalid` can do. -/
theorem clearInvalid_cases {j : Nat} {c c' : Block} (h : clearInvalid j c = .ok c') :
    j < c.slots ∧ c' = c.withFlagByte j (c.byteAt (flagAddr j) &&& 0xFE) := modifyFlagByte_cases h

/-- The bytes after a flag byte is replaced. -/
theorem byteAt_withFlagByte (c : Block) (j : Nat) (b : Byte) (a : Nat) :
    (c.withFlagByte j b).byteAt a = if flagAddr j = a then b else c.byteAt a := get_set c.table.mem (flagAddr j) b a

/-- The invalid flags after a flag byte is replaced. -/
theorem invalid_withFlagByte (c : Block) (j : Nat) (b : Byte) (i : Nat) :
    (c.withFlagByte j b).invalid i = if j = i then flagOf b else c.invalid i := by
  unfold Block.invalid
  rw [byteAt_withFlagByte]
  by_cases h : j = i
  · simp [h]
  · rw [if_neg (mt flagAddr_inj.mp h), if_neg h]

/-- The other slots after a flag byte is replaced. -/
theorem slotFrame_withFlagByte_other (c : Block) {j i : Nat} (b : Byte) (h : j ≠ i) :
    (c.withFlagByte j b).slotFrame i = c.slotFrame i := by
  have : (c.withFlagByte j b).table.mem.getBytes (slotAddr i 0) 9 = c.table.mem.getBytes (slotAddr i 0) 9 := by
    refine getBytes_congr fun x h1 h2 => get_set_other _ _ ?_
    unfold flagAddr slotAddr at *
    omega
  simp only [Block.slotFrame, this]
  rfl

/-- The slot itself after its flag byte is rewritten. -/
theorem slotFrame_withFlagByte (c : Block) (j : Nat) (f : Byte → Byte) :
    (c.withFlagByte j (f (c.byteAt (flagAddr j)))).slotFrame j =
      { c.slotFrame j with buf := (c.slotFrame j).buf.modify 6 f } := by
  simp only [Block.slotFrame, Block.withFlagByte, withMem_table, Frame.mk.injEq, true_and]
  apply List.ext_getElem (by simp)
  intro i h1 h2
  have hi : i < 9 := by simpa using h1
  have e1 := getD_getBytes (c.table.mem.set (flagAddr j) (f (c.byteAt (flagAddr j)))) (slotAddr j 0) 9 i hi
  have e2 := getD_getBytes c.table.mem (slotAddr j 0) 9 i hi
  rw [List.getD_eq_getElem _ _ (by simpa using hi)] at e1 e2
  rw [e1, get_set, List.getElem_modify, e2]
  by_cases h : 6 = i
  · subst h
    simp [flagAddr, slotAddr, Block.byteAt]
  · have : flagAddr j ≠ slotAddr j 0 + i := by
      unfold flagAddr slotAddr
      omega
    simp [h, this]

/-! ### The encoder call -/

/-- The packet an encoder call packs: the payload with its checksum (40_encoder.md R96). -/
abbrev Block.nextPacket (c : Block) : List Byte := (appendChecksum c).packetBytes

/-- A block after an encoder call for slot `j` (R97). -/
abbrev Block.encoded (c : Block) (j : Nat) : Block :=
  ((appendChecksum c).withMem (c.table.mem.setBytes (slotAddr j 0) (packFrame c.nextPacket))).withBitCount j
    (frameLength c.nextPacket)

/-- An encoder call for a slot that exists. -/
theorem encodeInto_ok {j : Nat} {c : Block} (h : j < c.slots) : encodeInto j c = .ok (c.encoded j) := by
  have : accessOk (appendChecksum c).slots (slotAddr j 0) (packFrame c.nextPacket).length = true := by
    rw [length_packFrame]
    exact accessOk_whole.mpr h
  simp only [encodeInto, memWrite, this, if_true]
  rfl

/-- Everything `encodeInto` can do. -/
theorem encodeInto_cases {j : Nat} {c c' : Block} (h : encodeInto j c = .ok c') : j < c.slots ∧ c' = c.encoded j := by
  by_cases hj : j < c.slots
  · rw [encodeInto_ok hj] at h
    exact ⟨hj, by simpa using h.symm⟩
  · have : ¬accessOk (appendChecksum c).slots (slotAddr j 0) (packFrame c.nextPacket).length = true := by
      rw [length_packFrame]
      exact mt accessOk_whole.mp hj
    simp only [encodeInto, memWrite, this] at h
    simp at h

/-- The bytes outside the slot after an encoder call. -/
theorem byteAt_encoded_other (c : Block) {j a : Nat} (h : a < slotAddr j 0 ∨ slotAddr j 0 + 9 ≤ a) :
    (c.encoded j).byteAt a = c.byteAt a :=
  get_setBytes_other _ (by rw [length_packFrame]; exact h)

/-- The slot after an encoder call holds the encoder's frame. -/
theorem slotFrame_encoded (c : Block) {j : Nat} (h : j < c.table.bitCounts.length) :
    (c.encoded j).slotFrame j = encodedFrame c.nextPacket := by
  have hb : (c.table.mem.setBytes (slotAddr j 0) (packFrame c.nextPacket)).getBytes (slotAddr j 0) 9 =
      packFrame c.nextPacket := by
    have := getBytes_setBytes c.table.mem (slotAddr j 0) (packFrame c.nextPacket)
    rwa [length_packFrame] at this
  have hl : (c.table.bitCounts.set j (frameLength c.nextPacket)).getD j 0 = frameLength c.nextPacket := by
    simp [List.getD_eq_getElem?_getD, h]
  show Frame.mk ((c.table.bitCounts.set j (frameLength c.nextPacket)).getD j 0) _ = _
  rw [hl]
  exact congrArg _ hb

/-- The other slots after an encoder call. -/
theorem slotFrame_encoded_other (c : Block) {j i : Nat} (h : j ≠ i) : (c.encoded j).slotFrame i = c.slotFrame i := by
  have hb : (c.table.mem.setBytes (slotAddr j 0) (packFrame c.nextPacket)).getBytes (slotAddr i 0) 9 =
      c.table.mem.getBytes (slotAddr i 0) 9 := by
    refine getBytes_setBytes_other _ ?_
    rw [length_packFrame]
    unfold slotAddr
    omega
  have hl : (c.table.bitCounts.set j (frameLength c.nextPacket)).getD i 0 = c.table.bitCounts.getD i 0 := by
    simp [List.getD_eq_getElem?_getD, List.getElem?_set_ne h]
  show Frame.mk ((c.table.bitCounts.set j (frameLength c.nextPacket)).getD i 0) _ = _
  rw [hl]
  exact congrArg _ hb

/-- The invalid flags of the other slots after an encoder call. -/
theorem invalid_encoded_other (c : Block) {j i : Nat} (h : j ≠ i) : (c.encoded j).invalid i = c.invalid i := by
  unfold Block.invalid
  rw [byteAt_encoded_other]
  unfold flagAddr slotAddr
  omega

/-- The encoder leaves the invalid flag at 1 (40_encoder.md R99). -/
theorem invalid_encoded (c : Block) (j : Nat) (h : c.nextPacket.length ≤ 6) : (c.encoded j).invalid j = true := by
  have hf := flag_packFrame h
  unfold Block.invalid
  have : (c.encoded j).byteAt (flagAddr j) = (packFrame c.nextPacket).getD 6 0 := by
    have := get_setBytes c.table.mem (slotAddr j 0) (packFrame c.nextPacket) (flagAddr j)
    rw [length_packFrame, if_pos (by unfold flagAddr slotAddr; omega)] at this
    refine this.trans ?_
    congr 1
    unfold flagAddr slotAddr
    omega
  rw [this, hf]

/-- The packet after a payload of 2 to 5 bytes is written: the payload and its checksum. -/
theorem nextPacket_withPayload (c : Block) {bytes : List Byte} (h : bytes.length < c.payload.p.length) :
    (c.withPayload bytes).nextPacket = bytes ++ [checksum bytes] := by
  have ht : (bytes ++ c.payload.p.drop bytes.length).take bytes.length = bytes := List.take_left' rfl
  show ((bytes ++ c.payload.p.drop bytes.length).set bytes.length
    (checksum ((bytes ++ c.payload.p.drop bytes.length).take bytes.length))).take (bytes.length + 1) = _
  rw [ht, List.set_append_right _ _ (Nat.le_refl _), Nat.sub_self]
  obtain ⟨x, xs, hx⟩ : ∃ x xs, c.payload.p.drop bytes.length = x :: xs := by
    cases hd : c.payload.p.drop bytes.length with
    | nil =>
      have := congrArg List.length hd
      simp only [List.length_drop, List.length_nil] at this
      omega
    | cons x xs => exact ⟨x, xs, rfl⟩
  rw [hx, List.set_cons_zero, List.take_append]
  simp

end Sys2Proof.Machine
end

