-- ==== Sys2Proof/Laws/Engine.lean ====
section
/-! SUPPORT. What one packet completion can do, said once (60_exceptions.md R169 to R176). -/

namespace Sys2Proof.Machine

/-- Everything the rotation's search can find: the first slot of the list whose invalid flag is 0, or none. -/
theorem findValid_cases {c : Block} {js : List Nat} {o : Option Nat} (h : findValid c js = .ok o) :
    (∃ before j after, o = some j ∧ js = before ++ j :: after ∧ (∀ i ∈ before, c.invalid i = true) ∧
      c.invalid j = false ∧ j < c.slots) ∨ (o = none ∧ ∀ i ∈ js, c.invalid i = true) := by
  induction js with
  | nil => exact .inr ⟨by simpa [findValid] using h.symm, by simp⟩
  | cons a as ih =>
    simp only [findValid] at h
    split at h
    · next hr =>
      obtain ⟨-, hb⟩ := readInvalid_cases hr
      rcases ih h with ⟨before, j, after, ho, hj, hall, hf, hs⟩ | ⟨ho, hall⟩
      · refine .inl ⟨a :: before, j, after, ho, by simp [hj], ?_, hf, hs⟩
        rintro i (_ | ⟨_, hi⟩)
        · exact hb.symm
        · exact hall i hi
      · refine .inr ⟨ho, ?_⟩
        rintro i (_ | ⟨_, hi⟩)
        · exact hb.symm
        · exact hall i hi
    · next hr =>
      obtain ⟨hs, hb⟩ := readInvalid_cases hr
      exact .inl ⟨[], a, as, by simpa using h.symm, rfl, by simp, hb.symm, hs⟩
    · simp at h

/-- The search over slots that exist finds the first valid one. -/
theorem findValid_ok {c : Block} {js : List Nat} (h : ∀ i ∈ js, i < c.slots) :
    findValid c js = .ok (js.find? fun i => !c.invalid i) := by
  induction js with
  | nil => rfl
  | cons a as ih =>
    simp only [findValid, readInvalid_ok (h a (by simp)), List.find?_cons]
    cases hb : c.invalid a with
    | true => simpa using ih fun i hi => h i (by simp [hi])
    | false => rfl

/-- The rotation visits slots 1 to maxLoaded only (R173). -/
theorem mem_rotationOrder {c : Block} {j : Nat} (h : j ∈ rotationOrder c) : 1 ≤ j ∧ j ≤ c.table.maxLoaded := by
  simp only [rotationOrder, List.mem_map, List.mem_range] at h
  obtain ⟨m, hm, rfl⟩ := h
  have := Nat.mod_lt (rotationStart c + m - 1) (by omega : 0 < c.table.maxLoaded)
  omega

/-- Slot 0 is being repeated exactly when context B is sending it with repeats left (R171). -/
theorem repeating_iff {c : Block} : repeating c = true ↔ c.engine.cur = .slot 0 ∧ 0 < c.engine.repeatLeft := by
  simp only [repeating, Bool.and_eq_true, beq_iff_eq, bne_iff_ne, ne_eq, and_congr_right_iff]
  intro _
  constructor <;> intro h <;> bv_omega

/-- Everything one packet completion can do: a repeat, an adoption, a rotation step, or the idle packet. -/
theorem engineStep_cases {c c' : Block} (h : engineStep c = .ok c') :
    (repeating c = true ∧
      c' = afterPacket c c.engine.cur c.engine.latched (c.engine.repeatLeft - 1) c.engine.rot c.next) ∨
    (repeating c = false ∧ ∃ j, c.next = some j ∧ j < c.slots ∧
      c' = afterPacket c (.slot j) (c.slotFrame j) (if j = 0 then c.nextRepeat else 0)
        (if j = 0 then c.engine.rot else j) none) ∨
    (repeating c = false ∧ c.next = none ∧ ∃ j, j ∈ rotationOrder c ∧ c.invalid j = false ∧ j < c.slots ∧
      c' = afterPacket c (.slot j) (c.slotFrame j) c.engine.repeatLeft j none) ∨
    (repeating c = false ∧ c.next = none ∧ (∀ i ∈ rotationOrder c, c.invalid i = true) ∧
      c' = afterPacket c .idle idleFrame c.engine.repeatLeft c.engine.rot none) := by
  unfold engineStep at h
  split at h
  case h_2 => simp at h
  case h_1 d hd =>
    obtain rfl : _ = c' := by simpa using h
    unfold selectFrame at hd
    have hr : repeating (countPacket c) = repeating c := rfl
    rw [hr] at hd
    split at hd
    · next hrep =>
      obtain rfl : _ = d := by simpa using hd
      exact .inl ⟨hrep, rfl⟩
    · next hrep =>
      have hrep' : repeating c = false := by simpa using hrep
      split at hd
      · next j hj =>
        split at hd
        · next f hf =>
          obtain rfl : _ = d := by simpa using hd
          obtain ⟨hs, rfl⟩ := readSlot_cases hf
          exact .inr (.inl ⟨hrep', j, hj, hs, rfl⟩)
        · simp at hd
      · next hj =>
        have hj : c.next = none := hj
        unfold rotate at hd
        have ho : rotationOrder (countPacket c) = rotationOrder c := rfl
        rw [ho] at hd
        split at hd
        · next j hv =>
          split at hd
          · next f hf =>
            obtain rfl : _ = d := by simpa using hd
            obtain ⟨hs, rfl⟩ := readSlot_cases hf
            rcases findValid_cases hv with ⟨before, k, after, hk, hl, -, hfl, -⟩ | ⟨hk, -⟩
            · obtain rfl : j = k := by simpa using hk
              refine .inr (.inr (.inl ⟨hrep', hj, j, ?_, hfl, hs, ?_⟩))
              · rw [hl]
                simp
              · simp only [afterPacket, ← hj]
                rfl
            · simp at hk
          · simp at hd
        · next hv =>
          obtain rfl : _ = d := by simpa using hd
          rcases findValid_cases hv with ⟨before, k, after, hk, -⟩ | ⟨-, hall⟩
          · simp at hk
          · refine .inr (.inr (.inr ⟨hrep', hj, hall, ?_⟩))
            simp only [afterPacket, ← hj]
            rfl
        · simp at hd

end Sys2Proof.Machine
end

