-- ==== Sys2Proof/Laws/PerInstr.lean ====
section
/-! SUPPORT. One statement about every operation as syntax: the header of its command word is its row of the opcode table
(30_encoding.md R71; spec/opcode_table.json). -/

namespace Sys2Proof.Laws.Header

/-- The row's mask and match over the 16 header bits. -/
def row : Instr → Nat × Nat
  | .throttle _ _ _ _ => (0xFFFF, 0x0401)
  | .functionShort _ _ => (0xFFFF, 0x0202)
  | .functionLong _ _ _ => (0xFFFF, 0x0302)
  | .accessory _ _ _ => (0xFFFF, 0x0303)
  | .rawPacket _ _ => (0xF0FF, 0x0004)
  | .readCv _ _ _ => (0xFFFF, 0x0305)
  | .writeCvByte _ _ _ _ => (0xFFFF, 0x0406)
  | .writeCvBit _ _ _ _ _ => (0xFFFF, 0x0507)
  | .writeMainCvByte _ _ _ => (0xFFFF, 0x0308)
  | .writeMainCvBit _ _ _ _ => (0xFFFF, 0x0409)
  | .printLastPacket => (0xFFFF, 0x000A)
  | .printCapacity => (0xFFFF, 0x000B)

/-- The header of the operation's command word matches its row. -/
def Statement (i : Instr) : Prop := ((encode i).toNat % 2 ^ 16) &&& (row i).1 = (row i).2

/-- The low 16 bits of a command word are its opcode and its argument count. -/
theorem header_packCommand {opcode argc : Nat} (args : List Word) (ho : opcode < 2 ^ 8) (ha : argc < 2 ^ 4) :
    (packCommand opcode argc args).toNat % 2 ^ 16 = opcode + 2 ^ 8 * argc := by
  unfold packCommand
  rw [BitVec.toNat_ofNat, Nat.mod_mod_of_dvd _ (Nat.pow_dvd_pow 2 (by decide : 16 ≤ 208)), Nat.add_mul_mod_self_left]
  exact Nat.mod_eq_of_lt (by omega)

/-- An operation whose header bits, masked, are its row's match. -/
theorem of_packCommand {i : Instr} {opcode argc mask m : Nat} {args : List Word} (h : encode i = packCommand opcode argc args)
    (ho : opcode < 2 ^ 8) (ha : argc < 2 ^ 4) (hi : row i = (mask, m))
    (hr : (opcode + 2 ^ 8 * argc) &&& mask = m) : Statement i := by
  rw [Statement, h, header_packCommand args ho ha, hi, hr]

theorem throttle (slot cab speed dir : Word) : Statement (.throttle slot cab speed dir) :=
  of_packCommand (opcode := 0x01) (argc := 4) rfl (Nat.le_of_ble_eq_true rfl) (Nat.le_of_ble_eq_true rfl) rfl
    (by decide)

theorem functionShort (cab fByte : Word) : Statement (.functionShort cab fByte) :=
  of_packCommand (opcode := 0x02) (argc := 2) rfl (Nat.le_of_ble_eq_true rfl) (Nat.le_of_ble_eq_true rfl) rfl
    (by decide)

theorem functionLong (cab fByte eByte : Word) : Statement (.functionLong cab fByte eByte) :=
  of_packCommand (opcode := 0x02) (argc := 3) rfl (Nat.le_of_ble_eq_true rfl) (Nat.le_of_ble_eq_true rfl) rfl
    (by decide)

theorem accessory (addr port activate : Word) : Statement (.accessory addr port activate) :=
  of_packCommand (opcode := 0x03) (argc := 3) rfl (Nat.le_of_ble_eq_true rfl) (Nat.le_of_ble_eq_true rfl) rfl
    (by decide)

theorem rawPacket (argc : BitVec 4) (args : List Word) : Statement (.rawPacket argc args) :=
  of_packCommand rfl (Nat.le_of_ble_eq_true rfl) argc.isLt rfl <| by
    revert argc
    decide

theorem readCv (cv cb cbSub : Word) : Statement (.readCv cv cb cbSub) :=
  of_packCommand (opcode := 0x05) (argc := 3) rfl (Nat.le_of_ble_eq_true rfl) (Nat.le_of_ble_eq_true rfl) rfl
    (by decide)

theorem writeCvByte (cv value cb cbSub : Word) : Statement (.writeCvByte cv value cb cbSub) :=
  of_packCommand (opcode := 0x06) (argc := 4) rfl (Nat.le_of_ble_eq_true rfl) (Nat.le_of_ble_eq_true rfl) rfl
    (by decide)

theorem writeCvBit (cv bit value cb cbSub : Word) : Statement (.writeCvBit cv bit value cb cbSub) :=
  of_packCommand (opcode := 0x07) (argc := 5) rfl (Nat.le_of_ble_eq_true rfl) (Nat.le_of_ble_eq_true rfl) rfl
    (by decide)

theorem writeMainCvByte (cab cv value : Word) : Statement (.writeMainCvByte cab cv value) :=
  of_packCommand (opcode := 0x08) (argc := 3) rfl (Nat.le_of_ble_eq_true rfl) (Nat.le_of_ble_eq_true rfl) rfl
    (by decide)

theorem writeMainCvBit (cab cv bit value : Word) : Statement (.writeMainCvBit cab cv bit value) :=
  of_packCommand (opcode := 0x09) (argc := 4) rfl (Nat.le_of_ble_eq_true rfl) (Nat.le_of_ble_eq_true rfl) rfl
    (by decide)

theorem printLastPacket : Statement .printLastPacket :=
  of_packCommand (opcode := 0x0A) (argc := 0) rfl (Nat.le_of_ble_eq_true rfl) (Nat.le_of_ble_eq_true rfl) rfl
    (by decide)

theorem printCapacity : Statement .printCapacity :=
  of_packCommand (opcode := 0x0B) (argc := 0) rfl (Nat.le_of_ble_eq_true rfl) (Nat.le_of_ble_eq_true rfl) rfl
    (by decide)

end Sys2Proof.Laws.Header
end

