-- ==== Sys2Proof/Laws/Steps.lean ====
section
/-! SUPPORT. What a load's beginning, an operation's own statements, a run of context A, a command and a step can do,
each said once. Proofs cite these lemmas and unfold no operation. -/

namespace Sys2Proof.Machine

/-! ### Loads -/

/-- Everything P1 can do (41_slot_table_loader.md R109). -/
theorem chooseSlot_cases {user : Nat} {rep : Byte} {c : Block} {x : LoadCtx} {r : Option Nat}
    (h : chooseSlot user rep c = .ok (x, r)) :
    (∃ q, c.table.recycleReg = some q ∧ x = ⟨user, rep, false, c.mapped user, q, false⟩ ∧ r = c.mapped user) ∨
    (c.table.recycleReg = none ∧ c.table.maxLoaded < c.params.n ∧
      x = ⟨user, rep, false, c.mapped user, c.table.maxLoaded + 1, false⟩ ∧ r = c.mapped user) ∨
    (c.table.recycleReg = none ∧ c.params.n ≤ c.table.maxLoaded ∧
      ∃ q, c.mapped user = some q ∧ x = ⟨user, rep, false, some q, q, true⟩ ∧ r = none) := by
  unfold chooseSlot at h
  split at h
  · next q hq =>
    obtain ⟨rfl, rfl⟩ : _ = x ∧ _ = r := by simpa using h
    exact .inl ⟨q, hq, rfl, rfl⟩
  · next hn =>
    split at h
    · next hlt =>
      obtain ⟨rfl, rfl⟩ : _ = x ∧ _ = r := by simpa using h
      exact .inr (.inl ⟨hn, hlt, rfl, rfl⟩)
    · next hge =>
      dsimp only at h
      split at h
      · next q hq =>
        obtain ⟨rfl, rfl⟩ : _ = x ∧ _ = r := by simpa using h
        exact .inr (.inr ⟨hn, by omega, q, hq, by rw [hq], rfl⟩)
      · simp at h

/-- P1 always finds a slot in a settled pool: with nothing recycled and the watermark at N every user slot is mapped
(41_slot_table_loader.md R119). -/
theorem chooseSlot_of_settled {user : Nat} {rep : Byte} {c : Block} (hl : c.table.map.length = c.params.n)
    (hp : c.PoolSettled) (h1 : 1 ≤ user) (hn : user ≤ c.params.n) : ∃ x r, chooseSlot user rep c = .ok (x, r) := by
  unfold chooseSlot
  cases hq : c.table.recycleReg with
  | some q => exact ⟨_, _, rfl⟩
  | none =>
    by_cases hlt : c.table.maxLoaded < c.params.n
    · exact ⟨_, _, by simp only [hlt, if_true]; rfl⟩
    · simp only [hlt, if_false]
      unfold Block.PoolSettled poolPartition at hp
      rw [hq] at hp
      have hlen := hp.length_eq
      simp only [Option.toList_none, List.append_nil, List.length_range'] at hlen
      have hle := List.length_filterMap_le id c.table.map
      have hi : user - 1 < c.table.map.length := by omega
      have he : (c.table.map.filterMap id).length = c.table.map.length := by omega
      have hs : (id c.table.map[user - 1]).isSome := List.filterMap_length_eq_length.mp he _ (List.getElem_mem hi)
      obtain ⟨q, hm⟩ := Option.isSome_iff_exists.mp hs
      have : c.mapped user = some q := by
        unfold Block.mapped
        rw [List.getD_eq_getElem _ _ hi]
        exact hm
      rw [this]
      exact ⟨_, _, rfl⟩

/-- Everything the beginning of a load of 2 to 5 bytes can do (R107 to R109). -/
theorem beginLoad_cases {op : Instr} {s : Nat} {bytes : List Byte} {rep : Byte} {ret : LoadRet} {c c' : Block}
    (h2 : 2 ≤ bytes.length) (h5 : bytes.length ≤ 5) (h : beginLoad op s bytes rep ret c = .ok c') :
    (s % c.slots = 0 ∧ c' = (c.withPayload bytes).goto op (.load .o1 ⟨0, rep, false, none, 0, false⟩ ret)) ∨
    (s % c.slots ≠ 0 ∧ ∃ x r, chooseSlot (s % c.slots) rep c = .ok (x, r) ∧
      c' = ((c.withPayload bytes).withRecycle r).goto op (.load (if x.inPlace then .p2 else .p4) x ret)) := by
  unfold beginLoad at h
  rw [if_neg (by omega)] at h
  have hs : (c.withPayload bytes).slots = c.slots := rfl
  by_cases hu : s % c.slots = 0
  · simp only [hu, if_true] at h
    exact .inl ⟨hu, by simpa using h.symm⟩
  · simp only [hu, if_false] at h
    have hc : chooseSlot (s % c.slots) rep (c.withPayload bytes) = chooseSlot (s % c.slots) rep c := rfl
    rw [hc] at h
    split at h
    · next x r hx => exact .inr ⟨hu, x, r, hx, by simpa using h.symm⟩
    · simp at h

/-- A load context's slot choice always carries the user slot and the repeat count it was given. -/
theorem chooseSlot_user {user : Nat} {rep : Byte} {c : Block} {x : LoadCtx} {r : Option Nat}
    (h : chooseSlot user rep c = .ok (x, r)) : x.user = user ∧ x.rep = rep ∧ x.prev = c.mapped user := by
  rcases chooseSlot_cases h with ⟨q, -, rfl, -⟩ | ⟨-, -, rfl, -⟩ | ⟨-, -, q, hq, rfl, -⟩
  · exact ⟨rfl, rfl, rfl⟩
  · exact ⟨rfl, rfl, rfl⟩
  · exact ⟨rfl, rfl, hq.symm⟩

/-! ### Operations -/

/-- The private statements of each operation. -/
def commandOf : Instr → Command
  | .throttle slot cab speed dir => throttleCommand slot cab speed dir
  | .functionShort cab fByte => functionShortCommand cab fByte
  | .functionLong cab fByte eByte => functionLongCommand cab fByte eByte
  | .accessory addr port activate => accessoryCommand addr port activate
  | .rawPacket argc args => rawPacketCommand argc args
  | .readCv cv cb cbSub => readCvCommand cv cb cbSub
  | .writeCvByte cv value cb cbSub => writeCvByteCommand cv value cb cbSub
  | .writeCvBit cv bit value cb cbSub => writeCvBitCommand cv bit value cb cbSub
  | .writeMainCvByte cab cv value => writeMainCvByteCommand cab cv value
  | .writeMainCvBit cab cv bit value => writeMainCvBitCommand cab cv bit value
  | .printLastPacket => printLastPacketCommand
  | .printCapacity => printCapacityCommand

/-- Every arm of `exec` runs the command of its operation. -/
theorem exec_eq (i : Instr) (s : State) : exec i s = runCommand i (commandOf i) s := by cases i <;> rfl

/-- What an operation's own statements do to a block before they wait again: the command is over, a conversation's
preamble has begun, or a load begins. -/
inductive After (op : Instr) (c : Block) : Block → Prop
  /-- The command is over; the outside has seen `out`, responses and a label. -/
  | done (out : List Event) (en ro : Bool) (ho : ∀ f, Event.emitted f ∉ out)
      (hs : isService op = false → en = c.outEnable ∧ ro = c.svc.restoreOff) :
      After op c
        { c with
          seq := .idle
          outEnable := en
          svc := { c.svc with restoreOff := ro }
          io := { c.io with events := c.io.events ++ out } }
  /-- A conversation's power-on preamble has begun (44_service_mode.md R149). -/
  | preamble (n : Nat) (v : SvcRegs) (hv : v.base = c.svc.base) (hs : isService op = true)
      (hc : c.params.channel = .prog) : After op c { c with seq := .run op (.wp2 n), outEnable := true, svc := v }
  /-- A load begins. -/
  | load (c' : Block) (v : SvcRegs) (s : Nat) (bytes : List Byte) (rep : Byte) (ret : LoadRet)
      (hv : v.base = c.svc.base) (hs : isService op = false → v = c.svc) (hr : rep ≤ 4) (h2 : 2 ≤ bytes.length)
      (h5 : bytes.length ≤ 5) (hp : ∀ lp x, positionOk op (.load lp x ret) = true)
      (h : beginLoad op s bytes rep ret { c with svc := v } = .ok c') : After op c c'

theorem After.ignored (op : Instr) (c : Block) : After op c c.ignore :=
  .done [.ended .ignored] c.outEnable c.svc.restoreOff (by simp) fun _ => ⟨rfl, rfl⟩

theorem After.rejected (op : Instr) (c : Block) : After op c c.rejectPacket := by
  have := After.done (op := op) (c := c) [.response .invalidPacket, .ended .invalidPacket] c.outEnable
    c.svc.restoreOff (by simp) fun _ => ⟨rfl, rfl⟩
  simpa [Block.rejectPacket, Block.endCommand, Block.emit, Block.log] using this

theorem After.ended (op : Instr) (c : Block) : After op c (c.endCommand .ok) :=
  .done [.ended .ok] c.outEnable c.svc.restoreOff (by simp) fun _ => ⟨rfl, rfl⟩

theorem After.answered (op : Instr) (c : Block) (r : Response) : After op c ((c.emit r).endCommand .ok) := by
  have := After.done (op := op) (c := c) [.response r, .ended .ok] c.outEnable c.svc.restoreOff (by simp)
    fun _ => ⟨rfl, rfl⟩
  simpa [Block.endCommand, Block.emit, Block.log] using this

theorem After.finished {op : Instr} (hop : isService op = true) (c : Block) (ok : Bool) (r : Response) :
    After op c (finish ok r c) := by
  by_cases h : c.svc.restoreOff = true
  · have := After.done (op := op) (c := c) [.response r, .ended (if ok then .ok else .ackFail)] false false (by simp)
      (by simp [hop])
    simpa [finish, restoreOutput, h, Block.endCommand, Block.emit, Block.log] using this
  · have := After.done (op := op) (c := c) [.response r, .ended (if ok then .ok else .ackFail)] c.outEnable
      false (by simp) fun _ => ⟨rfl, by simpa using h⟩
    have e : { c.svc with restoreOff := false } = c.svc := by
      have : c.svc.restoreOff = false := by simpa using h
      cases hv : c.svc
      simp_all
    rw [e] at this
    simpa [finish, restoreOutput, h, Block.endCommand, Block.emit, Block.log] using this

theorem cabBytes_length (cab : Nat) : 1 ≤ (cabBytes cab).length ∧ (cabBytes cab).length ≤ 2 := by
  unfold cabBytes
  split <;> simp

/-- What a one-shot builder's start does (42_command_builders.md R127 to R131). -/
theorem startOneShot_after {op : Instr} {admitted : Bool} {payload : List Byte} {c c' : Block}
    (hp : isBuilder op = true) (h2 : 2 ≤ payload.length) (h5 : payload.length ≤ 5)
    (h : startOneShot op admitted payload c = .ok c') : After op c c' := by
  unfold startOneShot at h
  split at h
  · exact .load c' c.svc 0 payload Config.oneShotRepeat .builder rfl (fun _ => rfl) (by decide) h2 h5 (fun _ _ => hp) h
  · obtain rfl : _ = c' := by simpa using h
    exact .ignored op c

/-- What a conversation's start does (44_service_mode.md R146, R149). -/
theorem startService_after {op : Instr} {admitted : Bool} {copy : SvcRegs → SvcRegs} {c c' : Block}
    (hop : isService op = true) (hcopy : ∀ v, (copy v).base = v.base) (h : startService op admitted copy c = .ok c') :
    After op c c' := by
  unfold startService at h
  split at h
  · next hc =>
    have hch : c.params.channel = .prog := by
      have := (Bool.and_eq_true _ _ ▸ hc).1
      simpa using this
    obtain rfl : _ = c' := by simpa using h
    unfold powerPreamble
    split
    · next he =>
      have := After.preamble (op := op) (c := c) Config.pwrWaitWarm
        { copy c.svc with restoreOff := false, waitStart := c.engine.packetsTransmitted } (hcopy c.svc) hop hch
      simpa [beginWait, Block.goto, show c.outEnable = true from he] using this
    · have := After.preamble (op := op) (c := c) Config.pwrWaitCold
        { copy c.svc with restoreOff := true, waitStart := c.engine.packetsTransmitted } (hcopy c.svc) hop hch
      simpa [beginWait, Block.goto] using this
  · obtain rfl : _ = c' := by simpa using h
    exact .ignored op c

/-- What every operation does from Idle. -/
theorem start_after {op : Instr} {c c' : Block} (h : (commandOf op).start c = .ok c') : After op c c' := by
  cases op with
  | throttle slot cab speed dir =>
    change startThrottle slot cab speed dir c = .ok c' at h
    unfold startThrottle at h
    have := cabBytes_length cab.toNat
    split at h
    · refine .load c' c.svc slot.toNat _ 0 .builder rfl (fun _ => rfl) (by decide) ?_ ?_ (fun _ _ => rfl) h <;>
        simp only [throttlePayload, List.length_append, List.length_cons, List.length_nil] <;> omega
    · obtain rfl : _ = c' := by simpa using h
      exact .ignored _ c
  | functionShort cab fByte =>
    have := cabBytes_length cab.toNat
    refine startOneShot_after rfl ?_ ?_ (h : startFunctionShort cab fByte c = .ok c') <;>
      simp only [functionShortPayload, List.length_append, List.length_cons, List.length_nil] <;> omega
  | functionLong cab fByte eByte =>
    have := cabBytes_length cab.toNat
    refine startOneShot_after rfl ?_ ?_ (h : startFunctionLong cab fByte eByte c = .ok c') <;>
      simp only [functionLongPayload, List.length_append, List.length_cons, List.length_nil] <;> omega
  | accessory addr port activate =>
    exact startOneShot_after rfl (by simp [accessoryPayload]) (by simp [accessoryPayload])
      (h : startAccessory addr port activate c = .ok c')
  | rawPacket argc args =>
    change startRawPacket argc args c = .ok c' at h
    unfold startRawPacket at h
    split at h
    · obtain rfl : _ = c' := by simpa using h
      exact .rejected _ c
    split at h
    · obtain rfl : _ = c' := by simpa using h
      exact .rejected _ c
    split at h
    · obtain rfl : _ = c' := by simpa using h
      exact .ignored _ c
    by_cases hb : 2 ≤ (args.tail.map operandByte).length ∧ (args.tail.map operandByte).length ≤ 5
    · exact .load c' c.svc _ _ 0 .builder rfl (fun _ => rfl) (by decide) hb.1 hb.2 (fun _ _ => rfl) h
    · unfold beginLoad at h
      rw [if_pos (by omega)] at h
      obtain rfl : _ = c' := by simpa using h
      exact .ignored _ c
  | readCv cv cb cbSub =>
    change startReadCv cv cb cbSub c = .ok c' at h
    unfold startReadCv at h
    refine startService_after rfl ?_ h
    exact fun _ => rfl
  | writeCvByte cv value cb cbSub =>
    change startWriteCvByte cv value cb cbSub c = .ok c' at h
    unfold startWriteCvByte at h
    refine startService_after rfl ?_ h
    exact fun _ => rfl
  | writeCvBit cv bit value cb cbSub =>
    change startWriteCvBit cv bit value cb cbSub c = .ok c' at h
    unfold startWriteCvBit at h
    refine startService_after rfl ?_ h
    exact fun _ => rfl
  | writeMainCvByte cab cv value =>
    have := cabBytes_length cab.toNat
    refine startOneShot_after rfl ?_ ?_ (h : startWriteMainCvByte cab cv value c = .ok c') <;>
      simp only [mainCvBytePayload, List.length_append, List.length_cons, List.length_nil] <;> omega
  | writeMainCvBit cab cv bit value =>
    have := cabBytes_length cab.toNat
    refine startOneShot_after rfl ?_ ?_ (h : startWriteMainCvBit cab cv bit value c = .ok c') <;>
      simp only [mainCvBitPayload, List.length_append, List.length_cons, List.length_nil] <;> omega
  | printLastPacket =>
    change startPrintLastPacket c = .ok c' at h
    unfold startPrintLastPacket at h
    obtain rfl : _ = c' := by simpa using h
    split
    · exact .answered _ c _
    · exact .ended _ c
  | printCapacity =>
    change startPrintCapacity c = .ok c' at h
    simp only [startPrintCapacity, Except.ok.injEq] at h
    subst h
    exact .answered _ c _

/-- What every operation does after its builder's load. -/
theorem reply_after {op : Instr} {c c' : Block} (h : (commandOf op).reply c = .ok c') : After op c c' := by
  cases op with
  | throttle slot cab speed dir =>
    change replyThrottle slot speed dir c = .ok c' at h
    simp only [replyThrottle, Except.ok.injEq] at h
    subst h
    exact .answered _ c _
  | functionShort | functionLong | accessory | rawPacket | writeMainCvByte | writeMainCvBit =>
    change replyNothing c = .ok c' at h
    simp only [replyNothing, Except.ok.injEq] at h
    subst h
    exact .ended _ c
  | readCv | writeCvByte | writeCvBit | printLastPacket | printCapacity => cases h

/-- What every operation does after the base measurement. -/
theorem based_after {op : Instr} {c c' : Block} (h : (commandOf op).based c = .ok c') : After op c c' := by
  cases op with
  | readCv cv cb cbSub =>
    change basedReadCv cv cb cbSub c = .ok c' at h
    exact .load c' { c.svc with value := 0, bitIdx := 0 } 0 resetPayload 3 (.leg .burst) rfl (fun hn => by cases hn)
      (by decide) (by decide) (by decide) (fun _ _ => rfl) h
  | writeCvByte cv value cb cbSub =>
    change basedWriteCvByte cv value cb cbSub c = .ok c' at h
    exact .load c' c.svc 1 (probeWriteByte c.svc.opCv c.svc.value) 0 (.leg .write) rfl (fun _ => rfl) (by decide)
      (by simp [probeWriteByte]) (by simp [probeWriteByte]) (fun _ _ => rfl) h
  | writeCvBit cv bit value cb cbSub =>
    change basedWriteCvBit cv bit value cb cbSub c = .ok c' at h
    exact .load c' c.svc 1 (probeWriteBit c.svc.opCv (clampedBitValue c) (clampedBit c)) 0 (.leg .write) rfl
      (fun _ => rfl) (by decide) (by simp [probeWriteBit]) (by simp [probeWriteBit]) (fun _ _ => rfl) h
  | throttle | functionShort | functionLong | accessory | rawPacket | writeMainCvByte | writeMainCvBit
  | printLastPacket | printCapacity => cases h

/-- What every operation does after a leg of its conversation. -/
theorem legOver_after {op : Instr} {l : Leg} {ok : Bool} {c c' : Block} (h : (commandOf op).legOver l ok c = .ok c') :
    After op c c' := by
  cases op with
  | readCv cv cb cbSub =>
    change legOverReadCv cv cb cbSub l ok c = .ok c' at h
    cases l with
    | burst =>
      exact .load c' c.svc 1 (probeBit c.svc.opCv c.svc.bitIdx) 0 (.leg .probe) rfl (fun _ => rfl) (by decide)
        (by simp [probeBit]) (by simp [probeBit]) (fun _ _ => rfl) h
    | probe =>
      simp only [legOverReadCv] at h
      split at h
      · exact .load c' (recordBit ok c).svc 0 resetPayload 3 (.leg .burst) rfl (fun hn => by cases hn) (by decide)
          (by decide) (by decide) (fun _ _ => rfl) h
      · exact .load c' (recordBit ok c).svc 1 (probeVerifyByte (recordBit ok c).svc.opCv (recordBit ok c).svc.value) 0
          (.leg .verify) rfl (fun hn => by cases hn) (by decide) (by simp [probeVerifyByte])
          (by simp [probeVerifyByte]) (fun _ _ => rfl) h
    | verify =>
      simp only [legOverReadCv, Except.ok.injEq] at h
      exact h ▸ .finished rfl c ok _
    | write => cases h
    | fallback => cases h
  | writeCvByte cv value cb cbSub =>
    change legOverWriteCvByte cv value cb cbSub l ok c = .ok c' at h
    cases l with
    | write =>
      simp only [legOverWriteCvByte] at h
      split at h
      · simp only [Except.ok.injEq] at h
        exact h ▸ .finished rfl c true _
      · exact .load c' c.svc 1 (probeVerifyByte c.svc.opCv c.svc.value) 0 (.leg .fallback) rfl (fun _ => rfl)
          (by decide) (by simp [probeVerifyByte]) (by simp [probeVerifyByte]) (fun _ _ => rfl) h
    | fallback =>
      simp only [legOverWriteCvByte, Except.ok.injEq] at h
      exact h ▸ .finished rfl c ok _
    | burst => cases h
    | probe => cases h
    | verify => cases h
  | writeCvBit cv bit value cb cbSub =>
    change legOverWriteCvBit cv bit value cb cbSub l ok c = .ok c' at h
    cases l with
    | write =>
      simp only [legOverWriteCvBit] at h
      split at h
      · simp only [Except.ok.injEq] at h
        exact h ▸ .finished rfl c true _
      · exact .load c' c.svc 1 (probeVerifyBit c.svc.opCv (clampedBitValue c) (clampedBit c)) 0 (.leg .fallback) rfl
          (fun _ => rfl) (by decide) (by simp [probeVerifyBit]) (by simp [probeVerifyBit]) (fun _ _ => rfl) h
    | fallback =>
      simp only [legOverWriteCvBit, Except.ok.injEq] at h
      exact h ▸ .finished rfl c ok _
    | burst => cases h
    | probe => cases h
    | verify => cases h
  | throttle | functionShort | functionLong | accessory | rawPacket | writeMainCvByte | writeMainCvBit
  | printLastPacket | printCapacity => cases h

/-! ### Runs of context A -/

/-- A block at which a step of context A on command `op` can be taken. -/
def Block.servesOnly (c : Block) (op : Instr) : Prop := c.seq = .idle ∨ ∃ pos, c.seq = .run op pos

/-- The beginning of a load leaves the command running, or over. -/
theorem beginLoad_serves {op : Instr} {s : Nat} {bytes : List Byte} {rep : Byte} {ret : LoadRet} {c c' : Block}
    (h : beginLoad op s bytes rep ret c = .ok c') : c'.servesOnly op := by
  unfold beginLoad at h
  split at h
  · obtain rfl : _ = c' := by simpa using h
    exact .inl rfl
  · dsimp only at h
    split at h
    · obtain rfl : _ = c' := by simpa using h
      exact .inr ⟨_, rfl⟩
    · split at h
      · obtain rfl : _ = c' := by simpa using h
        exact .inr ⟨_, rfl⟩
      · simp at h

theorem After.serves {op : Instr} {c c' : Block} (h : After op c c') : c'.servesOnly op := by
  cases h with
  | done => exact .inl rfl
  | preamble => exact .inr ⟨_, rfl⟩
  | load _ _ _ _ _ _ _ _ _ _ _ _ h => exact beginLoad_serves h

/-- Everything `thenGoto` can do. -/
theorem thenGoto_cases {op : Instr} {pos : Pos} {r : Except Fault Block} {c' : Block}
    (h : thenGoto op pos r = .ok c') : ∃ c, r = .ok c ∧ c' = c.goto op pos := by
  cases r with
  | ok c => exact ⟨c, rfl, by simpa [thenGoto] using h.symm⟩
  | error e => simp [thenGoto] at h

/-- What follows a load: a step of the operation's own, or the ack detector (41_slot_table_loader.md R113). -/
theorem returnFromLoad_cases {op : Instr} {ret : LoadRet} {c c' : Block}
    (h : returnFromLoad op (commandOf op) ret c = .ok c') :
    ((ret = .builder ∨ ret = .leg .burst) ∧ After op c c') ∨
    (∃ l, ret = .leg l ∧ l ≠ .burst ∧ c' = c.goto op (.ak0 l)) ∨
    (∃ l, ret = .ackTimeout l ∧ c' = c.goto op (.ak1b l)) ∨ (∃ l, ret = .ackConfirm l ∧ c' = c.goto op (.ak6 l)) := by
  cases ret with
  | builder => exact .inl ⟨.inl rfl, reply_after h⟩
  | leg l =>
    cases l with
    | burst => exact .inl ⟨.inr rfl, legOver_after h⟩
    | probe | verify | write | fallback =>
      refine .inr (.inl ⟨_, rfl, by simp, ?_⟩)
      simpa [returnFromLoad] using h.symm
  | ackTimeout l => exact .inr (.inr (.inl ⟨l, rfl, by simpa [returnFromLoad] using h.symm⟩))
  | ackConfirm l => exact .inr (.inr (.inr ⟨l, rfl, by simpa [returnFromLoad] using h.symm⟩))

/-- A sample drawn changes nothing but what the environment still has to answer. -/
theorem drawCurrent_eq (c : Block) :
    ∃ io, (drawCurrent c).2 = { c with io := io } ∧ io.events = c.io.events ∧ io.cmds = c.io.cmds := by
  unfold drawCurrent
  split <;> exact ⟨_, rfl, rfl, rfl⟩

/-- A listed answer of the probe, capped (60_exceptions.md R185). -/
theorem drawCurrent_listed {c : Block} {v : Nat} {vs : List Nat} (h : c.io.currents = v :: vs) :
    drawCurrent c = (min v c.params.curMax, { c with io := { c.io with currents := vs } }) := by
  unfold drawCurrent
  rw [h]

/-- The probe's free value once no answer is listed (R185). -/
theorem drawCurrent_free {c : Block} (h : c.io.currents = []) :
    drawCurrent c =
      (min (Config.freeCurrent c.params.channel c.io.draws) c.params.curMax,
        { c with io := { c.io with draws := c.io.draws + 1 } }) := by
  unfold drawCurrent
  rw [h]

/-- A sample lies in the probe's range (60_exceptions.md R180). -/
theorem drawCurrent_le (c : Block) : (drawCurrent c).1 ≤ c.params.curMax := by
  unfold drawCurrent
  split <;> exact Nat.min_le_right _ _

/-- A tick drawn changes nothing but what the environment still has to answer. -/
theorem drawTick_eq (c : Block) :
    ∃ io, (drawTick c).2 = { c with io := io } ∧ io.events = c.io.events ∧ io.cmds = c.io.cmds := by
  unfold drawTick
  split <;> exact ⟨_, rfl, rfl, rfl⟩

/-- A listed tick (60_exceptions.md R185). -/
theorem drawTick_listed {c : Block} {v : Word} {vs : List Word} (h : c.io.ticks = v :: vs) :
    drawTick c = (v, { c with io := { c.io with ticks := vs } }) := by
  unfold drawTick
  rw [h]

/-- The tick counter's free value once no answer is listed (R185). -/
theorem drawTick_free {c : Block} (h : c.io.ticks = []) :
    drawTick c =
      (Config.freeTick c.params.channel c.io.draws, { c with io := { c.io with draws := c.io.draws + 1 } }) := by
  unfold drawTick
  rw [h]

/-- A sample of the ack detector changes `seq` and what the environment still has to answer (43_ack_detector.md R137). -/
theorem takeSample_eq (op : Instr) (l : Leg) (c : Block) :
    ∃ cur tick io, takeSample op l c = { c with seq := .run op (.ak3 l cur tick), io := io } ∧
      cur ≤ c.params.curMax ∧ io.events = c.io.events ∧ io.cmds = c.io.cmds := by
  obtain ⟨io, e, h1, h2⟩ := drawCurrent_eq c
  have hle := drawCurrent_le c
  unfold takeSample
  dsimp only
  generalize drawCurrent c = d at e hle ⊢
  obtain ⟨v, d⟩ := d
  obtain rfl : d = { c with io := io } := e
  obtain ⟨io', e', h1', h2'⟩ := drawTick_eq { c with io := io }
  generalize drawTick _ = d' at e' ⊢
  obtain ⟨w, d'⟩ := d'
  obtain rfl : d' = { c with io := io' } := e'
  exact ⟨v, w, { io' with sampled := true }, rfl, hle, h1'.trans h1, h2'.trans h2⟩

/-- The current monitor's `check` changes its own accumulator and lets at most a trip be seen (60_exceptions.md R180,
R181). -/
theorem currentCheck_eq (c : Block) :
    ∃ a io out, currentCheck c = { c with acc := a, io := io } ∧ io.events = c.io.events ++ out ∧
      (out = [] ∨ out = [.overcurrent]) ∧ io.cmds = c.io.cmds := by
  obtain ⟨io, e, h1, h2⟩ := drawCurrent_eq c
  unfold currentCheck
  dsimp only
  rw [e]
  split
  · exact ⟨_, { io with events := io.events ++ [.overcurrent] }, [.overcurrent], rfl, by rw [h1], .inr rfl, h2⟩
  · exact ⟨_, io, [], rfl, by rw [h1, List.append_nil], .inl rfl, h2⟩

/-- The record of a load changes `lastLoad` only, and shows at most one response (41_slot_table_loader.md R113). -/
theorem recordLastLoad_eq (x : LoadCtx) (c : Block) :
    ∃ l out, recordLastLoad x c = { c with lastLoad := l, io := { c.io with events := c.io.events ++ out } } ∧
      ∀ f, Event.emitted f ∉ out := by
  unfold recordLastLoad
  dsimp only
  split
  · exact ⟨_, [.response (.lastPacket x.user c.packetBytes x.rep)], rfl, by simp⟩
  · exact ⟨⟨true, x.user, c.payload.k + 1, c.packetBytes, x.rep⟩, [], by simp, by simp⟩

/-- The record of a load that prints nothing, as every caller's does (41_slot_table_loader.md R113). -/
theorem recordLastLoad_silent {x : LoadCtx} {c : Block} (h : x.print = false) :
    recordLastLoad x c =
      { c with lastLoad := ⟨true, x.user, c.payload.k + 1, c.packetBytes, x.rep⟩ } := by
  simp [recordLastLoad, h]

/-- Everything one step of context A on command `op` can do, statement by statement. -/
inductive Micro (op : Instr) (c : Block) : Block → Prop
  | started (c' : Block) (hs : c.seq = .idle) (h : After op c c') : Micro op c c'
  | held (pos : Pos) (hs : c.seq = .run op pos) (h : holding c = true) : Micro op c c
  | o1 (x : LoadCtx) (ret : LoadRet) (hs : c.seq = .run op (.load .o1 x ret)) (hn : c.next = none) :
      Micro op c (c.goto op (.load .o2 x ret))
  | o2 (x : LoadCtx) (ret : LoadRet) (hs : c.seq = .run op (.load .o2 x ret)) (hj : 0 < c.slots) :
      Micro op c ((c.encoded 0).goto op (.load .o3 x ret))
  | o3 (x : LoadCtx) (ret : LoadRet) (hs : c.seq = .run op (.load .o3 x ret)) (hj : 0 < c.slots) :
      Micro op c
        { c.withFlagByte 0 (c.byteAt (flagAddr 0) &&& 0xFE) with
          nextRepeat := x.rep, next := some 0, seq := .run op (.load .o4 x ret) }
  | p2 (x : LoadCtx) (ret : LoadRet) (hs : c.seq = .run op (.load .p2 x ret)) (hn : c.next = none) :
      Micro op c (c.goto op (.load .p3 x ret))
  | p3 (x : LoadCtx) (ret : LoadRet) (hs : c.seq = .run op (.load .p3 x ret)) (hj : x.cand < c.slots) :
      Micro op c
        ((c.withFlagByte x.cand (c.byteAt (flagAddr x.cand) ||| 0x01)).goto op (.load .p4 x ret))
  | p4 (x : LoadCtx) (ret : LoadRet) (hs : c.seq = .run op (.load .p4 x ret)) (hj : x.cand < c.slots) :
      Micro op c ((c.encoded x.cand).goto op (.load .p5 x ret))
  | p5 (x : LoadCtx) (ret : LoadRet) (hs : c.seq = .run op (.load .p5 x ret)) (hn : c.next = none) :
      Micro op c (c.goto op (.load .p6 x ret))
  | p6 (x : LoadCtx) (ret : LoadRet) (hs : c.seq = .run op (.load .p6 x ret)) (hj : x.cand < c.slots) :
      Micro op c
        { (c.withFlagByte x.cand (c.byteAt (flagAddr x.cand) &&& 0xFE)).withMapped x.user x.cand with
          nextRepeat := x.rep, next := some x.cand, seq := .run op (.load .p7 x ret) }
  | p7keep (x : LoadCtx) (ret : LoadRet) (hs : c.seq = .run op (.load .p7 x ret))
      (h : x.inPlace = true ∨ x.prev = none) : Micro op c (c.goto op (.load .p8 x ret))
  | p7retire (x : LoadCtx) (ret : LoadRet) (q : Nat) (hs : c.seq = .run op (.load .p7 x ret))
      (hi : x.inPlace = false) (hq : x.prev = some q) (hj : q < c.slots) :
      Micro op c ((c.withFlagByte q (c.byteAt (flagAddr q) ||| 0x01)).goto op (.load .p8 x ret))
  | p8 (x : LoadCtx) (ret : LoadRet) (hs : c.seq = .run op (.load .p8 x ret)) :
      Micro op c ((raiseMaxLoaded x c).goto op (.load .p9 x ret))
  | loadOver (lp : LoadPos) (x : LoadCtx) (ret : LoadRet) (c' : Block) (hs : c.seq = .run op (.load lp x ret))
      (hl : lp = .o4 ∨ lp = .p9) (h : returnFromLoad op (commandOf op) ret (recordLastLoad x c) = .ok c') :
      Micro op c c'
  | wp2 (n : Nat) (hs : c.seq = .run op (.wp2 n)) (h : n ≤ sinceWait c) : Micro op c (c.goto op (.b2 0 0))
  | b2next (taken sum : Nat) (hs : c.seq = .run op (.b2 taken sum)) (h : taken + 1 < c.params.ackBaseCount) :
      Micro op c ((drawCurrent c).2.goto op (.b2 (taken + 1) (sum + (drawCurrent c).1)))
  | b2last (taken sum : Nat) (c' : Block) (hs : c.seq = .run op (.b2 taken sum))
      (h : c.params.ackBaseCount ≤ taken + 1)
      (ha : After op { (drawCurrent c).2 with
        svc := { (drawCurrent c).2.svc with base := (sum + (drawCurrent c).1) / c.params.ackBaseCount } } c') :
      Micro op c c'
  | ak0 (l : Leg) (hs : c.seq = .run op (.ak0 l)) : Micro op c ((armDetector c).goto op (.ak1 l))
  | ak1 (l : Leg) (hs : c.seq = .run op (.ak1 l)) (h : ackTimedOut c = false) : Micro op c (c.goto op (.ak2 l))
  | ak1timeout (l : Leg) (c' : Block) (hs : c.seq = .run op (.ak1 l)) (ht : ackTimedOut c = true)
      (h : reinstallReset op (.ackTimeout l) c = .ok c') : Micro op c c'
  | ak2 (l : Leg) (hs : c.seq = .run op (.ak2 l)) : Micro op c (takeSample op l c)
  | ak3 (l : Leg) (cur : Nat) (tick : Word) (hs : c.seq = .run op (.ak3 l cur tick))
      (h : (judgeSample c.params c.ack cur tick).ackState ≠ .confirmed) :
      Micro op c (({ c with ack := judgeSample c.params c.ack cur tick } : Block).goto op (.ak1 l))
  | ak3confirmed (l : Leg) (cur : Nat) (tick : Word) (c' : Block) (hs : c.seq = .run op (.ak3 l cur tick))
      (hc : (judgeSample c.params c.ack cur tick).ackState = .confirmed)
      (h : reinstallReset op (.ackConfirm l) { c with ack := judgeSample c.params c.ack cur tick } = .ok c') :
      Micro op c c'
  | ak6 (l : Leg) (hs : c.seq = .run op (.ak6 l)) :
      Micro op c
        { c with ack := { c.ack with armedAt := c.engine.packetsTransmitted }, seq := .run op (.ak7 l) }
  | ak7 (l : Leg) (hs : c.seq = .run op (.ak7 l)) (h : Config.ackLingerPackets ≤ sinceArmed c) :
      Micro op c (c.goto op (.ak8 l))
  | verdict (l : Leg) (st : AckState) (ok : Bool) (c' : Block)
      (hs : c.seq = .run op (.ak1b l) ∧ ok = false ∧ st = .off ∨ c.seq = .run op (.ak8 l) ∧ ok = true ∧ st = .done)
      (h : (commandOf op).legOver l ok (c.withAckState st) = .ok c') : Micro op c c'

/-- Everything `microStep` can do on its own command. -/
theorem microStep_cases {op : Instr} {c c' : Block} (hc : c.servesOnly op)
    (h : microStep op (commandOf op) c = .ok c') : Micro op c c' := by
  rcases hc with hc | ⟨pos, hc⟩
  · simp only [microStep, hc] at h
    exact .started c' hc (start_after h)
  · simp only [microStep, hc] at h
    cases pos with
    | load lp x ret =>
      cases lp <;> simp only [stepAt, loadStep] at h
      case o4 => exact .loadOver .o4 x ret c' hc (.inl rfl) h
      case p9 => exact .loadOver .p9 x ret c' hc (.inr rfl) h
      case o1 | p2 | p5 =>
        split at h <;> rename_i hn <;> obtain rfl : _ = c' := by simpa using h
        · exact .held _ hc (by simpa [holding, hc] using hn)
        · have hn : c.next = none := by simpa using hn
          first
            | exact .o1 x ret hc hn
            | exact .p2 x ret hc hn
            | exact .p5 x ret hc hn
      case o2 =>
        obtain ⟨d, hd, rfl⟩ := thenGoto_cases h
        obtain ⟨hj, rfl⟩ := encodeInto_cases hd
        exact .o2 x ret hc hj
      case p4 =>
        obtain ⟨d, hd, rfl⟩ := thenGoto_cases h
        obtain ⟨hj, rfl⟩ := encodeInto_cases hd
        exact .p4 x ret hc hj
      case o3 =>
        obtain ⟨d, hd, rfl⟩ := thenGoto_cases h
        unfold publishOneShot at hd
        split at hd
        · next e he =>
          obtain ⟨hj, rfl⟩ := clearInvalid_cases he
          obtain rfl : _ = d := by simpa using hd
          exact .o3 x ret hc hj
        · simp at hd
      case p3 =>
        obtain ⟨d, hd, rfl⟩ := thenGoto_cases h
        obtain ⟨hj, rfl⟩ := setInvalid_cases hd
        exact .p3 x ret hc hj
      case p6 =>
        obtain ⟨d, hd, rfl⟩ := thenGoto_cases h
        unfold publishPersistent at hd
        split at hd
        · next e he =>
          obtain ⟨hj, rfl⟩ := clearInvalid_cases he
          obtain rfl : _ = d := by simpa using hd
          exact .p6 x ret hc hj
        · simp at hd
      case p7 =>
        obtain ⟨d, hd, rfl⟩ := thenGoto_cases h
        unfold retirePrevious at hd
        split at hd
        · next hi =>
          obtain rfl : _ = d := by simpa using hd
          exact .p7keep x ret hc (.inl hi)
        · next hi =>
          split at hd
          · next q hq =>
            obtain ⟨hj, rfl⟩ := setInvalid_cases hd
            exact .p7retire x ret q hc (by simpa using hi) hq hj
          · next hq =>
            obtain rfl : _ = d := by simpa using hd
            exact .p7keep x ret hc (.inr hq)
      case p8 =>
        obtain rfl : _ = c' := by simpa using h
        exact .p8 x ret hc
    | wp2 n =>
      simp only [stepAt] at h
      split at h <;> rename_i hn <;> obtain rfl : _ = c' := by simpa using h
      · exact .held _ hc (by simpa [holding, hc] using hn)
      · exact .wp2 n hc (by omega)
    | b2 taken sum =>
      simp only [stepAt, sampleBase] at h
      split at h
      · next hl =>
        obtain rfl : _ = c' := by simpa using h
        exact .b2next taken sum hc hl
      · exact .b2last taken sum c' hc (by omega) (based_after h)
    | ak0 l =>
      obtain rfl : _ = c' := by simpa [stepAt] using h
      exact .ak0 l hc
    | ak2 l =>
      obtain rfl : _ = c' := by simpa [stepAt] using h
      exact .ak2 l hc
    | ak6 l =>
      obtain rfl : _ = c' := by simpa [stepAt] using h
      exact .ak6 l hc
    | ak1 l =>
      simp only [stepAt] at h
      split at h
      · next ht => exact .ak1timeout l c' hc ht h
      · next ht =>
        obtain rfl : _ = c' := by simpa using h
        exact .ak1 l hc (by simpa using ht)
    | ak1b l => exact .verdict l .off false c' (.inl ⟨hc, rfl, rfl⟩) h
    | ak8 l => exact .verdict l .done true c' (.inr ⟨hc, rfl, rfl⟩) h
    | ak3 l cur tick =>
      simp only [stepAt, judge] at h
      split at h
      · next hk => exact .ak3confirmed l cur tick c' hc hk h
      · next hk =>
        obtain rfl : _ = c' := by simpa using h
        exact .ak3 l cur tick hc hk
    | ak7 l =>
      simp only [stepAt] at h
      split at h <;> rename_i hn <;> obtain rfl : _ = c' := by simpa using h
      · exact .held _ hc (by simpa [holding, hc] using hn)
      · exact .ak7 l hc (by omega)

/-- A step of context A leaves the command running, or over (10_state.md R24). -/
theorem microStep_serves {op : Instr} {c c' : Block} (hc : c.servesOnly op)
    (h : microStep op (commandOf op) c = .ok c') : c'.servesOnly op := by
  cases microStep_cases hc h with
  | started _ _ h => exact h.serves
  | held => exact hc
  | loadOver _ _ _ _ _ _ h =>
    rcases returnFromLoad_cases h with ⟨-, ha⟩ | ⟨l, -, -, rfl⟩ | ⟨l, -, rfl⟩ | ⟨l, -, rfl⟩
    · exact ha.serves
    all_goals exact .inr ⟨_, rfl⟩
  | b2last _ _ _ _ _ ha => exact ha.serves
  | ak1timeout _ _ _ _ h => exact beginLoad_serves h
  | ak3confirmed _ _ _ _ _ _ h => exact beginLoad_serves h
  | verdict _ _ _ _ _ h => exact (legOver_after h).serves
  | _ => exact .inr ⟨_, rfl⟩

/-- A burst goes on past a step that reaches no pause point. -/
theorem burst_goes_on {op : Instr} {cmd : Command} {n : Nat} {c c' : Block} (h : microStep op cmd c = .ok c')
    (hp : paused c' = false) : burst op cmd (n + 1) c = burst op cmd n c' := by
  simp [burst, h, hp]

/-- A burst stops at the first step that reaches a pause point. -/
theorem burst_stops {op : Instr} {cmd : Command} {n : Nat} {c c' : Block} (h : microStep op cmd c = .ok c')
    (hp : paused c' = true) : burst op cmd (n + 1) c = .ok c' := by
  simp [burst, h, hp]

/-- A relation that every step of context A on a command gives, and that is reflexive and transitive, holds over a whole
burst of that command. -/
theorem burst_rel {R : Block → Block → Prop} {op : Instr} (refl : ∀ c, R c c)
    (trans : ∀ a b c, R a b → R b c → R a c)
    (micro : ∀ c c', c.servesOnly op → microStep op (commandOf op) c = .ok c' → R c c') {n : Nat} {c c' : Block}
    (hc : c.servesOnly op) (h : burst op (commandOf op) n c = .ok c') : R c c' := by
  induction n generalizing c with
  | zero =>
    obtain rfl : c = c' := by simpa [burst] using h
    exact refl c
  | succ n ih =>
    simp only [burst] at h
    split at h
    · next d hd =>
      have h1 := micro c d hc hd
      split at h
      · obtain rfl : d = c' := by simpa using h
        exact h1
      · exact trans _ _ _ h1 (ih (microStep_serves hc hd) h)
    · simp at h

/-- Everything a command can do to the station, through any reflexive and transitive relation that each step of context A
on it gives: the block in focus moves along the relation, and nothing else moves. -/
theorem exec_rel {R : Block → Block → Prop} {i : Instr} (refl : ∀ c, R c c)
    (trans : ∀ a b c, R a b → R b c → R a c)
    (micro : ∀ c c', c.servesOnly i → microStep i (commandOf i) c = .ok c' → R c c') {s t : State}
    (h : exec i s = .next t) : R s.cur t.cur ∧ t = s.setCur t.cur := by
  rw [exec_eq] at h
  unfold runCommand at h
  split at h
  · obtain rfl : s = t := by simpa using h
    exact ⟨refl _, by simp⟩
  · next hb =>
    have hc : s.cur.servesOnly i := by
      unfold Block.servesOnly
      unfold busyWithOther at hb
      split at hb
      · next hs => exact .inl hs
      · next o p hs =>
        have : o = i := by simpa using hb
        exact .inr ⟨p, this ▸ hs⟩
    obtain ⟨c, hf, rfl⟩ := lift_next h
    refine ⟨?_, by simp⟩
    rw [setCur_cur]
    unfold foreground at hf
    split at hf
    · exact micro _ _ hc hf
    · exact burst_rel refl trans micro hc hf

/-- A command that the block serves answers what its foreground move answers. -/
theorem exec_of_foreground {i : Instr} {s : State} {c' : Block} (hb : busyWithOther i s.cur = false)
    (h : foreground i (commandOf i) s.grain s.cur = .ok c') : exec i s = .next (s.setCur c') := by
  rw [exec_eq]
  unfold runCommand
  rw [hb, h]
  rfl

/-- A single step of a running command. -/
theorem exec_of_stepAt {i : Instr} {s : State} {c' : Block} {pos : Pos} (hg : s.grain = .micro)
    (hs : s.cur.seq = .run i pos) (h : stepAt i (commandOf i) pos s.cur = .ok c') : exec i s = .next (s.setCur c') := by
  refine exec_of_foreground (by simp [busyWithOther, hs]) ?_
  simp [hg, foreground, microStep, hs, h]

/-- A command never refuses: it goes on or reaches a fault. -/
theorem exec_next_or_fault (i : Instr) (s : State) : (∃ t, exec i s = .next t) ∨ ∃ f, exec i s = .fault f := by
  rw [exec_eq]
  unfold runCommand
  split
  · exact .inl ⟨s, rfl⟩
  · cases foreground i (commandOf i) s.grain s.cur with
    | ok c => exact .inl ⟨_, rfl⟩
    | error f => exact .inr ⟨f, rfl⟩

/-! ### Steps -/

/-- The state in which the move that `step` picks is made: the focus and the list of moves are settled, no block has
changed. -/
theorem pickTurn_block (s : State) (ch : Channel) : (pickTurn s).2.block ch = s.block ch := by
  unfold pickTurn
  split <;> cases ch <;> rfl

/-- Everything a step can do to the blocks, through any reflexive and transitive relation that each kind of move gives:
both blocks move along the relation. -/
theorem step_rel {R : Block → Block → Prop} (refl : ∀ c, R c c) (trans : ∀ a b c, R a b → R b c → R a c)
    (micro : ∀ i c c', c.servesOnly i → microStep i (commandOf i) c = .ok c' → R c c')
    (take : ∀ c ws, R c (c.withCmds ws)) (ign : ∀ c, c.seq = .idle → R c c.ignore)
    (engine : ∀ c c', engineStep c = .ok c' → R c c') (out : ∀ c v, R c (hostSetOutEnable v c))
    (config : ∀ c v, R c (hostConfigWrite v c)) (check : ∀ c, R c (currentCheck c)) {s t : State}
    (reset : (pickTurn s).1 = .powerOnReset → ∀ c, R c (powerOnReset c)) (h : step s = .next t) (ch : Channel) :
    R (s.block ch) (t.block ch) := by
  have both : ∀ (u : State) (c' : Block), (∀ k, u.block k = s.block k) → R u.cur c' →
      R (s.block ch) ((u.setCur c').block ch) := by
    intro u c' hu hr
    by_cases hf : ch = u.focus
    · subst hf
      have : (u.setCur c').block u.focus = c' := setBlock_block u u.focus c'
      rw [this, ← hu]
      exact hr
    · have : ch = u.focus.other := by
        revert hf
        cases ch <;> cases u.focus <;> simp [Channel.other]
      subst this
      rw [setCur_other, hu]
      exact refl _
  have hpick := pickTurn_block s
  unfold step at h
  generalize (pickTurn s).2 = u at h hpick
  generalize (pickTurn s).1 = turn at h reset
  cases turn with
  | foreground g =>
    simp only [takeTurn, foregroundTurn] at h
    have hpick' : ∀ k, ({ u with grain := g } : State).block k = s.block k := by
      intro k
      rw [← hpick k]
      cases k <;> rfl
    generalize ({ u with grain := g } : State) = u' at h hpick'
    split at h
    · next i pos hi =>
      obtain ⟨hr, ht⟩ := exec_rel refl trans (micro i) h
      rw [ht]
      exact both u' _ hpick' hr
    · next hi =>
      split at h
      · obtain rfl : u' = t := by simpa using h
        rw [hpick']
        exact refl _
      · next w ws hw =>
        simp only [acceptCommand] at h
        split at h
        · next i hd =>
          obtain ⟨hr, ht⟩ := exec_rel refl trans (micro i) h
          rw [ht, setCur_setCur]
          rw [setCur_cur] at hr
          exact both u' _ hpick' (trans _ _ _ (take _ _) hr)
        · obtain rfl : _ = t := by simpa using h
          exact both u' _ hpick' (trans _ _ _ (take _ _) (ign _ hi))
  | engine =>
    obtain ⟨c, hc, rfl⟩ := lift_next h
    exact both u c hpick (engine _ _ hc)
  | setOutEnable v =>
    obtain rfl : _ = t := by simpa [takeTurn] using h
    exact both u _ hpick (out _ _)
  | configWrite v =>
    obtain rfl : _ = t := by simpa [takeTurn] using h
    exact both u _ hpick (config _ _)
  | currentCheck =>
    obtain rfl : _ = t := by simpa [takeTurn] using h
    exact both u _ hpick (check _)
  | powerOnReset =>
    obtain rfl : _ = t := by simpa [takeTurn] using h
    exact both u _ hpick (reset rfl _)

end Sys2Proof.Machine
end

