-- ==== Sys2Proof/Tests/Slice0.lean ====
section
/-! SUPPORT. Small tests against the vectors of 95_test_vectors.md, and a state that meets the hypotheses of each
statement that has some. -/

namespace Sys2Proof.Tests

open Sys2Proof.Machine

/-! ## Small states -/

/-- The parameters of the vectors' PROG block: N = 2, threshold 30 (95_test_vectors.md 4.1), two base samples. -/
def params (ch : Channel) : Params := ⟨ch, 2, 2, 30, 1023, 1000, 14, false, 0⟩

/-- A block right after reset. -/
def fresh (ch : Channel) : Block := Block.reset (params ch)

/-- Two blocks after reset, PROG in focus. -/
def base : State := ⟨fresh .main, fresh .prog, .prog, .burst, []⟩

/-- The block in focus replaced. -/
def onProg (c : Block) : State := base.setCur c

/-- A context A turn of one micro-step. -/
def micro (s : State) : State := { s with grain := .micro }

/-- PROG running a command at a position. -/
def running (i : Instr) (p : Pos) : Block := { fresh .prog with seq := .run i p }

/-- A command word at PROG's port and context A's move next. -/
def atPort (c : Block) (w : CommandWord) : State := { onProg (c.withCmds [w]) with turns := [(.prog, .foreground .burst)] }

/-- A published reset packet in slot `j`, the hand-off of that slot pending. -/
def handed (j : Nat) : Block :=
  let c := fresh .prog
  { c with
    table :=
      { c.table with
        mem := c.table.mem.setBytes (slotAddr j 0) [0, 0, 0, 0x10, 0, 0, 0]
        bitCounts := c.table.bitCounts.set j 28 }
    next := some j
    nextRepeat := 4 }

/-- Both persistent slots loaded for user slots 1 and 2, no hand-off pending. -/
def rotating : Block :=
  let c := fresh .prog
  { c with
    table :=
      { c.table with
        mem := (c.table.mem.setBytes 9 [0, 0, 0, 0x10, 0, 0, 0]).setBytes 18 [0, 0, 0, 0x10, 0, 0, 0]
        bitCounts := [0, 28, 28]
        map := [some 1, some 2]
        maxLoaded := 2 } }

/-- A property of the next state. -/
def nextIs (o : Host.Outcome State Fault Refusal) (p : State → Bool) : Bool :=
  match o with
  | .next s => p s
  | .fault _ => false
  | .refused _ => false

/-- A property of an answered block. -/
def okIs (r : Except Fault Block) (p : Block → Bool) : Bool :=
  match r with
  | .ok c => p c
  | .error _ => false

/-! ## Well-formed terms -/

theorem test_wf_refuses_missing_word : (Instr.rawPacket 4 [1, 3, 0x3F]).wf = false := by decide
theorem test_wf_refuses_extra_word : (Instr.rawPacket 3 [1, 3, 0x3F, 0x80]).wf = false := by decide
theorem test_wf_refuses_seven_words : (Instr.rawPacket 7 [1, 2, 3, 4, 5, 6, 7]).wf = false := by decide
theorem test_wf_admits_all_counts :
    (Instr.rawPacket 0 []).wf = true ∧ (Instr.rawPacket 15 [1, 2, 3, 4, 5, 6]).wf = true := by decide

/-! ## Command words, written out from 30_encoding.md R70 and R71: operands from the last to the first, then the 16-bit
header of 95_test_vectors.md 4.2 to 4.6 -/

theorem test_decode_throttle :
    decode 0x00000001000000400000002A000000030401#208 = .ok (.throttle 3 42 64 1) := by rfl
theorem test_decode_functionShort : decode 0x00000090000000030202#208 = .ok (.functionShort 3 0x90) := by rfl
theorem test_decode_functionLong : decode 0x00000005000000DE000000030302#208 = .ok (.functionLong 3 0xDE 5) := by rfl
theorem test_decode_accessory : decode 0x0000000100000002000000180303#208 = .ok (.accessory 24 2 1) := by rfl
theorem test_decode_rawPacket :
    decode 0x000000800000003F00000003000000010404#208 = .ok (.rawPacket 4 [1, 3, 0x3F, 0x80]) := by rfl
theorem test_decode_readCv : decode 0x0000000800000007000000010305#208 = .ok (.readCv 1 7 8) := by rfl
theorem test_decode_writeCvByte :
    decode 0x000000090000000700000055000000080406#208 = .ok (.writeCvByte 8 0x55 7 9) := by rfl
theorem test_decode_writeCvBit :
    decode 0x00000004000000030000000100000002FFFFFFFF0507#208 = .ok (.writeCvBit (-1) 2 1 3 4) := by rfl
theorem test_decode_writeMainCvByte :
    decode 0x0000005500000008000000030308#208 = .ok (.writeMainCvByte 3 8 0x55) := by rfl
theorem test_decode_writeMainCvBit :
    decode 0x00000001000000020000001D000000030409#208 = .ok (.writeMainCvBit 3 29 2 1) := by rfl
theorem test_decode_printLastPacket : decodeTableWord 16 0x000A = some .printLastPacket := by rfl
theorem test_decode_printCapacity : decodeTableWord 16 0x000B = some .printCapacity := by rfl
theorem test_decode_refuses_by_name :
    decode 0x100B#208 = .error .reservedField ∧ decode 0x000C#208 = .error .reservedOpcode ∧
      decode 0x0402#208 = .error .wrongArgc := ⟨rfl, rfl, rfl⟩

/-! ## One step from reset for table rows -/

theorem test_step_runs_fetched_throttle :
    nextIs (step (State.reset.withFetchWord 16 0x0401)) (fun s => s.prog.io.events == [.ended .ignored]) = true := by
  decide
theorem test_step_runs_fetched_functionShort :
    nextIs (step (State.reset.withFetchWord 16 0x0202)) (fun s => s.prog.next == some 0 && s.prog.nextRepeat == 4) =
      true := by decide
theorem test_step_runs_fetched_capacity :
    nextIs (step (State.reset.withFetchWord 16 0x000B))
      (fun s => s.prog.io.events == [.response (.capacity 2), .ended .ok]) = true := by decide

/-! ## Vectors of 95_test_vectors.md -/

/-- Section 3.1, published frames. -/
theorem test_encoder_vectors :
    publishedFrame [0x12, 0x34, 0x56, 0x78, 0x08] =
        ⟨46, [0x09, 0x0D, 0x0A, 0xC7, 0x80, 0x44, 0x00, 0x00, 0x00]⟩ ∧
      publishedFrame [0xE7, 0xFF, 0xEF, 0xFF, 0xEF, 0xE7] =
        ⟨55, [0x73, 0xBF, 0xDD, 0xEF, 0xF7, 0x7B, 0x9E, 0x00, 0x00]⟩ ∧
      publishedFrame [0, 0, 0, 0, 0, 0] = ⟨55, [0, 0, 0, 0, 0, 0, 2, 0, 0]⟩ ∧
      publishedFrame [0xAA, 0xAA, 0x00] = ⟨28, [0x55, 0x2A, 0x80, 0x10, 0, 0, 0, 0, 0]⟩ := by decide

/-- Section 3.2.1. -/
theorem test_cab_vectors :
    cabBytes 127 = [0x7F] ∧ cabBytes 128 = [0xC0, 0x80] ∧ cabBytes 3000 = [0xCB, 0xB8] ∧
      cabBytes 10239 = [0xE7, 0xFF] := by decide

/-- Section 3.2.2. -/
theorem test_speed_vectors :
    speedByte 0 1 = 0x80 ∧ speedByte 1 0 = 0x02 ∧ speedByte 64 1 = 0xC1 ∧ speedByte 126 1 = 0xFF ∧
      speedByte 200 0 = 0x7F ∧ speedByte (-1) 0 = 0x01 ∧ speedByte (-5) 1 = 0x81 := by decide

/-- Section 3.2.3. -/
theorem test_field_vectors :
    fShort 0x40 = 0x80 ∧ fShort 0xFF = 0xBF ∧ fLong 0x00 = 0xDE ∧ fLong 0xFF = 0xDF ∧
      accessoryPayload 1 2 0 = [0x81, 0xFC] ∧ accessoryPayload 64 0 0 = [0x80, 0xE8] ∧
      accessoryPayload 511 3 1 = [0xBF, 0x8F] ∧ (cvHi 257, cvLo 257) = (1, 0) ∧ (cvHi 1024, cvLo 1024) = (3, 0xFF) := by
  decide

/-- Section 3.8. -/
theorem test_service_packet_vectors :
    probeBit 1024 7 = [0x7B, 0xFF, 0xEF] ∧ probeWriteByte 257 0 = [0x7D, 0x00, 0x00] ∧
      probeWriteBit 29 1 2 = [0x78, 0x1C, 0xFA] ∧ probeVerifyBit 29 0 7 = [0x78, 0x1C, 0xE7] := by decide

/-- Section 3.6, V9 to V11 on two slots: a repeat first, then a hand-off, then the rotation. -/
theorem test_engine_vectors :
    okIs (engineSteps 1 { rotating with next := some 2, engine := { rotating.engine with cur := .slot 0, repeatLeft := 1 } })
        (fun c => c.engine.cur == .slot 0 && c.engine.repeatLeft == 0 && c.next == some 2) = true ∧
      okIs (engineSteps 2 { rotating with next := some 2, engine := { rotating.engine with cur := .slot 0, repeatLeft := 1 } })
        (fun c => c.engine.cur == .slot 2 && c.engine.rot == 2 && c.next == none) = true ∧
      okIs (engineSteps 1 { rotating with engine := { rotating.engine with rot := 2 } })
        (fun c => c.engine.cur == .slot 1 && c.engine.rot == 1) = true := by decide

/-- Section 3.7, A10 and A11: one tick short, one tick long; and the bounds themselves. -/
theorem test_ack_vectors :
    [1124, 1125, 2125, 2126].map (fun t =>
        (judgeSample (params .prog) ⟨.seekFall, 0, 0, 0, 100⟩ 129 t).ackState) =
      [.seekRise, .confirmed, .confirmed, .seekRise] := by decide

/-! ## One small test per command (95_test_vectors.md 3.3 and 4) -/

theorem test_throttle :
    nextIs (exec (.throttle 1 3000 (-1) 0) base)
      (fun s => s.cur.slotFrame 1 == ⟨46, [0x65, 0xAE, 0x07, 0xE0, 0x12, 0x6C, 0, 0, 0]⟩ && s.cur.mapped 1 == some 1 &&
        s.cur.next == some 1 && s.cur.io.events == [.response (.throttle 1 0 0), .ended .ok]) = true := by decide
theorem test_functionShort :
    nextIs (exec (.functionShort 3 64) base)
      (fun s => s.cur.slotFrame 0 == ⟨28, [0x01, 0xA0, 0x10, 0x70, 0, 0, 0, 0, 0]⟩ && s.cur.nextRepeat == 4) = true := by
  decide
theorem test_functionLong :
    nextIs (exec (.functionLong 3000 0 255) base)
      (fun s => s.cur.slotFrame 0 == ⟨46, [0x65, 0xAE, 0x1B, 0xCF, 0xF2, 0x94, 0, 0, 0]⟩) = true := by decide
theorem test_accessory_reversed :
    nextIs (exec (.accessory 24 1 1) (onProg { fresh .prog with accessoriesReversed := true }))
      (fun s => s.cur.slotFrame 0 == ⟨28, [0x4C, 0x3E, 0x8C, 0x50, 0, 0, 0, 0, 0]⟩) = true := by decide
/-- 4.3: with the pool full, user slot 1 is rewritten in place. -/
theorem test_rawPacket_in_place :
    nextIs (exec (.rawPacket 4 [1, 3, 0x3F, 0x9F]) (onProg rotating))
      (fun s => s.cur.slotFrame 1 == ⟨37, [0x01, 0x8F, 0xD3, 0xEA, 0x38, 0, 0, 0, 0]⟩ && s.cur.nextRepeat == 0 &&
        s.cur.table.map == [some 1, some 2] && s.cur.next == some 1) = true := by decide
/-- 4.5: the cold preamble turns the output on and waits. -/
theorem test_readCv_starts :
    nextIs (exec (.readCv 1 7 8) base)
      (fun s => s.cur.outEnable && s.cur.svc.restoreOff && holding s.cur && s.cur.svc.opCv == 1) = true := by decide
theorem test_readCv_on_main_is_ignored :
    nextIs (exec (.readCv 1 7 8) { base with focus := .main }) (fun s => s.cur.io.events == [.ended .ignored]) = true := by
  decide
/-- 4.4: the acknowledged fallback reports the value and turns the output off again. -/
theorem test_writeCvByte_ends :
    let c := running (.writeCvByte 8 85 7 8) (.ak8 .fallback)
    nextIs (exec (.writeCvByte 8 85 7 8) (onProg
        { c with outEnable := true, svc := { c.svc with restoreOff := true, value := 85, opCv := 8, opCb := 7, opCbSub := 8 } }))
      (fun s => !s.cur.outEnable && s.cur.io.events == [.response (.cv 7 8 8 85), .ended .ok]) = true := by decide
/-- 4.6: no ack on the fallback either. -/
theorem test_writeCvBit_fails :
    let c := running (.writeCvBit 29 2 1 0 0) (.ak1b .fallback)
    nextIs (exec (.writeCvBit 29 2 1 0 0) (onProg { c with svc := { c.svc with opCv := 29, opBit := 2, opValue := 1 } }))
      (fun s => s.cur.io.events == [.response (.cvBit 0 0 29 2 (-1)), .ended .ackFail]) = true := by decide
theorem test_writeMainCvByte :
    nextIs (exec (.writeMainCvByte 3 8 85) base) (fun s => s.cur.payload.p.take 5 == [3, 0xEC, 7, 85, 0xBD]) = true := by
  decide
/-- `bit` 9 and `value` 5 are clamped. -/
theorem test_writeMainCvBit_clamps :
    nextIs (exec (.writeMainCvBit 3 29 9 5) base) (fun s => s.cur.payload.p.take 4 == [3, 0xE8, 0x1C, 0xFF]) = true := by
  decide
theorem test_printLastPacket_before_a_load :
    nextIs (exec .printLastPacket base) (fun s => s.cur.io.events == [.ended .ok]) = true := by decide
theorem test_printCapacity :
    nextIs (exec .printCapacity base) (fun s => s.cur.io.events == [.response (.capacity 2), .ended .ok]) = true := by
  decide

/-! ## Sound blocks -/

theorem reset_frame_complete : Frame.complete resetFrame := ⟨[0, 0, 0], ⟨by decide, by decide, by decide⟩, by decide⟩
theorem idle_frame_complete : Frame.complete idleFrame := ⟨[0xFF, 0x00, 0xFF], ⟨by decide, by decide, by decide⟩, by decide⟩

/-- A block whose slot table is that of reset and that is in no load. -/
theorem pool_at_reset (c : Block) (hq : c.params.n = 2) (ht : c.table = (fresh .prog).table) (hn : c.next = none)
    (hs : c.PoolOk = (c.table.map.length = c.params.n ∧ c.table.maxLoaded ≤ c.params.n ∧
      (∀ j, c.next = some j → j ≤ c.params.n) ∧ 1 ≤ c.params.n ∧ c.PoolSettled)) : c.PoolOk := by
  rw [hs, ht, hq, hn]
  refine ⟨rfl, Nat.zero_le _, fun j h => (nomatch h), by omega, ?_⟩
  unfold Block.PoolSettled
  rw [ht]
  exact List.Perm.refl _

theorem fresh_pool (ch : Channel) : (fresh ch).PoolOk := pool_at_reset _ rfl rfl rfl rfl

theorem fresh_shape (ch : Channel) : (fresh ch).ShapeOk := by cases ch <;> (unfold Block.ShapeOk; decide)

theorem fresh_invalid (ch : Channel) (j : Nat) (h : j ≤ 2) : (fresh ch).invalid j = true := by
  cases ch <;> interval_cases j <;> decide

theorem fresh_sound (ch : Channel) : (fresh ch).Sound := by
  refine ⟨fresh_shape ch, ⟨⟨List.Pairwise.nil, fun x h => nomatch h⟩, fun x h => nomatch h⟩, trivial, fresh_pool ch,
    ⟨?_, ?_, ?_, ?_⟩, ?_, ?_, ?_, trivial⟩
  · intro j h; simp [fresh, Block.reset] at h
  · intro s j h1 h2 h; change s ≤ 2 at h2; interval_cases s <;> cases h
  · intro r h; simp [fresh, Block.reset] at h
  · exact fun j _ h _ => fresh_invalid ch j h
  · exact fun j h hv => absurd ((fresh_invalid ch j h).symm.trans hv) (by decide)
  · exact idle_frame_complete
  · intro f h; simp [fresh, Block.reset] at h

/-- A one-shot is handed off and not adopted yet. -/
theorem handed_pool : (handed 0).PoolOk :=
  ⟨by decide, by decide, fun j h => by cases h; decide, by decide, List.Perm.refl _⟩

theorem handed_sound : (handed 0).Sound := by
  refine ⟨by unfold Block.ShapeOk; decide, ⟨by decide, by decide⟩, trivial, handed_pool, ⟨?_, ?_, ?_, ?_⟩, ?_, ?_, ?_, trivial⟩
  · intro j h; cases h; decide
  · intro s j h1 h2 h; change s ≤ 2 at h2; interval_cases s <;> cases h
  · intro r h; cases h
  · intro j h0 h _; change j ≤ 2 at h; change 0 < j at h0; interval_cases j <;> decide
  · intro j h hv
    change j ≤ 2 at h
    interval_cases j
    · exact reset_frame_complete
    · exact absurd hv (by decide)
    · exact absurd hv (by decide)
  · exact idle_frame_complete
  · intro f h; cases h

theorem rotating_pool : rotating.PoolOk :=
  ⟨by decide, by decide, fun j h => by simp [rotating, fresh, Block.reset] at h, by decide, List.Perm.refl _⟩

/-- The same with the hand-off of slot 2 pending, and with the in-place load of user slot 1 waiting for it. -/
theorem waiting_sound :
    Block.Sound
      { rotating with
        next := some 2
        seq := .run (.throttle 1 3 0 0) (.load .p2 ⟨1, 0, false, some 1, 1, true⟩ .builder) } := by
  have settled : ∀ q : Option Nat, mappedValid rotating q := by
    intro q s j h1 h2 h _
    change s ≤ 2 at h2
    interval_cases s
    · cases h; decide
    · cases h; decide
  refine ⟨by unfold Block.ShapeOk; decide, ⟨by decide, by decide⟩, ⟨by decide, by decide⟩,
    ⟨by decide, by decide, fun j h => by cases h; decide, by decide, rfl, ⟨⟨by decide, by decide, by decide, by decide,
      fun _ => rfl, rfl⟩, rfl, List.Perm.refl _⟩⟩, ⟨?_, settled none, ?_, ?_⟩, ?_, ?_, ?_, trivial⟩
  · intro j h; cases h; decide
  · intro r h; cases h
  · intro j h0 h _; change j ≤ 2 at h; change 2 < j at h0; omega
  · intro j h hv
    change j ≤ 2 at h
    interval_cases j
    · exact absurd hv (by decide)
    · exact reset_frame_complete
    · exact reset_frame_complete
  · exact idle_frame_complete
  · intro f h; cases h

theorem rotating_shape : rotating.ShapeOk := by unfold Block.ShapeOk; decide

theorem ready_base : base.readyForBuilder := ⟨rfl, rfl, rfl, fresh_shape .prog, fresh_pool .prog⟩

theorem ready_rotating : (onProg rotating).readyForBuilder := ⟨rfl, rfl, rfl, rotating_shape, rotating_pool⟩

/-- An outcome whose next state has a property is a next state. -/
theorem next_of {o : Host.Outcome State Fault Refusal} {p : State → Bool} (h : nextIs o p = true) :
    ∃ t, o = .next t := by
  cases o with
  | next s => exact ⟨s, rfl⟩
  | fault f => cases h
  | refused r => cases h

/-! ## The hypotheses of the statements can be met -/

theorem witness_DecodeInvertsEncode : (Instr.rawPacket 15 [1, 2, 3, 4, 5, 6]).wf = true ∧ (Instr.readCv 0 0 0).wf = true :=
  ⟨rfl, rfl⟩

theorem witness_EncodeKeepsDecodedFields :
    decode 0x0F04#208 = .ok (.rawPacket 15 [0, 0, 0, 0, 0, 0]) ∧ decode 0x0000000004#208 = .ok (.rawPacket 0 []) :=
  ⟨rfl, rfl⟩

theorem witness_DecodeRefusesExactlyReservedWords :
    (∃ e, decode 0xF00B#208 = .error e) ∧ reservedWord 0xF00B#208 ∧ (∃ e, decode 0x010B#208 = .error e) ∧
      reservedWord 0x010B#208 ∧ reservedWord 0x0000#208 ∧ reservedWord 0x000C#208 :=
  ⟨⟨_, rfl⟩, .inl (by decide), ⟨_, rfl⟩, .inr (.inr (.inr (by decide))), .inr (.inl (by decide)),
    .inr (.inr (.inl (by decide)))⟩

theorem witness_StepRunsDecodedCommand :
    decode 0x000B#208 = .ok .printCapacity ∧
      (let s := atPort (fresh .prog) 0x000B
       s.turns = (.prog, .foreground .burst) :: [] ∧ (s.block .prog).seq = .idle ∧
        (s.block .prog).io.cmds = 0x000B :: []) ∧
      (let s : State := { atPort (fresh .prog) 0x000B with turns := [], focus := .main }
       s.turns = [] ∧ .prog = s.focus.other ∧ (s.block .prog).seq = .idle ∧ (s.block .prog).io.cmds = 0x000B :: [] ∧
        (s.block .prog).io.sampled = false) :=
  ⟨rfl, ⟨rfl, rfl, rfl⟩, rfl, rfl, rfl, rfl, rfl⟩

theorem witness_StepResumesRunningCommand :
    let s := atPort (running (.readCv 1 0 0) (.wp2 3)) 0x000B
    s.turns = (.prog, .foreground .burst) :: [] ∧ (s.block .prog).seq = .run (.readCv 1 0 0) (.wp2 3) := ⟨rfl, rfl⟩

theorem witness_ReservedWordIsIgnored :
    let s := atPort (fresh .prog) 0x000C
    s.turns = (.prog, .foreground .burst) :: [] ∧ (s.block .prog).seq = .idle ∧
      (s.block .prog).io.cmds = 0x000C :: [] ∧ reservedWord 0x000C :=
  ⟨rfl, rfl, rfl, .inr (.inr (.inl (by decide)))⟩

theorem witness_BusyBlockTurnsCommandAway :
    (onProg (running (.readCv 1 0 0) (.wp2 3))).cur.seq = .run (.readCv 1 0 0) (.wp2 3) ∧
      Instr.printCapacity ≠ .readCv 1 0 0 := ⟨rfl, by decide⟩

theorem witness_OutsideMovesWriteTheirOwnRegister :
    let s := fun (c : Block) (t : Turn) => ({ onProg c with turns := [(.prog, t)] } : State)
    (s (fresh .prog) (.setOutEnable true)).turns = (.prog, .setOutEnable true) :: [] ∧
      ((s (fresh .prog) (.configWrite true)).block .prog).seq = .idle ∧
      ((s (running .printCapacity (.wp2 3)) (.configWrite true)).block .prog).seq ≠ .idle ∧
      (let c := fresh .prog
       ((s { c with io := { c.io with currents := [1024] } } .currentCheck).block .prog).io.currents = 1024 :: []) :=
  ⟨rfl, rfl, by decide, rfl⟩

theorem witness_ResetSlotsAreBlank : 0 ≤ (params .prog).n ∧ 2 ≤ (params .prog).n := by decide

theorem witness_IdleUntilTheFirstLoad :
    let s : State := { onProg (running (.functionShort 3 0) (.load .o2 ⟨0, 4, false, none, 0, false⟩ .builder)) with
      turns := [(.prog, .foreground .micro)] }
    let b : State := { base with turns := [(.prog, .foreground .burst)] }
    quiet (fresh .prog) ∧
      (quiet (s.block .prog) ∧ (∃ t, step s = .next t) ∧ (pickTurn s).2.focus = .prog ∧
        (pickTurn s).1 = .foreground .micro ∧ ¬publishes (s.block .prog)) ∧
      quiet (b.block .prog) ∧ (pickTurn b).1 = .foreground .burst ∧ ∃ t, step b = .next t ∧ (t.block .prog).next = none ∧
        (t.block .prog).table.maxLoaded = 0 :=
  ⟨⟨rfl, rfl, by decide⟩, ⟨⟨rfl, rfl, by decide⟩, next_of (p := fun _ => true) (by decide), rfl, rfl, id⟩,
    ⟨rfl, rfl, by decide⟩, rfl, _, rfl, rfl, rfl⟩

theorem witness_PowerOnResetIsTotal :
    let s : State := { onProg (handed 0) with turns := [(.prog, .powerOnReset)] }
    s.turns = (.prog, .powerOnReset) :: [] := rfl

theorem witness_CabAddressRoundTrip : 127 ≤ 10239 ∧ 128 ≤ 10239 ∧ 10239 ≤ 10239 := by decide

theorem witness_OperandByteFields :
    (1 ≤ 1 ∧ (-1 : Int) < 0 ∧ (0 : Int) = 0 ∧ (0 : Int) < 126 ∧ (0 : Int) < 127) ∧ 511 ≤ 511 ∧ 3 ≤ 3 := by decide

theorem witness_ServicePacketFields :
    1 ≤ (1 : Word).toInt ∧ (1 : Word).toInt ≤ 1024 ∧ 1 ≤ (1024 : Word).toInt ∧ (1024 : Word).toInt ≤ 1024 ∧ 7 ≤ 7 := by
  decide

theorem witness_EncoderClosedForm :
    3 ≤ [0xFF, 0x00, (0xFF : Byte)].length ∧ [0xFF, 0x00, (0xFF : Byte)].length ≤ 6 ∧
      (List.replicate 6 (0xFF : Byte)).length ≤ 6 := by decide

theorem witness_EncoderDecodingLaw :
    2 ≤ [0xFF, (0x00 : Byte)].length ∧ 2 ≤ (List.replicate 5 (0xFF : Byte)).length ∧
      (List.replicate 5 (0xFF : Byte)).length ≤ 5 := by decide

theorem witness_BitsPastTheFrameAreZero :
    (9 * [0xFF, 0x00, (0xFF : Byte)].length + 1 ≤ 28 ∧ 28 < 72) ∧
      9 * (List.replicate 6 (0xFF : Byte)).length + 1 ≤ 55 ∧ 71 < 72 := by decide

theorem witness_EncoderWritesOnlyItsSlot :
    let c := fresh .prog
    let d := ({ c with payload := { c.payload with k := 5 } } : Block)
    (0 ≤ c.params.n ∧ 2 ≤ c.params.n ∧ c.table.bitCounts.length = c.slots ∧ c.payload.k < c.payload.p.length) ∧
      d.payload.k < d.payload.p.length ∧ d.payload.k ≤ 5 := by decide

theorem witness_SlotRamAccess :
    let v := List.replicate 9 (1 : Byte)
    let c := fresh .prog
    (1 ≤ v.length ∧ 18 % 9 + v.length ≤ 9 ∧ 18 + v.length ≤ 9 * (c.params.n + 1)) ∧
      (1 ≤ 1 ∧ 26 % 9 + 1 ≤ 9 ∧ 26 + 1 ≤ 9 * (c.params.n + 1)) ∧
      ¬(1 ≤ v.length ∧ 17 % 9 + v.length ≤ 9 ∧ 17 + v.length ≤ 9 * (c.params.n + 1)) ∧
      ¬(1 ≤ v.length ∧ 27 % 9 + v.length ≤ 9 ∧ 27 + v.length ≤ 9 * (c.params.n + 1)) := by decide

theorem witness_EngineWritesOnlyItsRegisters :
    ((∃ c', engineStep rotating = .ok c') ∧ ∃ c', engineStep (handed 0) = .ok c') ∧
      ({ onProg rotating with turns := [(.prog, .engine)] } : State).turns = (.prog, .engine) :: [] ∧
      (let s := fun c : Block => ({ onProg c with focus := .main } : State)
       ((s rotating).turns = [] ∧ .prog = (s rotating).focus.other ∧ ((s rotating).block .prog).seq = .idle ∧
          ((s rotating).block .prog).io.cmds = []) ∧
        (running (.readCv 1 0 0) (.wp2 3)).seq = .run (.readCv 1 0 0) (.wp2 3) ∧
        holding (running (.readCv 1 0 0) (.wp2 3)) = true ∧
        (takeSample (.readCv 1 0 0) .probe (fresh .prog)).io.sampled = true) :=
  ⟨⟨⟨_, rfl⟩, _, rfl⟩, rfl, ⟨rfl, rfl, rfl, rfl⟩, rfl, by decide, rfl⟩

theorem witness_RepeatThenAdoption :
    (let c := ({ rotating with engine := { rotating.engine with cur := .slot 0, repeatLeft := 1 } } : Block)
     c.engine.cur = .slot 0 ∧ 0 < c.engine.repeatLeft) ∧
      (¬((handed 0).engine.cur = .slot 0 ∧ 0 < (handed 0).engine.repeatLeft) ∧ (handed 0).next = some 0 ∧
        (handed 2).next = some 2 ∧ 2 ≤ (handed 2).params.n) := by decide

theorem witness_OneShotIsSentOnePlusRepeatTimes :
    ¬((handed 0).engine.cur = .slot 0 ∧ 0 < (handed 0).engine.repeatLeft) ∧ (handed 0).next = some 0 := by decide

theorem witness_RotationSendsTheFirstValidSlot :
    let c :=
      ({ rotating with
        engine := { rotating.engine with rot := 1 }
        table := { rotating.table with mem := rotating.table.mem.set 24 1 } } : Block)
    ¬(c.engine.cur = .slot 0 ∧ 0 < c.engine.repeatLeft) ∧ c.next = none ∧ c.table.maxLoaded ≤ c.params.n ∧
      rotationOrder c = [2] ++ 1 :: [] ∧ (∀ i ∈ [2], c.invalid i = true) ∧ c.invalid 1 = false := by decide

theorem witness_IdleFallback :
    let c := ({ fresh .prog with table := { (fresh .prog).table with maxLoaded := 2 } } : Block)
    ¬(c.engine.cur = .slot 0 ∧ 0 < c.engine.repeatLeft) ∧ c.next = none ∧ c.table.maxLoaded ≤ c.params.n ∧
      ∀ j, 1 ≤ j → j ≤ c.table.maxLoaded → c.invalid j = true := by
  refine ⟨by decide, by decide, by decide, fun j h1 h2 => ?_⟩
  change j ≤ 2 at h2
  interval_cases j <;> rfl

theorem witness_HandOffWaitIsBounded :
    let c := handed 0
    let d := ({ c with engine := { c.engine with cur := .slot 0, repeatLeft := 4 } } : Block)
    (c.next = some 0 ∧ 0 ≤ c.params.n) ∧ d.next = some 0 ∧ d.RepeatsOk ∧ 4 ≤ d.engine.repeatLeft.toNat :=
  ⟨by decide, by decide, ⟨by decide, by decide, trivial⟩, by decide⟩

theorem witness_PacketWaitEndsAfterExactlyN :
    let c := running (.readCv 1 0 0) (.wp2 20)
    c.seq = .run (.readCv 1 0 0) (.wp2 20) ∧ c.svc.waitStart = c.engine.packetsTransmitted ∧ 20 ≤ 20 ∧ 0 ≤ 20 ∧
      c.table.maxLoaded ≤ c.params.n ∧ ∀ j, c.next = some j → j ≤ c.params.n :=
  ⟨by decide, by decide, by decide, by decide, by decide, fun j h => nomatch (h : none = some j)⟩

theorem witness_ThrottleCompletes :
    base.readyForBuilder ∧ (onProg rotating).readyForBuilder ∧ ¬outside 1 1 base.cur.params.n ∧
      ¬outside 2 1 base.cur.params.n ∧ ¬outside 0 0 10239 ∧ ¬outside 10239 0 10239 ∧ ¬outside 1 0 1 :=
  ⟨ready_base, ready_rotating, by unfold outside; decide⟩

theorem witness_FunctionsComplete :
    base.readyForBuilder ∧ ¬outside 0 0 10239 ∧ ¬outside 10239 0 10239 ∧ ¬outside 0 0 255 ∧ ¬outside 255 0 255 :=
  ⟨ready_base, by unfold outside; decide⟩

theorem witness_AccessoryCompletes :
    base.readyForBuilder ∧ ¬outside 0 0 511 ∧ ¬outside 511 0 511 ∧ ¬outside 3 0 3 ∧ ¬outside 0 0 1 ∧ ¬outside 1 0 1 :=
  ⟨ready_base, by unfold outside; decide⟩

theorem witness_MainCvWritesComplete :
    base.readyForBuilder ∧ ¬outside 10239 0 10239 ∧ ¬outside 1 1 1024 ∧ ¬outside 1024 1 1024 ∧ ¬outside 255 0 255 :=
  ⟨ready_base, by unfold outside; decide⟩

theorem witness_RawPacketCompletes :
    base.readyForBuilder ∧ (2 ≤ [0, (255 : Word)].length ∧ ∀ b ∈ [0, (255 : Word)], ¬outside b 0 255) ∧
      ((List.replicate 5 (255 : Word)).length ≤ 5 ∧ ∀ b ∈ List.replicate 5 (255 : Word), ¬outside b 0 255) ∧
      ¬outside 0 0 base.cur.params.n ∧ ¬outside 2 0 base.cur.params.n ∧ (2 : Word) ≠ 0 := by
  have h0 : ¬outside 0 0 255 := by unfold outside; decide
  have h255 : ¬outside 255 0 255 := by unfold outside; decide
  refine ⟨ready_base, ⟨by decide, fun b hb => ?_⟩, ⟨by decide, fun b hb => ?_⟩, by unfold outside; decide⟩
  · rcases List.mem_pair.mp hb with rfl | rfl
    · exact h0
    · exact h255
  · exact List.eq_of_mem_replicate hb ▸ h255

theorem witness_RawPacketRejectsBadPackets :
    base.cur.seq = .idle ∧ (2#4).toNat < 3 ∧ 6 < (7#4).toNat ∧ ∃ b ∈ [(1 : Word), 256, 0].tail, outside b 0 255 :=
  ⟨rfl, by decide, by decide, 256, by decide, by unfold outside; decide⟩

theorem witness_RefusedOperandsAreIgnored :
    base.cur.seq = .idle ∧
      (∀ i ∈ [Instr.throttle 0 0 0 0, .throttle 3 0 0 0, .throttle 1 10240 0 0, .throttle 1 0 0 2,
          .functionShort (-1) 0, .functionShort 0 256, .functionLong 0 0 256, .accessory 512 0 0, .accessory 0 4 0,
          .accessory 0 0 2, .readCv 0 0 0, .readCv 1025 0 0, .writeCvByte 1 256 0 0,
          .writeCvBit 0 0 0 0 0, .writeMainCvByte 0 1 256, .writeMainCvBit 0 0 0 0],
        refusedOperands base.cur.params i) ∧
      refusedOperands base.cur.params (.rawPacket 3 [3, 0, 255]) ∧ refusedOperands (fresh .main).params (.readCv 1 0 0) := by
  have h0 : ¬outside 0 0 255 := by unfold outside; decide
  have h255 : ¬outside 255 0 255 := by unfold outside; decide
  refine ⟨rfl, ?_, ⟨by decide, by decide, fun b hb => ?_, by unfold outside; decide⟩, .inl rfl⟩
  rotate_left
  · rcases List.mem_pair.mp hb with rfl | rfl
    · exact h0
    · exact h255
  intro i hi
  simp only [List.mem_cons, List.not_mem_nil, or_false] at hi
  rcases hi with rfl | rfl | rfl | rfl | rfl | rfl | rfl | rfl | rfl | rfl | rfl | rfl | rfl | rfl | rfl | rfl <;>
    (unfold refusedOperands outside; decide)

theorem witness_ReadoutsComplete : base.cur.seq = .idle := rfl

theorem witness_LoadsWaitForTheHandOff :
    let s := onProg (handed 0)
    let r := onProg { rotating with next := some 2 }
    (s.grain = .burst ∧ s.cur.seq = .idle ∧ s.cur.next = some 0 ∧ s.cur.ShapeOk ∧ s.cur.PoolOk) ∧
      (r.grain = .burst ∧ r.cur.seq = .idle ∧ r.cur.next = some 2 ∧ r.cur.ShapeOk ∧ r.cur.PoolOk) ∧
      ¬outside 10239 0 10239 ∧ ¬outside 255 0 255 ∧ ¬outside 1 1 s.cur.params.n ∧ ¬outside 2 1 s.cur.params.n ∧
      ¬outside 1 0 1 :=
  ⟨⟨rfl, rfl, rfl, handed_sound.1, handed_pool⟩,
    ⟨rfl, rfl, rfl, waiting_sound.1, by decide, by decide, waiting_sound.2.2.2.1.2.2.1, by decide, List.Perm.refl _⟩,
    by unfold outside; decide⟩

theorem witness_ConversationsStartWithThePreamble :
    base.cur.seq = .idle ∧ base.cur.params.channel = .prog ∧ ¬outside 1 1 1024 ∧ ¬outside 1024 1 1024 ∧
      ¬outside 255 0 255 := ⟨rfl, rfl, by unfold outside; decide⟩

theorem witness_BaseCurrentIsTheMean :
    let c := running (.readCv 1 0 0) (.b2 0 0)
    let d := ({ c with io := { c.io with currents := [100, 2000, 5] } } : Block)
    1 ≤ d.params.ackBaseCount ∧ [100, 2000].length = d.params.ackBaseCount ∧ d.io.currents = [100, 2000] ++ [5] ∧
      d.seq = .run (.readCv 1 0 0) (.b2 0 0) := ⟨by decide, by decide, rfl, rfl⟩

theorem witness_AckJudgement :
    let q := params .prog
    let rise := (⟨.seekRise, 0, 0, 0, 100⟩ : AckRegs)
    let fall := (⟨.seekFall, 0, 0, 0, 100⟩ : AckRegs)
    let pulse := fun tick : Word => (tick - fall.upTick).toNat
    (rise.ackState = .seekRise ∧ q.ackSampleThreshold < 131 - rise.ackBase ∧ 130 - rise.ackBase ≤ q.ackSampleThreshold) ∧
      (fall.ackState = .seekFall ∧ q.ackSampleThreshold ≤ 130 - fall.ackBase ∧
        129 - fall.ackBase < q.ackSampleThreshold) ∧
      (1125 ≤ pulse 1125 ∧ pulse 1125 ≤ 2125 ∧ pulse 2125 ≤ 2125 ∧ pulse 1124 < 1125 ∧ 2125 < pulse 2126) := by
  decide

theorem witness_AckWindowAndLinger :
    let i := Instr.readCv 1 0 0
    let c := running i (.ak1 .probe)
    let d := fun (n : Word) (p : Pos) =>
      ({ c with
        seq := .run i p
        ack := { c.ack with ackState := .seekRise }
        engine := { c.engine with packetsTransmitted := n } } : Block)
    let s := fun (n : Word) (p : Pos) => micro (onProg (d n p))
    (s 8 (.ak1 .probe)).grain = .micro ∧ isService i = true ∧ (d 8 (.ak1 .probe)).seq = .run i (.ak1 .probe) ∧
      ((d 8 (.ak1 .probe)).engine.packetsTransmitted - c.ack.armedAt).toNat < 9 ∧
      9 ≤ ((d 9 (.ak1 .probe)).engine.packetsTransmitted - c.ack.armedAt).toNat ∧
      (d 9 (.ak1 .probe)).ack.ackState = .seekRise ∧ (s 9 (.ak1 .probe)).cur.PoolOk ∧
      ((d 2 (.ak7 .probe)).engine.packetsTransmitted - c.ack.armedAt).toNat < 3 ∧
      3 ≤ ((d 3 (.ak7 .probe)).engine.packetsTransmitted - c.ack.armedAt).toNat :=
  ⟨rfl, rfl, rfl, by decide, by decide, rfl, pool_at_reset _ rfl rfl rfl rfl, by decide, by decide⟩

/-- The other clauses: the load's end, AK0, AK6, AK2 with answers listed and with free values, AK3 both ways. -/
theorem witness_AckWindowAndLinger_draws :
    let i := Instr.readCv 1 0 0
    let x := (⟨1, 0, false, none, 1, false⟩ : LoadCtx)
    let c := running i (.ak2 .probe)
    let d := ({ c with io := { c.io with currents := [2000], ticks := [7] } } : Block)
    let e := ({ running i (.ak3 .probe 129 1125) with ack := ⟨.seekFall, 0, 0, 0, 100⟩ } : Block)
    (x.print = false ∧ (running i (.load .p9 x (.leg .probe))).seq = .run i (.load .p9 x (.leg .probe)) ∧
        Leg.probe ≠ .burst) ∧
      ((running i (.ak0 .probe)).seq = .run i (.ak0 .probe) ∧ (running i (.ak6 .probe)).seq = .run i (.ak6 .probe)) ∧
      (∃ io io', drawnCurrent d 1023 io ∧ drawnTick .prog io 7 io') ∧
      (∃ v tick io io', drawnCurrent c v io ∧ drawnTick .prog io tick io') ∧
      ((judgeSample e.params e.ack 129 1125).ackState = .confirmed ∧ e.PoolOk) ∧
      (judgeSample e.params e.ack 130 1125).ackState ≠ .confirmed := by
  intro i x c d e
  refine ⟨⟨rfl, rfl, by decide⟩, ⟨rfl, rfl⟩, ⟨{ d.io with currents := [] }, { d.io with currents := [], ticks := [] }, ?_⟩,
    ⟨_, _, _, _, ⟨nofun, fun _ => ⟨rfl, rfl⟩⟩, nofun, fun _ => ⟨rfl, rfl⟩⟩,
    ⟨by decide, pool_at_reset _ rfl rfl rfl rfl⟩, by decide⟩
  refine ⟨⟨fun w ws h => ?_, nofun⟩, fun w ws h => ?_, nofun⟩
  · obtain ⟨rfl, rfl⟩ : 2000 = w ∧ [] = ws := by simpa using (show [2000] = w :: ws from h)
    exact ⟨by decide, rfl⟩
  · obtain ⟨rfl, rfl⟩ : (7 : Word) = w ∧ [] = ws := by simpa using (show [(7 : Word)] = w :: ws from h)
    exact ⟨rfl, rfl⟩

theorem witness_ReadCvRecordsEachBit :
    let c := fun (b : Nat) (p : Pos) =>
      ({ running (.readCv 1 0 0) p with svc := { (fresh .prog).svc with bitIdx := b } } : Block)
    ((micro (onProg (c 6 (.ak8 .probe)))).grain = .micro ∧ (micro (onProg (c 6 (.ak8 .probe)))).cur.PoolOk ∧
        (c 6 (.ak8 .probe)).svc.bitIdx < 7) ∧
      (micro (onProg (c 7 (.ak1b .probe)))).cur.PoolOk ∧ (c 7 (.ak1b .probe)).svc.bitIdx = 7 ∧
      (c 7 (.ak1b .probe)).seq = .run (.readCv 1 0 0) (if false then .ak8 .probe else .ak1b .probe) :=
  ⟨⟨rfl, pool_at_reset _ rfl rfl rfl rfl, by decide⟩, pool_at_reset _ rfl rfl rfl rfl, rfl, rfl⟩

/-- The last of two base samples of each conversation, the sample a free value, and the burst's end of READ_CV. -/
theorem witness_last_base_sample :
    (∀ i ∈ [Instr.readCv 1 0 0, .writeCvByte 8 85 7 8, .writeCvBit 29 2 1 0 0],
        let c := running i (.b2 1 100)
        (micro (onProg c)).grain = .micro ∧ c.seq = .run i (.b2 1 100) ∧ c.params.ackBaseCount ≤ 1 + 1 ∧ c.PoolOk ∧
          ∃ v io, drawnCurrent c v io) ∧
      (let x := (⟨0, 3, false, none, 0, false⟩ : LoadCtx)
       let c := running (.readCv 1 0 0) (.load .o4 x (.leg .burst))
       x.print = false ∧ c.seq = .run (.readCv 1 0 0) (.load .o4 x (.leg .burst)) ∧ c.PoolOk) := by
  refine ⟨fun i _ => ⟨rfl, rfl, by decide +revert, pool_at_reset _ rfl rfl rfl rfl, _, _, nofun, fun _ => ⟨rfl, rfl⟩⟩,
    rfl, rfl, rfl, Nat.zero_le _, fun j h => (nomatch (show none = some j from h)), by decide, rfl, rfl, List.Perm.refl _⟩

theorem witness_ReadCvCompletes :
    (onProg (running (.readCv 1 0 0) (.ak8 .verify))).cur.seq = .run (.readCv 1 0 0) (.ak8 .verify) ∧
      (onProg (running (.readCv 1 0 0) (.ak1b .verify))).cur.seq = .run (.readCv 1 0 0) (.ak1b .verify) := ⟨rfl, rfl⟩

theorem witness_WriteCvByteCompletes :
    let i := Instr.writeCvByte 8 85 7 8
    (onProg (running i (.ak8 .write))).cur.seq = .run i (.ak8 .write) ∧
      (onProg (running i (.ak1b .fallback))).cur.seq = .run i (.ak1b .fallback) ∧
      (micro (onProg (running i (.ak1b .write)))).grain = .micro ∧
      (micro (onProg (running i (.ak1b .write)))).cur.PoolOk := ⟨rfl, rfl, rfl, pool_at_reset _ rfl rfl rfl rfl⟩

theorem witness_WriteCvBitCompletes :
    let i := Instr.writeCvBit 29 2 1 0 0
    (onProg (running i (.ak8 .fallback))).cur.seq = .run i (.ak8 .fallback) ∧
      (onProg (running i (.ak1b .fallback))).cur.seq = .run i (.ak1b .fallback) ∧
      (micro (onProg (running i (.ak1b .write)))).grain = .micro ∧
      (micro (onProg (running i (.ak1b .write)))).cur.PoolOk := ⟨rfl, rfl, rfl, pool_at_reset _ rfl rfl rfl rfl⟩

theorem witness_CommandsLeaveTheRestAlone :
    (∃ t, exec (.throttle 1 3 10 1) base = .next t) ∧ ∃ t, exec (.readCv 1 0 0) base = .next t :=
  ⟨next_of (p := fun _ => true) (by decide), next_of (p := fun _ => true) (by decide)⟩

theorem witness_BuildersLeaveServiceModeAlone :
    isService (.throttle 1 3 10 1) = false ∧ base.cur.PositionOk ∧
      (∃ t, exec (.throttle 1 3 10 1) base = .next t) := ⟨rfl, trivial, next_of (p := fun _ => true) (by decide)⟩

theorem witness_MicroStepStoresOnlyWhereItsStatementSays :
    let x := (⟨0, 4, false, none, 0, false⟩ : LoadCtx)
    (micro (onProg (running (.functionShort 3 0) (.load .o2 x .builder)))).grain = .micro ∧
      (∃ t, exec (.functionShort 3 0) (micro (onProg (running (.functionShort 3 0) (.load .o2 x .builder)))) = .next t) ∧
      ¬storesTo (running (.functionShort 3 0) (.load .o2 x .builder)) 9 ∧
      ¬writesLengthOf (running (.functionShort 3 0) (.load .o2 x .builder)) 1 :=
  ⟨rfl, next_of (p := fun _ => true) (by decide), fun h => absurd h.2 (by decide), fun h => nomatch (h : 1 = 0)⟩

theorem witness_BurstIsARunOfMicroSteps :
    ∃ c', foreground (.functionShort 3 0) (functionShortCommand 3 0) .burst (fresh .prog) = .ok c' := by
  obtain ⟨t, h⟩ := next_of (o := exec (.functionShort 3 0) base) (p := fun _ => true) (by decide)
  revert h
  change base.lift (foreground (.functionShort 3 0) (functionShortCommand 3 0) .burst (fresh .prog)) = .next t → _
  cases foreground (.functionShort 3 0) (functionShortCommand 3 0) .burst (fresh .prog) with
  | ok c => exact fun _ => ⟨c, rfl⟩
  | error e => exact nofun

theorem witness_BlocksShareNoState :
    let s : State := { base with turns := [(.prog, .engine)] }
    let s' : State := { base with main := running .printCapacity (.wp2 1), turns := [(.prog, .engine), (.main, .engine)] }
    s.turns = (.prog, .engine) :: [] ∧ s'.turns = (.prog, .engine) :: [(.main, .engine)] ∧
      s.block .prog = s'.block .prog ∧ s.main ≠ s'.main := ⟨rfl, rfl, rfl, by decide⟩

theorem base_steps : ∃ t, step (atPort (fresh .prog) 0x00000003000000030202) = .next t :=
  next_of (p := fun _ => true) (by decide)

theorem witness_StepKeepsMemory :
    (atPort (fresh .prog) 0x00000003000000030202).Both Block.MemoryOk ∧
      ∃ t, step (atPort (fresh .prog) 0x00000003000000030202) = .next t :=
  ⟨⟨(fresh_sound .main).2.1, (fresh_sound .prog).2.1⟩, base_steps⟩

theorem witness_StepKeepsRegisterRanges :
    let s := atPort (fresh .prog) 0x00000003000000030202
    s.Both Block.RepeatsOk ∧ s.Both Block.CurrentsOk ∧ s.main.params.wf = true ∧ s.prog.params.wf = true ∧
      ∃ t, step s = .next t :=
  ⟨⟨⟨by decide, by decide, trivial⟩, by decide, by decide, trivial⟩,
    ⟨⟨by decide, by decide, trivial⟩, by decide, by decide, trivial⟩, rfl, rfl, base_steps⟩

theorem witness_StepKeepsPool :
    let s := atPort (fresh .prog) 0x00000003000000030202
    s.Both Block.PoolOk ∧ ∃ t, step s = .next t := ⟨⟨fresh_pool .main, fresh_pool .prog⟩, base_steps⟩

theorem witness_StepKeepsFlags :
    let s := atPort (fresh .prog) 0x00000003000000030202
    s.Both (fun c => c.ShapeOk ∧ c.PoolOk ∧ c.FlagsOk) ∧ ∃ t, step s = .next t :=
  ⟨⟨⟨fresh_shape .main, fresh_pool .main, (fresh_sound .main).2.2.2.2.1⟩,
    fresh_shape .prog, fresh_pool .prog, (fresh_sound .prog).2.2.2.2.1⟩, base_steps⟩

theorem witness_SoundStationStepsSafely :
    (onProg (handed 0)).ChannelsOk ∧ (onProg (handed 0)).Both Block.Sound :=
  ⟨⟨rfl, rfl⟩, fresh_sound .main, handed_sound⟩

theorem witness_HandOffIsNeverOverwritten :
    let c :=
      ({ rotating with
        next := some 2
        seq := .run (.throttle 1 3 0 0) (.load .p2 ⟨1, 0, false, some 1, 1, true⟩ .builder) } : Block)
    (onProg c).cur.Sound ∧ (onProg c).cur.next = some 2 ∧ ∃ t, exec (.throttle 1 3 0 0) (onProg c) = .next t :=
  ⟨waiting_sound, rfl, next_of (p := fun _ => true) (by decide)⟩

theorem witness_MaxLoadedNeverDecreases :
    (pickTurn (atPort (fresh .prog) 0x00000003000000030202)).1 ≠ .powerOnReset ∧
      ∃ t, step (atPort (fresh .prog) 0x00000003000000030202) = .next t := ⟨by decide, base_steps⟩

end Sys2Proof.Tests
end

section
/-! A move of a block as a function of that block alone, and the step of the station as that function lifted: from this
the two blocks share no state (00_scope.md R4; 60_exceptions.md R186). -/

namespace Sys2Proof.Machine

/-! ### The moves of one block -/

/-- What running command `i` with grain `g` makes of a block: the part of `runCommand` that reads no other block. -/
def commandMove (g : Grain) (i : Instr) (c : Block) : Except Fault Block :=
  if busyWithOther i c then .ok c else foreground i (commandOf i) g c

/-- What a move of context A with grain `g` makes of a block (60_exceptions.md R184). -/
def foregroundMove (g : Grain) (c : Block) : Except Fault Block :=
  match c.seq, c.io.cmds with
  | .run i _, _ => commandMove g i c
  | .idle, [] => .ok c
  | .idle, w :: rest =>
    match decode w with
    | .ok i => commandMove g i (c.withCmds rest)
    | .error _ => .ok (c.withCmds rest).ignore

/-- What a listed move makes of the block it is a move of. -/
def blockMove : Turn → Block → Except Fault Block
  | .foreground g, c => foregroundMove g c
  | .engine, c => engineStep c
  | .setOutEnable v, c => .ok (hostSetOutEnable v c)
  | .configWrite v, c => .ok (hostConfigWrite v c)
  | .currentCheck, c => .ok (currentCheck c)
  | .powerOnReset, c => .ok (powerOnReset c)

/-! ### The station's move is the block's move, lifted -/

@[simp] theorem setCur_lift (s : State) (c : Block) (r : Except Fault Block) : (s.setCur c).lift r = s.lift r := by
  cases r <;> simp

theorem exec_eq_lift (i : Instr) (s : State) : exec i s = s.lift (commandMove s.grain i s.cur) := by
  rw [exec_eq, runCommand, commandMove]
  split <;> simp

theorem foregroundTurn_eq_lift (s : State) : foregroundTurn s = s.lift (foregroundMove s.grain s.cur) := by
  unfold foregroundTurn foregroundMove
  cases s.cur.seq with
  | run i pos => exact exec_eq_lift i s
  | idle =>
    cases s.cur.io.cmds with
    | nil => simp
    | cons w rest =>
      simp only [acceptCommand]
      cases decode w with
      | ok i => simp [exec_eq_lift]
      | error e => simp

/-- A move on a state: the block in focus makes its own move, whatever the rest of the state is; only the grain may be
set beside it. -/
theorem takeTurn_eq_lift (t : Turn) (s : State) :
    ∃ g, takeTurn t s = ({ s with grain := g } : State).lift (blockMove t s.cur) := by
  cases t with
  | foreground g => exact ⟨g, foregroundTurn_eq_lift { s with grain := g }⟩
  | engine => exact ⟨s.grain, rfl⟩
  | setOutEnable v => exact ⟨s.grain, rfl⟩
  | configWrite v => exact ⟨s.grain, rfl⟩
  | currentCheck => exact ⟨s.grain, rfl⟩
  | powerOnReset => exact ⟨s.grain, rfl⟩

/-! ### A listed move -/

theorem moving_block (s : State) (ch : Channel) (g : Grain) (rest : List (Channel × Turn)) (k : Channel) :
    (s.moving ch g rest).block k = s.block k := by
  cases k <;> rfl

/-- With a move of `ch` listed, a step is the move of that block, lifted to the station with `ch` in focus. -/
theorem step_eq_lift {s : State} {ch : Channel} {t : Turn} {rest : List (Channel × Turn)}
    (h : s.turns = (ch, t) :: rest) : ∃ g, step s = (s.moving ch g rest).lift (blockMove t (s.block ch)) := by
  simp only [step, pickTurn, h]
  exact takeTurn_eq_lift t (s.moving ch s.grain rest)

/-- Where the listed move of a block succeeds, the step puts its result in place and keeps the other block. -/
theorem step_of_blockMove_ok {s : State} {ch : Channel} {t : Turn} {rest : List (Channel × Turn)} {c : Block}
    (h : s.turns = (ch, t) :: rest) (hc : blockMove t (s.block ch) = .ok c) :
    ∃ u, step s = .next u ∧ u.block ch = c ∧ u.block ch.other = s.block ch.other := by
  obtain ⟨g, hg⟩ := step_eq_lift h
  rw [hc, lift_ok] at hg
  exact ⟨_, hg, setBlock_block _ ch c, (setBlock_other _ ch c).trans (moving_block s ch g rest ch.other)⟩

/-- Where the listed move of a block reaches a fault, so does the step. -/
theorem step_of_blockMove_error {s : State} {ch : Channel} {t : Turn} {rest : List (Channel × Turn)} {f : Fault}
    (h : s.turns = (ch, t) :: rest) (hf : blockMove t (s.block ch) = .error f) : step s = .fault f := by
  obtain ⟨g, hg⟩ := step_eq_lift h
  rw [hg, hf, lift_error]

/-- Settles O52: both steps lift the same move of the same block. -/
theorem blocksShareNoState : Obligations.BlocksShareNoState := by
  intro s s' ch t rest rest' hs hs' hb
  cases hm : blockMove t (s.block ch) with
  | ok c =>
    obtain ⟨u, hu, hmoved, hother⟩ := step_of_blockMove_ok hs hm
    obtain ⟨u', hu', hmoved', hother'⟩ := step_of_blockMove_ok hs' (hb ▸ hm)
    exact .inl ⟨u, u', hu, hu', hmoved.trans hmoved'.symm, hother, hother'⟩
  | error f => exact .inr ⟨f, step_of_blockMove_error hs hm, step_of_blockMove_error hs' (hb ▸ hm)⟩

end Sys2Proof.Machine
end

section
/-! The running command goes on, and what no command writes (10_state.md R24, R33 to R37, R42, R46, R47). -/

namespace Sys2Proof.Machine

/-! ### A running command goes on -/

/-- Settles O6: the listed move is context A's, and a running block takes no word from its port. -/
theorem stepResumesRunningCommand : Obligations.StepResumesRunningCommand := by
  intro s ch g rest i pos hturns hseq
  have hstep : step s = foregroundTurn (s.moving ch g rest) := by
    simp only [step, pickTurn, hturns, takeTurn]
    rfl
  have hcur : (s.moving ch g rest).cur.seq = .run i pos := by
    rw [State.cur, moving_block]
    exact hseq
  rw [hstep, foregroundTurn, hcur]

/-! ### What a step of context A may not write -/

/-- From `c` to `c'` nothing has changed of what is not the foreground's to write: the parameters, the waveform engine,
the configuration, the current monitor's accumulator and the host's words at the port. -/
structure Block.RestKept (c c' : Block) : Prop where
  params : c'.params = c.params
  engine : c'.engine = c.engine
  accessoriesReversed : c'.accessoriesReversed = c.accessoriesReversed
  acc : c'.acc = c.acc
  cmds : c'.io.cmds = c.io.cmds

theorem Block.RestKept.refl (c : Block) : c.RestKept c := ⟨rfl, rfl, rfl, rfl, rfl⟩

theorem Block.RestKept.trans {a b c : Block} (hab : a.RestKept b) (hbc : b.RestKept c) : a.RestKept c where
  params := hbc.params.trans hab.params
  engine := hbc.engine.trans hab.engine
  accessoriesReversed := hbc.accessoriesReversed.trans hab.accessoriesReversed
  acc := hbc.acc.trans hab.acc
  cmds := hbc.cmds.trans hab.cmds

/-- The beginning of a load writes the payload, `recycleReg` and `seq` only. -/
theorem beginLoad_restKept {op : Instr} {s : Nat} {bytes : List Byte} {rep : Byte} {ret : LoadRet} {c c' : Block}
    (h2 : 2 ≤ bytes.length) (h5 : bytes.length ≤ 5) (h : beginLoad op s bytes rep ret c = .ok c') : c.RestKept c' := by
  rcases beginLoad_cases h2 h5 h with ⟨-, rfl⟩ | ⟨-, x, r, -, rfl⟩ <;> exact ⟨rfl, rfl, rfl, rfl, rfl⟩

theorem reinstallReset_restKept {op : Instr} {ret : LoadRet} {c c' : Block} (h : reinstallReset op ret c = .ok c') :
    c.RestKept c' :=
  beginLoad_restKept (by decide) (by decide) h

theorem After.restKept {op : Instr} {c c' : Block} (h : After op c c') : c.RestKept c' := by
  cases h with
  | done => exact ⟨rfl, rfl, rfl, rfl, rfl⟩
  | preamble => exact ⟨rfl, rfl, rfl, rfl, rfl⟩
  | load _ v _ _ _ _ _ _ _ h2 h5 _ hload =>
    have hcopy : c.RestKept { c with svc := v } := ⟨rfl, rfl, rfl, rfl, rfl⟩
    exact hcopy.trans (beginLoad_restKept h2 h5 hload)

theorem drawCurrent_restKept (c : Block) : c.RestKept (drawCurrent c).2 := by
  obtain ⟨io, hio, -, hcmds⟩ := drawCurrent_eq c
  rw [hio]
  exact ⟨rfl, rfl, rfl, rfl, hcmds⟩

theorem takeSample_restKept (op : Instr) (l : Leg) (c : Block) : c.RestKept (takeSample op l c) := by
  obtain ⟨cur, tick, io, hio, -, -, hcmds⟩ := takeSample_eq op l c
  rw [hio]
  exact ⟨rfl, rfl, rfl, rfl, hcmds⟩

theorem recordLastLoad_restKept (x : LoadCtx) (c : Block) : c.RestKept (recordLastLoad x c) := by
  obtain ⟨last, out, hrec, -⟩ := recordLastLoad_eq x c
  rw [hrec]
  exact ⟨rfl, rfl, rfl, rfl, rfl⟩

theorem raiseMaxLoaded_restKept (x : LoadCtx) (c : Block) : c.RestKept (raiseMaxLoaded x c) := by
  unfold raiseMaxLoaded
  split
  · exact ⟨rfl, rfl, rfl, rfl, rfl⟩
  · exact .refl c

theorem returnFromLoad_restKept {op : Instr} {ret : LoadRet} {c c' : Block}
    (h : returnFromLoad op (commandOf op) ret c = .ok c') : c.RestKept c' := by
  rcases returnFromLoad_cases h with ⟨-, ha⟩ | ⟨l, -, -, rfl⟩ | ⟨l, -, rfl⟩ | ⟨l, -, rfl⟩
  · exact ha.restKept
  all_goals exact ⟨rfl, rfl, rfl, rfl, rfl⟩

/-- Every statement of context A keeps the rest; where one hands over to a shared operation, that operation does. -/
theorem Micro.restKept {op : Instr} {c c' : Block} (h : Micro op c c') : c.RestKept c' := by
  cases h with
  | started _ _ ha => exact ha.restKept
  | p8 x ret => exact (raiseMaxLoaded_restKept x c).trans ⟨rfl, rfl, rfl, rfl, rfl⟩
  | loadOver _ x _ _ _ _ hret => exact (recordLastLoad_restKept x c).trans (returnFromLoad_restKept hret)
  | b2next => exact (drawCurrent_restKept c).trans ⟨rfl, rfl, rfl, rfl, rfl⟩
  | b2last _ _ _ _ _ ha =>
    have hbase : ∀ d : Block, ∀ n, d.RestKept { d with svc := { d.svc with base := n } } :=
      fun _ _ => ⟨rfl, rfl, rfl, rfl, rfl⟩
    exact (drawCurrent_restKept c).trans ((hbase _ _).trans ha.restKept)
  | ak1timeout _ _ _ _ hload => exact reinstallReset_restKept hload
  | ak2 l => exact takeSample_restKept op l c
  | ak3confirmed _ cur tick _ _ _ hload =>
    have hjudged : c.RestKept { c with ack := judgeSample c.params c.ack cur tick } := ⟨rfl, rfl, rfl, rfl, rfl⟩
    exact hjudged.trans (reinstallReset_restKept hload)
  | verdict _ st _ _ _ hleg =>
    have hstate : c.RestKept (c.withAckState st) := ⟨rfl, rfl, rfl, rfl, rfl⟩
    exact hstate.trans (legOver_after hleg).restKept
  | _ => exact ⟨rfl, rfl, rfl, rfl, rfl⟩

/-- Settles O48: each step of context A keeps the rest of its block, and a command moves no other block. -/
theorem commandsLeaveTheRestAlone : Obligations.CommandsLeaveTheRestAlone := by
  intro i s t h
  obtain ⟨hkept, ht⟩ := exec_rel Block.RestKept.refl (fun _ _ _ => Block.RestKept.trans)
    (fun _ _ hserves hmicro => (microStep_cases hserves hmicro).restKept) h
  obtain ⟨hparams, hengine, hreversed, hacc, hcmds⟩ := hkept
  refine ⟨?_, ?_, ?_, ?_, hparams, hengine, hreversed, hacc, hcmds⟩ <;> rw [ht]
  · exact setCur_focus s t.cur
  · exact setCur_grain s t.cur
  · exact setCur_turns s t.cur
  · exact setCur_other s t.cur

end Sys2Proof.Machine
end

section
/-! Blank slots at reset, and the idle packets before the first load (10_state.md R27; 60_exceptions.md R174). -/

namespace Sys2Proof.Machine

/-! ### Slots at reset -/

theorem get_nil (a : Nat) : Memory.get [] a = blankByte a := rfl

/-- An address of a slot reads at reset as its byte number alone says (10_state.md R27). -/
theorem blankByte_slot (j i : Nat) : blankByte (9 * j + i) = blankByte i := by
  simp only [blankByte, Nat.mul_add_mod]

theorem slotFrame_reset (q : Params) (j : Nat) :
    (Block.reset q).slotFrame j = ⟨0, [0, 0, 0, 0, 0, 0, 1, 0, 0]⟩ := by
  have hlength : (List.replicate (q.n + 1) (0 : BitVec 6)).getD j 0 = 0 := by
    rw [List.getD_eq_getElem?_getD, List.getElem?_replicate]
    split <;> rfl
  have hbytes : Memory.getBytes [] (slotAddr j 0) 9 = [0, 0, 0, 0, 0, 0, 1, 0, 0] := by
    simp only [Memory.getBytes, get_nil, slotAddr, Nat.add_assoc, blankByte_slot]
    rfl
  simp only [Block.slotFrame, Block.reset, hlength, hbytes]

theorem invalid_reset (q : Params) (j : Nat) : (Block.reset q).invalid j = true := by
  have hflag : (Block.reset q).byteAt (flagAddr j) = blankByte 6 := blankByte_slot j 6
  rw [Block.invalid, hflag]
  rfl

/-! ### Packet completions of a quiet block -/

theorem quiet_reset (q : Params) : quiet (Block.reset q) :=
  ⟨rfl, rfl, fun hrep => nomatch hrep.1⟩

/-- A packet completion of a quiet block finds no repeat, no hand-off and an empty rotation: it sends the idle packet. -/
theorem engineStep_of_quiet {c : Block} (h : quiet c) :
    engineStep c = .ok (afterPacket c .idle idleFrame c.engine.repeatLeft c.engine.rot none) := by
  obtain ⟨hnext, hload, hrep⟩ := h
  have hr : repeating (countPacket c) = false := by
    rw [← Bool.not_eq_true]
    exact fun h => hrep (repeating_iff.mp h)
  have hn : (countPacket c).next = none := hnext
  have ho : rotationOrder (countPacket c) = [] := by
    have hm : (countPacket c).table.maxLoaded = 0 := hload
    simp [rotationOrder, hm]
  have hselect : selectFrame (countPacket c) = .ok (sendIdle (countPacket c)) := by
    simp [selectFrame, hr, hn, rotate, ho, findValid]
  rw [engineStep, hselect, afterPacket, ← hnext]
  rfl

theorem quiet_afterPacket_idle {c : Block} (h : quiet c) (f : Frame) (repeatLeft : Byte) (rot : Nat) :
    quiet (afterPacket c .idle f repeatLeft rot none) := by
  obtain ⟨-, hload, -⟩ := h
  exact ⟨rfl, hload, fun hrep => nomatch hrep.1⟩

/-- However many packets a quiet block completes with context A taking no step, it goes on sending idle packets. -/
theorem engineSteps_of_quiet (m : Nat) {c : Block} (h : quiet c) (hcur : c.engine.cur = .idle) :
    ∃ c', engineSteps m c = .ok c' ∧ c'.engine.cur = .idle := by
  induction m generalizing c with
  | zero => exact ⟨c, rfl, hcur⟩
  | succ m ih =>
    rw [engineSteps, engineStep_of_quiet h]
    exact ih (quiet_afterPacket_idle h _ _ _) rfl

/-- Settles O10: every slot that exists reads blank at reset, and a reset block is quiet. -/
theorem resetSlotsAreBlank : Obligations.ResetSlotsAreBlank := by
  intro q j hj
  have hread : readSlot j (Block.reset q) = .ok ((Block.reset q).slotFrame j) := readSlot_ok (Nat.lt_succ_of_le hj)
  exact ⟨hread.trans (by rw [slotFrame_reset]), invalid_reset q j, fun m => engineSteps_of_quiet m (quiet_reset q) rfl⟩

end Sys2Proof.Machine
end

section
/-! The ranges of repeat counts and currents, kept by every move of a block (10_state.md R32, R44, R45): the registers'
part, the part of the position's own locals, and what each shared operation does to the two. -/

namespace Sys2Proof.Machine

/-! ### The invariant -/

/-- The parameters are in their bounds, and so are the registers that hold a repeat count or a current. -/
structure Block.RegistersInRange (c : Block) : Prop where
  wf : c.params.wf = true
  nextRepeat : c.nextRepeat ≤ 4
  repeatLeft : c.engine.repeatLeft ≤ 4
  base : c.svc.base ≤ c.params.curMax
  ackBase : c.ack.ackBase ≤ c.params.curMax

/-- The locals of a position that are a repeat count, a sum of samples or a sample. -/
def Pos.InRange (q : Params) : Pos → Prop
  | .load _ x _ => x.rep ≤ 4
  | .b2 taken sum => taken < q.ackBaseCount ∧ sum ≤ taken * q.curMax
  | .ak3 _ cur _ => cur ≤ q.curMax
  | _ => True

/-- The invariant of one block that every move keeps. -/
def Block.RangesOk (c : Block) : Prop := c.params.wf = true ∧ c.RepeatsOk ∧ c.CurrentsOk

/-- The invariant says that the registers are in range, and the locals of the position if a command is running. -/
theorem rangesOk_iff {c : Block} :
    c.RangesOk ↔ c.RegistersInRange ∧ ∀ op pos, c.seq = .run op pos → pos.InRange c.params := by
  unfold Block.RangesOk Block.RepeatsOk Block.CurrentsOk
  constructor
  · rintro ⟨hwf, ⟨hnext, hleft, hrep⟩, hbase, hack, hcur⟩
    refine ⟨⟨hwf, hnext, hleft, hbase, hack⟩, fun op pos hpos => ?_⟩
    rw [hpos] at hrep hcur
    cases pos with
    | load => exact hrep
    | b2 | ak3 => exact hcur
    | _ => trivial
  · rintro ⟨⟨hwf, hnext, hleft, hbase, hack⟩, hpos⟩
    cases hseq : c.seq with
    | idle => exact ⟨hwf, ⟨hnext, hleft, trivial⟩, hbase, hack, trivial⟩
    | run op pos =>
      have hin := hpos op pos hseq
      cases pos with
      | load => exact ⟨hwf, ⟨hnext, hleft, hin⟩, hbase, hack, trivial⟩
      | b2 | ak3 => exact ⟨hwf, ⟨hnext, hleft, trivial⟩, hbase, hack, hin⟩
      | _ => exact ⟨hwf, ⟨hnext, hleft, trivial⟩, hbase, hack, trivial⟩

theorem Block.RangesOk.registers {c : Block} (h : c.RangesOk) : c.RegistersInRange := (rangesOk_iff.mp h).1

theorem Block.RangesOk.position {c : Block} {op : Instr} {pos : Pos} (h : c.RangesOk) (hs : c.seq = .run op pos) :
    pos.InRange c.params :=
  (rangesOk_iff.mp h).2 op pos hs

/-- The repeat count a load has been given, at any of its statements. -/
theorem Block.RangesOk.rep_le {c : Block} {op : Instr} {lp : LoadPos} {x : LoadCtx} {ret : LoadRet} (h : c.RangesOk)
    (hs : c.seq = .run op (.load lp x ret)) : x.rep ≤ 4 :=
  h.position hs

theorem Block.RegistersInRange.ackBaseCount_pos {c : Block} (h : c.RegistersInRange) : 0 < c.params.ackBaseCount := by
  have hwf := h.wf
  simp only [Params.wf, Bool.and_eq_true, decide_eq_true_eq] at hwf
  omega

/-- At Idle the registers are all there is. -/
theorem Block.RegistersInRange.atIdle {c : Block} (h : c.RegistersInRange) (hs : c.seq = .idle) : c.RangesOk :=
  rangesOk_iff.mpr ⟨h, fun op pos hrun => by rw [hs] at hrun; cases hrun⟩

/-- Registers in range stay so where none of them changes. -/
theorem Block.RegistersInRange.of_eq {c c' : Block} (h : c.RegistersInRange) (hparams : c'.params = c.params)
    (hnext : c'.nextRepeat = c.nextRepeat) (hleft : c'.engine.repeatLeft = c.engine.repeatLeft)
    (hbase : c'.svc.base = c.svc.base) (hack : c'.ack.ackBase = c.ack.ackBase) : c'.RegistersInRange where
  wf := hparams ▸ h.wf
  nextRepeat := hnext ▸ h.nextRepeat
  repeatLeft := hleft ▸ h.repeatLeft
  base := by rw [hbase, hparams]; exact h.base
  ackBase := by rw [hack, hparams]; exact h.ackBase

/-- Registers in range, with the command at a position whose locals are in range. -/
theorem Block.RegistersInRange.atPosition {c : Block} {op : Instr} {pos : Pos} (h : c.RegistersInRange)
    (hs : c.seq = .run op pos) (hpos : pos.InRange c.params) : c.RangesOk := by
  refine rangesOk_iff.mpr ⟨h, fun o p hrun => ?_⟩
  obtain ⟨-, rfl⟩ : op = o ∧ pos = p := by simpa [hs] using hrun
  exact hpos

/-- A command put at a position whose locals are in range. -/
theorem Block.RegistersInRange.goto {c : Block} {pos : Pos} (h : c.RegistersInRange) (op : Instr)
    (hpos : pos.InRange c.params) : (c.goto op pos).RangesOk := by
  have hmoved : (c.goto op pos).RegistersInRange := h.of_eq rfl rfl rfl rfl rfl
  exact hmoved.atPosition rfl hpos

/-- The whole invariant stays where neither those registers nor `seq` changes. -/
theorem Block.RangesOk.of_eq {c c' : Block} (h : c.RangesOk) (hparams : c'.params = c.params)
    (hnext : c'.nextRepeat = c.nextRepeat) (hleft : c'.engine.repeatLeft = c.engine.repeatLeft)
    (hbase : c'.svc.base = c.svc.base) (hack : c'.ack.ackBase = c.ack.ackBase) (hseq : c'.seq = c.seq) :
    c'.RangesOk := by
  refine rangesOk_iff.mpr ⟨h.registers.of_eq hparams hnext hleft hbase hack, fun op pos hrun => ?_⟩
  rw [hparams]
  exact h.position (hseq ▸ hrun)

/-! ### Loads and an operation's own statements -/

/-- A load begun with a repeat count in range carries it in its locals. -/
theorem beginLoad_rangesOk {op : Instr} {s : Nat} {bytes : List Byte} {rep : Byte} {ret : LoadRet} {c c' : Block}
    (hc : c.RegistersInRange) (hrep : rep ≤ 4) (h2 : 2 ≤ bytes.length) (h5 : bytes.length ≤ 5)
    (h : beginLoad op s bytes rep ret c = .ok c') : c'.RangesOk := by
  have hwritten : (c.withPayload bytes).RegistersInRange := hc.of_eq rfl rfl rfl rfl rfl
  rcases beginLoad_cases h2 h5 h with ⟨-, rfl⟩ | ⟨-, x, r, hx, rfl⟩
  · exact hwritten.goto op hrep
  · obtain ⟨-, hxrep, -⟩ := chooseSlot_user hx
    have hrecycled : ((c.withPayload bytes).withRecycle r).RegistersInRange := hwritten.of_eq rfl rfl rfl rfl rfl
    exact hrecycled.goto op (show x.rep ≤ 4 from hxrep ▸ hrep)

theorem reinstallReset_rangesOk {op : Instr} {ret : LoadRet} {c c' : Block} (hc : c.RegistersInRange)
    (h : reinstallReset op ret c = .ok c') : c'.RangesOk :=
  beginLoad_rangesOk hc (by decide) (by decide) (by decide) h

theorem After.rangesOk {op : Instr} {c c' : Block} (hc : c.RegistersInRange) (h : After op c c') : c'.RangesOk := by
  cases h with
  | done out en ro =>
    exact Block.RegistersInRange.atIdle (hc.of_eq rfl rfl rfl rfl rfl) rfl
  | preamble n v hv =>
    have hcopied : ({ c with outEnable := true, svc := v } : Block).RegistersInRange := hc.of_eq rfl rfl rfl hv rfl
    exact hcopied.goto op (pos := .wp2 n) trivial
  | load _ v _ _ _ _ hv _ hr h2 h5 _ hload =>
    have hcopied : ({ c with svc := v } : Block).RegistersInRange := hc.of_eq rfl rfl rfl hv rfl
    exact beginLoad_rangesOk hcopied hr h2 h5 hload

theorem recordLastLoad_registers {x : LoadCtx} {c : Block} (hc : c.RegistersInRange) :
    (recordLastLoad x c).RegistersInRange := by
  obtain ⟨last, out, hrec, -⟩ := recordLastLoad_eq x c
  rw [hrec]
  exact hc.of_eq rfl rfl rfl rfl rfl

theorem returnFromLoad_rangesOk {op : Instr} {ret : LoadRet} {c c' : Block} (hc : c.RegistersInRange)
    (h : returnFromLoad op (commandOf op) ret c = .ok c') : c'.RangesOk := by
  rcases returnFromLoad_cases h with ⟨-, ha⟩ | ⟨l, -, -, rfl⟩ | ⟨l, -, rfl⟩ | ⟨l, -, rfl⟩
  · exact ha.rangesOk hc
  all_goals exact hc.goto op trivial

theorem raiseMaxLoaded_registers {x : LoadCtx} {c : Block} (hc : c.RegistersInRange) :
    (raiseMaxLoaded x c).RegistersInRange := by
  unfold raiseMaxLoaded
  split
  · exact hc.of_eq rfl rfl rfl rfl rfl
  · exact hc

/-! ### Samples -/

theorem drawCurrent_registers {c : Block} (hc : c.RegistersInRange) : (drawCurrent c).2.RegistersInRange := by
  obtain ⟨io, hio, -, -⟩ := drawCurrent_eq c
  rw [hio]
  exact hc.of_eq rfl rfl rfl rfl rfl

theorem drawCurrent_params (c : Block) : (drawCurrent c).2.params = c.params := (drawCurrent_restKept c).params

/-- One more sample keeps a sum of samples within the probe's range (44_service_mode.md R149). -/
theorem sum_drawCurrent_le {c : Block} {taken sum : Nat} (h : sum ≤ taken * c.params.curMax) :
    sum + (drawCurrent c).1 ≤ (taken + 1) * c.params.curMax := by
  rw [Nat.add_one_mul]
  exact Nat.add_le_add h (drawCurrent_le c)

/-- The mean of ACK_BASE_COUNT samples is a reading of the probe (R149). -/
theorem base_registers {c : Block} {taken sum : Nat} (hc : c.RegistersInRange)
    (hin : (Pos.b2 taken sum).InRange c.params) (hlast : c.params.ackBaseCount ≤ taken + 1) :
    ({ (drawCurrent c).2 with
        svc :=
          { (drawCurrent c).2.svc with
            base := (sum + (drawCurrent c).1) / c.params.ackBaseCount } } : Block).RegistersInRange := by
  obtain ⟨htaken, hsum⟩ := hin
  have hcount : taken + 1 = c.params.ackBaseCount := by omega
  have hle := sum_drawCurrent_le hsum
  obtain ⟨hwf, hnext, hleft, -, hack⟩ := drawCurrent_registers hc
  refine ⟨hwf, hnext, hleft, ?_, hack⟩
  rw [hcount] at hle
  show _ ≤ (drawCurrent c).2.params.curMax
  rw [drawCurrent_params]
  exact Nat.div_le_of_le_mul hle

/-- Judging a sample leaves the base it is judged against alone (43_ack_detector.md R137). -/
theorem judgeSample_ackBase (q : Params) (a : AckRegs) (cur : Nat) (tick : Word) :
    (judgeSample q a cur tick).ackBase = a.ackBase := by
  unfold judgeSample
  dsimp only
  split
  case h_1 | h_2 => split <;> rfl
  all_goals rfl

theorem judged_registers {c : Block} (hc : c.RegistersInRange) (cur : Nat) (tick : Word) :
    ({ c with ack := judgeSample c.params c.ack cur tick } : Block).RegistersInRange :=
  hc.of_eq rfl rfl rfl rfl (judgeSample_ackBase c.params c.ack cur tick)

/-- Arming the detector copies the measured base current (R137). -/
theorem armDetector_registers {c : Block} (hc : c.RegistersInRange) : (armDetector c).RegistersInRange := by
  obtain ⟨hwf, hnext, hleft, hbase, -⟩ := hc
  exact ⟨hwf, hnext, hleft, hbase, hbase⟩

/-! ### Every move of a block -/

/-- Every statement of context A keeps the ranges. -/
theorem Micro.rangesOk {op : Instr} {c c' : Block} (hc : c.RangesOk) (h : Micro op c c') : c'.RangesOk := by
  have hregs := hc.registers
  cases h with
  | started _ _ ha => exact ha.rangesOk hregs
  | held => exact hc
  | o1 x ret hs | p2 x ret hs | p5 x ret hs | p7keep x ret hs => exact hregs.goto op (hc.rep_le hs)
  | o2 x ret hs | p3 x ret hs | p4 x ret hs | p7retire x ret _ hs =>
    refine Block.RegistersInRange.goto ?_ op (hc.rep_le hs)
    exact hregs.of_eq rfl rfl rfl rfl rfl
  | o3 x ret hs | p6 x ret hs =>
    obtain ⟨hwf, -, hleft, hbase, hack⟩ := hregs
    exact Block.RegistersInRange.atPosition ⟨hwf, hc.rep_le hs, hleft, hbase, hack⟩ rfl (hc.rep_le hs)
  | p8 x ret hs => exact (raiseMaxLoaded_registers hregs).goto op (hc.rep_le hs)
  | loadOver _ _ _ _ _ _ hret => exact returnFromLoad_rangesOk (recordLastLoad_registers hregs) hret
  | wp2 => exact hregs.goto op ⟨hregs.ackBaseCount_pos, Nat.zero_le _⟩
  | b2next taken sum hs hmore =>
    obtain ⟨-, hsum⟩ := hc.position hs
    refine (drawCurrent_registers hregs).goto op ?_
    rw [drawCurrent_params]
    exact ⟨hmore, sum_drawCurrent_le hsum⟩
  | b2last _ _ _ hs hlast ha => exact ha.rangesOk (base_registers hregs (hc.position hs) hlast)
  | ak0 => exact (armDetector_registers hregs).goto op trivial
  | ak1 | ak7 => exact hregs.goto op trivial
  | ak1timeout _ _ _ _ hload => exact reinstallReset_rangesOk hregs hload
  | ak2 l =>
    obtain ⟨cur, tick, io, hsample, hcur, -, -⟩ := takeSample_eq op l c
    rw [hsample]
    have hdrawn := hregs.of_eq (c' := { c with io := io }) rfl rfl rfl rfl rfl
    exact hdrawn.goto op hcur
  | ak3 => exact (judged_registers hregs _ _).goto op trivial
  | ak3confirmed _ _ _ _ _ _ hload => exact reinstallReset_rangesOk (judged_registers hregs _ _) hload
  | ak6 =>
    refine Block.RegistersInRange.atPosition ?_ rfl trivial
    exact hregs.of_eq rfl rfl rfl rfl rfl
  | verdict _ st _ _ _ hleg =>
    have hstate : (c.withAckState st).RegistersInRange := hregs.of_eq rfl rfl rfl rfl rfl
    exact (legOver_after hleg).rangesOk hstate

/-- Of what a packet completion writes, only the repeats left have a range. -/
theorem afterPacket_rangesOk {c : Block} (hc : c.RangesOk) (src : Source) (f : Frame) {repeatLeft : Byte} (rot : Nat)
    (next : Option Nat) (hleft : repeatLeft ≤ 4) : (afterPacket c src f repeatLeft rot next).RangesOk := by
  obtain ⟨hwf, hnext, -, hbase, hack⟩ := hc.registers
  exact rangesOk_iff.mpr ⟨⟨hwf, hnext, hleft, hbase, hack⟩, fun op pos hrun => hc.position hrun⟩

/-- A packet completion counts a repeat down, adopts `nextRepeat` or 0, or leaves the count alone
(60_exceptions.md R171 to R174). -/
theorem engineStep_rangesOk {c c' : Block} (hc : c.RangesOk) (h : engineStep c = .ok c') : c'.RangesOk := by
  have hleft := hc.registers.repeatLeft
  rcases engineStep_cases h with ⟨hrep, rfl⟩ | ⟨-, j, -, -, rfl⟩ | ⟨-, -, j, -, -, -, rfl⟩ | ⟨-, -, -, rfl⟩
  · obtain ⟨-, hpos⟩ := repeating_iff.mp hrep
    exact afterPacket_rangesOk hc _ _ _ _ (by bv_omega)
  · refine afterPacket_rangesOk hc _ _ _ _ ?_
    split
    · exact hc.registers.nextRepeat
    · decide
  · exact afterPacket_rangesOk hc _ _ _ _ hleft
  · exact afterPacket_rangesOk hc _ _ _ _ hleft

theorem hostConfigWrite_rangesOk {c : Block} (hc : c.RangesOk) (v : Bool) : (hostConfigWrite v c).RangesOk := by
  unfold hostConfigWrite
  split
  · exact hc.of_eq rfl rfl rfl rfl rfl rfl
  · exact hc

theorem currentCheck_rangesOk {c : Block} (hc : c.RangesOk) : (currentCheck c).RangesOk := by
  obtain ⟨a, io, out, hcheck, -⟩ := currentCheck_eq c
  rw [hcheck]
  exact hc.of_eq rfl rfl rfl rfl rfl rfl

/-- A power-on reset puts every count and current at 0 (70_reset_and_hazards.md R189). -/
theorem powerOnReset_rangesOk {c : Block} (hc : c.RangesOk) : (powerOnReset c).RangesOk := by
  have hzero : (0 : Byte) ≤ 4 := by decide
  exact Block.RegistersInRange.atIdle ⟨hc.registers.wf, hzero, hzero, Nat.zero_le _, Nat.zero_le _⟩ rfl

/-- A step keeps the ranges of either block. -/
theorem step_rangesOk {s t : State} (h : step s = .next t) (ch : Channel) (hs : (s.block ch).RangesOk) :
    (t.block ch).RangesOk := by
  refine step_rel (R := fun c c' => c.RangesOk → c'.RangesOk) (fun _ => id) (fun _ _ _ hab hbc => hbc ∘ hab)
    ?micro ?take ?ign ?engine ?out ?config ?check ?reset h ch hs
  case micro => exact fun i c c' hserves hmicro hc => (microStep_cases hserves hmicro).rangesOk hc
  case take => exact fun c ws hc => hc.of_eq rfl rfl rfl rfl rfl rfl
  case ign => exact fun c hidle hc => hc.of_eq rfl rfl rfl rfl rfl hidle.symm
  case engine => exact fun c c' hengine hc => engineStep_rangesOk hc hengine
  case out => exact fun c v hc => hc.of_eq rfl rfl rfl rfl rfl rfl
  case config => exact fun c v hc => hostConfigWrite_rangesOk hc v
  case check => exact fun c hc => currentCheck_rangesOk hc
  case reset => exact fun _ c hc => powerOnReset_rangesOk hc

/-- Settles O55: each move keeps the ranges of its block, the parameters' bounds among them. -/
theorem stepKeepsRegisterRanges : Obligations.StepKeepsRegisterRanges := by
  rintro s t ⟨hrepMain, hrepProg⟩ ⟨hcurMain, hcurProg⟩ hwfMain hwfProg h
  obtain ⟨-, hrepMain', hcurMain'⟩ := step_rangesOk h .main ⟨hwfMain, hrepMain, hcurMain⟩
  obtain ⟨-, hrepProg', hcurProg'⟩ := step_rangesOk h .prog ⟨hwfProg, hrepProg, hcurProg⟩
  exact ⟨⟨hrepMain', hrepProg'⟩, hcurMain', hcurProg'⟩

end Sys2Proof.Machine
end

section
/-! The slot RAM under its two accesses (20_memory.md R48; 00_scope.md R20): which accesses are the ones the spec gives,
and what each answers there and elsewhere. -/

namespace Sys2Proof.Machine

/-- The accesses the spec gives, said by the offset inside a slot: an access of `n` bytes crosses no slot's end. -/
theorem accessOk_iff {slots addr n : Nat} :
    accessOk slots addr n = true ↔ 1 ≤ n ∧ addr % 9 + n ≤ 9 ∧ addr + n ≤ 9 * slots := by
  simp only [accessOk, Bool.and_eq_true, decide_eq_true_eq, beq_iff_eq]
  omega

theorem memRead_ok {addr n : Nat} {c : Block} (h : accessOk c.slots addr n = true) :
    memRead addr n c = .ok (c.table.mem.getBytes addr n) := if_pos h

theorem memRead_error {addr n : Nat} {c : Block} (h : ¬accessOk c.slots addr n = true) :
    memRead addr n c = .error (.noSuchAddress addr) := if_neg h

theorem memWrite_ok {addr : Nat} {v : List Byte} {c : Block} (h : accessOk c.slots addr v.length = true) :
    memWrite addr v c = .ok (c.withMem (c.table.mem.setBytes addr v)) := if_pos h

theorem memWrite_error {addr : Nat} {v : List Byte} {c : Block} (h : ¬accessOk c.slots addr v.length = true) :
    memWrite addr v c = .error (.noSuchAddress addr) := if_neg h

/-- A run of bytes, byte by byte. -/
theorem getBytes_eq_map (m : Memory) (a n : Nat) : m.getBytes a n = (List.range n).map fun i => m.get (a + i) := by
  refine List.ext_getElem (by simp) fun i h _ => ?_
  have hi : i < n := by simpa using h
  rw [← List.getD_eq_getElem _ 0 h, getD_getBytes m a n i hi]
  simp

/-- Bytes written to a block are what the same access reads back. -/
theorem memRead_written {addr : Nat} {v : List Byte} {c : Block} (h : accessOk c.slots addr v.length = true) :
    memRead addr v.length (c.withMem (c.table.mem.setBytes addr v)) = .ok v :=
  (memRead_ok (c := c.withMem (c.table.mem.setBytes addr v)) h).trans
    (congrArg Except.ok (getBytes_setBytes c.table.mem addr v))

/-- Settles O22: an access goes through exactly where `accessOk` holds, and then it is one of the memory's own reads and
writes. -/
theorem slotRamAccess : Obligations.SlotRamAccess := by
  intro c addr v
  refine ⟨fun hv => ?_, fun n h1 h9 hend => ?_, fun hv => ?_⟩
  · have hok : accessOk c.slots addr v.length = true := accessOk_iff.mpr hv
    exact ⟨_, memWrite_ok hok, memRead_written hok, fun a ha => get_setBytes_other c.table.mem ha⟩
  · rw [memRead_ok (accessOk_iff.mpr ⟨h1, h9, hend⟩), getBytes_eq_map]
    rfl
  · have hno : ¬accessOk c.slots addr v.length = true := mt accessOk_iff.mp hv
    exact ⟨memWrite_error hno, memRead_error hno⟩

end Sys2Proof.Machine
end

section
/-! A burst as a run of single steps of context A (20_memory.md R58). -/

namespace Sys2Proof.Machine

/-- A run of steps begins with its first step. -/
theorem microSteps_succ {op : Instr} {cmd : Command} {c d : Block} (h : microStep op cmd c = .ok d) (m : Nat) :
    microSteps op cmd (m + 1) c = microSteps op cmd m d := by
  simp only [microSteps, h]

/-- Everything a burst of at least one step can do: its first step ends it, at a pause point or because the count is
used up, or the rest of the burst goes on from a block that is not paused. -/
theorem burst_succ_cases {op : Instr} {cmd : Command} {n : Nat} {c c' : Block}
    (h : burst op cmd (n + 1) c = .ok c') :
    microStep op cmd c = .ok c' ∨
      ∃ d, microStep op cmd c = .ok d ∧ paused d = false ∧ 0 < n ∧ burst op cmd n d = .ok c' := by
  cases hd : microStep op cmd c with
  | error e => simp [burst, hd] at h
  | ok d =>
    cases hp : paused d with
    | true =>
      rw [burst_stops hd hp] at h
      exact .inl h
    | false =>
      rw [burst_goes_on hd hp] at h
      cases n with
      | zero => exact .inl h
      | succ n => exact .inr ⟨d, rfl, hp, n.succ_pos, h⟩

/-- A burst is a run of single steps, and no block strictly inside the run is paused. -/
theorem burst_is_run {op : Instr} {cmd : Command} {n : Nat} (hn : 0 < n) {c c' : Block}
    (h : burst op cmd n c = .ok c') :
    ∃ m, 1 ≤ m ∧ m ≤ n ∧ microSteps op cmd m c = .ok c' ∧
      ∀ k, 1 ≤ k → k < m → ∃ d, microSteps op cmd k c = .ok d ∧ paused d = false := by
  induction n generalizing c with
  | zero => exact absurd hn (Nat.lt_irrefl 0)
  | succ n ih =>
    rcases burst_succ_cases h with hstep | ⟨d, hstep, hp, hn, hrest⟩
    · exact ⟨1, le_rfl, by omega, microSteps_succ hstep 0, fun k h1 hlt => by omega⟩
    · obtain ⟨m, -, hle, hrun, hinside⟩ := ih hn hrest
      refine ⟨m + 1, by omega, by omega, (microSteps_succ hstep m).trans hrun, fun k h1 hlt => ?_⟩
      cases k with
      | zero => omega
      | succ k =>
        rw [microSteps_succ hstep]
        cases k with
        | zero => exact ⟨d, rfl, hp⟩
        | succ k => exact hinside (k + 1) (by omega) (by omega)

/-- Settles O51: the count of a burst is positive, so it takes a first step. -/
theorem burstIsARunOfMicroSteps : Obligations.BurstIsARunOfMicroSteps := by
  intro op cmd c c' h
  have hpos : 0 < burstLength c := by
    unfold burstLength
    omega
  exact burst_is_run hpos h

end Sys2Proof.Machine
end

section
/-! What a move does to the slot RAM and the length fields beside it (20_memory.md R48, R55, R66): said once for a step
of context A, and from it both where that step stores and that the memory stays canonical and inside its bounds. -/

namespace Sys2Proof.Machine

/-! ### Operations that leave the slot RAM alone -/

/-- From `c` to `c'` no byte of the slot RAM and no length field has changed. -/
structure Block.SlotRamKept (c c' : Block) : Prop where
  mem : c'.table.mem = c.table.mem
  bitCounts : c'.table.bitCounts = c.table.bitCounts

theorem Block.SlotRamKept.trans {a b c : Block} (hab : a.SlotRamKept b) (hbc : b.SlotRamKept c) : a.SlotRamKept c where
  mem := hbc.mem.trans hab.mem
  bitCounts := hbc.bitCounts.trans hab.bitCounts

/-- A block with the same slot table has the same slot RAM. -/
theorem Block.SlotRamKept.of_table {c c' : Block} (h : c'.table = c.table) : c.SlotRamKept c' := by
  constructor <;> rw [h]

/-- The beginning of a load writes no register of the slot table but `recycleReg` (41_slot_table_loader.md R109). -/
theorem beginLoad_slotRamKept {op : Instr} {s : Nat} {bytes : List Byte} {rep : Byte} {ret : LoadRet} {c c' : Block}
    (h2 : 2 ≤ bytes.length) (h5 : bytes.length ≤ 5) (h : beginLoad op s bytes rep ret c = .ok c') :
    c.SlotRamKept c' := by
  rcases beginLoad_cases h2 h5 h with ⟨-, rfl⟩ | ⟨-, x, r, -, rfl⟩ <;> exact ⟨rfl, rfl⟩

theorem reinstallReset_slotRamKept {op : Instr} {ret : LoadRet} {c c' : Block}
    (h : reinstallReset op ret c = .ok c') : c.SlotRamKept c' :=
  beginLoad_slotRamKept (by decide) (by decide) h

/-- An operation's own statements store nothing: only its loads do. -/
theorem After.slotRamKept {op : Instr} {c c' : Block} (h : After op c c') : c.SlotRamKept c' := by
  cases h with
  | done => exact ⟨rfl, rfl⟩
  | preamble => exact ⟨rfl, rfl⟩
  | load _ v _ _ _ _ _ _ _ h2 h5 _ hload =>
    have hcopy : c.SlotRamKept { c with svc := v } := ⟨rfl, rfl⟩
    exact hcopy.trans (beginLoad_slotRamKept h2 h5 hload)

theorem drawCurrent_table (c : Block) : (drawCurrent c).2.table = c.table := by
  obtain ⟨io, hio, -, -⟩ := drawCurrent_eq c
  rw [hio]

theorem takeSample_table (op : Instr) (l : Leg) (c : Block) : (takeSample op l c).table = c.table := by
  obtain ⟨cur, tick, io, hio, -, -, -⟩ := takeSample_eq op l c
  rw [hio]

theorem recordLastLoad_table (x : LoadCtx) (c : Block) : (recordLastLoad x c).table = c.table := by
  obtain ⟨last, out, hrec, -⟩ := recordLastLoad_eq x c
  rw [hrec]

theorem raiseMaxLoaded_slotRamKept (x : LoadCtx) (c : Block) : c.SlotRamKept (raiseMaxLoaded x c) := by
  unfold raiseMaxLoaded
  split <;> exact ⟨rfl, rfl⟩

theorem returnFromLoad_slotRamKept {op : Instr} {ret : LoadRet} {c c' : Block}
    (h : returnFromLoad op (commandOf op) ret c = .ok c') : c.SlotRamKept c' := by
  rcases returnFromLoad_cases h with ⟨-, ha⟩ | ⟨l, -, -, rfl⟩ | ⟨l, -, rfl⟩ | ⟨l, -, rfl⟩
  · exact ha.slotRamKept
  all_goals exact ⟨rfl, rfl⟩

/-! ### A step of context A -/

/-- Everything a step of context A from `c` to `c'` can do to the slot RAM: nothing, an encoder call's nine bytes and
length field (20_memory.md R55), or one flag byte, the stores being ones that the statement at which `c` stands names. -/
inductive Block.SlotRamMove (c c' : Block) : Prop
  | kept (h : c.SlotRamKept c')
  | encoded (j : Nat) (bytes : List Byte) (len : BitVec 6) (hj : j < c.slots) (hn : bytes.length = 9)
      (hstores : ∀ a, inSlot j a → storesTo c a) (hlength : writesLengthOf c j)
      (hmem : c'.table.mem = c.table.mem.setBytes (slotAddr j 0) bytes)
      (hcounts : c'.table.bitCounts = c.table.bitCounts.set j len)
  | flag (j : Nat) (b : Byte) (hj : j < c.slots) (hstores : storesTo c (flagAddr j))
      (hmem : c'.table.mem = c.table.mem.set (flagAddr j) b) (hcounts : c'.table.bitCounts = c.table.bitCounts)

/-- The loader's statements store what they name; every other statement of context A leaves the slot RAM alone. -/
theorem Micro.slotRamMove {op : Instr} {c c' : Block} (h : Micro op c c') : c.SlotRamMove c' := by
  cases h with
  | o2 x ret hs hj =>
    exact .encoded 0 (packFrame c.nextPacket) (frameLength c.nextPacket) hj (length_packFrame _)
      (by simp [storesTo, hs]) (by simp [writesLengthOf, hs]) rfl rfl
  | p4 x ret hs hj =>
    exact .encoded x.cand (packFrame c.nextPacket) (frameLength c.nextPacket) hj (length_packFrame _)
      (by simp [storesTo, hs]) (by simp [writesLengthOf, hs]) rfl rfl
  | o3 x ret hs hj => exact .flag 0 _ hj (by simp [storesTo, hs]) rfl rfl
  | p3 x ret hs hj => exact .flag x.cand _ hj (by simp [storesTo, hs]) rfl rfl
  | p6 x ret hs hj => exact .flag x.cand _ hj (by simp [storesTo, hs]) rfl rfl
  | p7retire x ret q hs hi hq hj => exact .flag q _ hj (by simp [storesTo, hs, hi, hq]) rfl rfl
  | started _ _ ha => exact .kept ha.slotRamKept
  | p8 x ret => exact .kept ((raiseMaxLoaded_slotRamKept x c).trans ⟨rfl, rfl⟩)
  | loadOver _ x _ _ _ _ hret =>
    exact .kept ((Block.SlotRamKept.of_table (recordLastLoad_table x c)).trans (returnFromLoad_slotRamKept hret))
  | b2next => exact .kept (.of_table (drawCurrent_table c))
  | b2last _ _ _ _ _ ha =>
    have hbase : c.SlotRamKept (drawCurrent c).2 := .of_table (drawCurrent_table c)
    exact .kept (hbase.trans ⟨ha.slotRamKept.mem, ha.slotRamKept.bitCounts⟩)
  | ak1timeout _ _ _ _ hload => exact .kept (reinstallReset_slotRamKept hload)
  | ak2 l => exact .kept (.of_table (takeSample_table op l c))
  | ak3confirmed _ cur tick _ _ _ hload =>
    have hjudged : c.SlotRamKept { c with ack := judgeSample c.params c.ack cur tick } := ⟨rfl, rfl⟩
    exact .kept (hjudged.trans (reinstallReset_slotRamKept hload))
  | verdict _ st _ _ _ hleg =>
    have hstate : c.SlotRamKept (c.withAckState st) := ⟨rfl, rfl⟩
    exact .kept (hstate.trans (legOver_after hleg).slotRamKept)
  | _ => exact .kept ⟨rfl, rfl⟩

/-- Bytes that the statement does not name read as before. -/
theorem Block.SlotRamMove.byteAt_eq {c c' : Block} (h : c.SlotRamMove c') {a : Nat} (ha : ¬storesTo c a) :
    c'.byteAt a = c.byteAt a := by
  unfold Block.byteAt
  cases h with
  | kept h => rw [h.mem]
  | encoded j bytes len _ hn hstores _ hmem =>
    have hout : ¬inSlot j a := mt (hstores a) ha
    unfold inSlot at hout
    rw [hmem, get_setBytes_other _ (by omega)]
  | flag j b _ hstores hmem =>
    have hne : flagAddr j ≠ a := fun e => ha (e ▸ hstores)
    rw [hmem, get_set_other _ _ hne]

/-- Length fields that the statement does not name are as before. -/
theorem Block.SlotRamMove.bitCount_eq {c c' : Block} (h : c.SlotRamMove c') {j : Nat} (hj : ¬writesLengthOf c j) :
    c'.table.bitCounts.getD j 0 = c.table.bitCounts.getD j 0 := by
  cases h with
  | kept h => rw [h.bitCounts]
  | encoded i _ len _ _ _ hlength _ hcounts =>
    have hne : i ≠ j := fun e => hj (e ▸ hlength)
    simp [hcounts, List.getD_eq_getElem?_getD, List.getElem?_set_ne hne]
  | flag _ _ _ _ _ hcounts => rw [hcounts]

/-- A block at which no other command runs serves the command. -/
theorem servesOnly_of_not_busy {i : Instr} {c : Block} (h : ¬busyWithOther i c = true) : c.servesOnly i := by
  unfold busyWithOther at h
  split at h
  · next hs => exact .inl hs
  · next o pos hs =>
    obtain rfl : o = i := by simpa using h
    exact .inr ⟨pos, hs⟩

/-- Everything a command run with the single-step grain can do to the block in focus: nothing, as another command is
running there, or one step of context A. -/
theorem exec_micro_cases {i : Instr} {s t : State} (hg : s.grain = .micro) (h : exec i s = .next t) :
    t.cur = s.cur ∨ Micro i s.cur t.cur := by
  rw [exec_eq_lift, hg] at h
  obtain ⟨c, hc, rfl⟩ := lift_next h
  rw [setCur_cur]
  unfold commandMove at hc
  split at hc
  · exact .inl (Except.ok.inj hc).symm
  · next hb => exact .inr (microStep_cases (servesOnly_of_not_busy hb) hc)

/-- Settles O50: the step is one of context A's statements, whose stores are all named. -/
theorem microStepStoresOnlyWhereItsStatementSays : Obligations.MicroStepStoresOnlyWhereItsStatementSays := by
  intro i s t hg h
  have hmove : s.cur.SlotRamMove t.cur := by
    rcases exec_micro_cases hg h with heq | hmicro
    · exact .kept (.of_table (congrArg Block.table heq))
    · exact hmicro.slotRamMove
  exact ⟨fun _ ha => hmove.byteAt_eq ha, fun _ hj => hmove.bitCount_eq hj⟩

/-! ### The canonical form and the bounds -/

/-- A block with the same memory and as many slots. -/
theorem Block.MemoryOk.of_eq {c c' : Block} (h : c.MemoryOk) (hparams : c'.params = c.params)
    (hmem : c'.table.mem = c.table.mem) : c'.MemoryOk := by
  unfold Block.MemoryOk Block.slots
  rw [hparams, hmem]
  exact h

/-- Bytes stored below the end of the slots keep the memory sound. -/
theorem Block.MemoryOk.of_setBytes {c c' : Block} {a : Nat} {bytes : List Byte} (h : c.MemoryOk)
    (hparams : c'.params = c.params) (hend : a + bytes.length ≤ 9 * c.slots)
    (hmem : c'.table.mem = c.table.mem.setBytes a bytes) : c'.MemoryOk := by
  obtain ⟨hwf, hbound⟩ := h
  have hslots : c'.slots = c.slots := congrArg (·.n + 1) hparams
  unfold Block.MemoryOk
  rw [hslots, hmem]
  refine ⟨setBytes_wf hwf a bytes, fun x hx => ?_⟩
  rcases mem_setBytes hx with ⟨-, hlt⟩ | hx
  · omega
  · exact hbound x hx

/-- A step of context A stores inside the slots only. -/
theorem Micro.memoryOk {op : Instr} {c c' : Block} (hc : c.MemoryOk) (h : Micro op c c') : c'.MemoryOk := by
  have hparams : c'.params = c.params := h.restKept.params
  cases h.slotRamMove with
  | kept hkept => exact hc.of_eq hparams hkept.mem
  | encoded j bytes _ hj hn _ _ hmem =>
    refine hc.of_setBytes hparams ?_ hmem
    unfold slotAddr
    omega
  | flag j b hj _ hmem => exact hc.of_setBytes (bytes := [b]) hparams (flagAddr_lt.mpr hj) hmem

/-- A packet completion writes no register of the slot table (60_exceptions.md R170 to R175). -/
theorem engineStep_memoryOk {c c' : Block} (hc : c.MemoryOk) (h : engineStep c = .ok c') : c'.MemoryOk := by
  rcases engineStep_cases h with ⟨-, rfl⟩ | ⟨-, j, -, -, rfl⟩ | ⟨-, -, j, -, -, -, rfl⟩ | ⟨-, -, -, rfl⟩ <;>
    exact hc.of_eq rfl rfl

theorem hostConfigWrite_memoryOk {c : Block} (hc : c.MemoryOk) (v : Bool) : (hostConfigWrite v c).MemoryOk := by
  unfold hostConfigWrite
  split
  · exact hc.of_eq rfl rfl
  · exact hc

theorem currentCheck_memoryOk {c : Block} (hc : c.MemoryOk) : (currentCheck c).MemoryOk := by
  obtain ⟨a, io, out, hcheck, -, -, -⟩ := currentCheck_eq c
  rw [hcheck]
  exact hc.of_eq rfl rfl

/-- A power-on reset lists no address: every slot is blank (10_state.md R27). -/
theorem powerOnReset_memoryOk (c : Block) : (powerOnReset c).MemoryOk := ⟨wf_nil, nofun⟩

/-- A step keeps the memory of either block sound. -/
theorem step_memoryOk {s t : State} (h : step s = .next t) (ch : Channel) (hs : (s.block ch).MemoryOk) :
    (t.block ch).MemoryOk := by
  refine step_rel (R := fun c c' => c.MemoryOk → c'.MemoryOk) (fun _ => id) (fun _ _ _ hab hbc => hbc ∘ hab)
    ?micro ?take ?ign ?engine ?out ?config ?check ?reset h ch hs
  case micro => exact fun i c c' hserves hmicro hc => (microStep_cases hserves hmicro).memoryOk hc
  case take => exact fun c ws hc => hc.of_eq rfl rfl
  case ign => exact fun c _ hc => hc.of_eq rfl rfl
  case engine => exact fun c c' hengine hc => engineStep_memoryOk hc hengine
  case out => exact fun c v hc => hc.of_eq rfl rfl
  case config => exact fun c v hc => hostConfigWrite_memoryOk hc v
  case check => exact fun c hc => currentCheck_memoryOk hc
  case reset => exact fun _ c _ => powerOnReset_memoryOk c

/-- Settles O54: each move keeps the memory of its block sound. -/
theorem stepKeepsMemory : Obligations.StepKeepsMemory :=
  fun _ _ ⟨hmain, hprog⟩ h => ⟨step_memoryOk h .main hmain, step_memoryOk h .prog hprog⟩

end Sys2Proof.Machine
end

section
/-! The command word as a map of fields: what the decoder and the encoder each say of them, and from it that the two
are inverse and which words are no command (30_encoding.md R70 to R72; 60_exceptions.md R160). -/

namespace Sys2Proof

open Machine

/-! ### An operation's row of the opcode table -/

/-- The opcode of an operation (30_encoding.md R71). -/
def Instr.opcode : Instr → Nat
  | .throttle _ _ _ _ => 0x01
  | .functionShort _ _ => 0x02
  | .functionLong _ _ _ => 0x02
  | .accessory _ _ _ => 0x03
  | .rawPacket _ _ => 0x04
  | .readCv _ _ _ => 0x05
  | .writeCvByte _ _ _ _ => 0x06
  | .writeCvBit _ _ _ _ _ => 0x07
  | .writeMainCvByte _ _ _ => 0x08
  | .writeMainCvBit _ _ _ _ => 0x09
  | .printLastPacket => 0x0A
  | .printCapacity => 0x0B

/-- The operand words of an operation, in the order of the command word (R70, R71). -/
def Instr.operands : Instr → List Word
  | .throttle slot cab speed dir => [slot, cab, speed, dir]
  | .functionShort cab fByte => [cab, fByte]
  | .functionLong cab fByte eByte => [cab, fByte, eByte]
  | .accessory addr port activate => [addr, port, activate]
  | .rawPacket _ args => args
  | .readCv cv cb cbSub => [cv, cb, cbSub]
  | .writeCvByte cv value cb cbSub => [cv, value, cb, cbSub]
  | .writeCvBit cv bit value cb cbSub => [cv, bit, value, cb, cbSub]
  | .writeMainCvByte cab cv value => [cab, cv, value]
  | .writeMainCvBit cab cv bit value => [cab, cv, bit, value]
  | .printLastPacket => []
  | .printCapacity => []

/-- The argument count of an operation: RAW_PACKET states its own, which may exceed the six words there are (R70, R132);
every other operation has as many as its operands. -/
def Instr.argc : Instr → BitVec 4
  | .rawPacket argc _ => argc
  | i => BitVec.ofNat 4 i.operands.length

theorem Instr.opcode_lt (i : Instr) : i.opcode < 2 ^ 8 := by
  cases i <;> exact Nat.le_of_ble_eq_true rfl

/-- The encoder packs an operation's row and its operands. -/
theorem encode_eq_packCommand (i : Instr) : encode i = packCommand i.opcode i.argc.toNat i.operands := by
  cases i <;> rfl

/-- A term is well formed when its argument count supplies exactly its operands. -/
theorem Instr.wf_iff (i : Instr) : i.wf = true ↔ i.operands.length = min i.argc.toNat 6 := by
  cases i with
  | rawPacket argc args => exact beq_iff_eq
  | _ => exact iff_of_true rfl rfl

/-! ### The fields of a packed word -/

/-- The operand words of a packed number are its digits to base `2 ^ 32`. -/
theorem operandBits_digit (args : List Word) (n : Nat) :
    operandBits args / 2 ^ (32 * n) % 2 ^ 32 = (args.getD n 0).toNat := by
  induction args generalizing n with
  | nil => simp [operandBits]
  | cons a as ih =>
    have ha : a.toNat < 2 ^ 32 := a.isLt
    cases n with
    | zero =>
      simp only [operandBits, List.getD_cons_zero]
      omega
    | succ n =>
      have htail : (a.toNat + 2 ^ 32 * operandBits as) / 2 ^ 32 = operandBits as := by omega
      have hpow : 2 ^ (32 * (n + 1)) = 2 ^ 32 * 2 ^ (32 * n) := by rw [← Nat.pow_add, Nat.mul_succ, Nat.add_comm]
      rw [operandBits, hpow, ← Nat.div_div_eq_div_mul, htail, ih, List.getD_cons_succ]

section
variable {opcode argc : Nat} (args : List Word) (ho : opcode < 2 ^ 8) (ha : argc < 2 ^ 4)
include ho ha

theorem opcodeOf_packCommand : (opcodeOf (packCommand opcode argc args)).toNat = opcode := by
  have h := Laws.Header.header_packCommand args ho ha
  rw [opcodeOf, BitVec.extractLsb'_toNat, Nat.shiftRight_zero]
  omega

theorem argcOf_packCommand : (argcOf (packCommand opcode argc args)).toNat = argc := by
  have h := Laws.Header.header_packCommand args ho ha
  rw [argcOf, BitVec.extractLsb'_toNat, Nat.shiftRight_eq_div_pow]
  omega

theorem rsvOf_packCommand : rsvOf (packCommand opcode argc args) = 0 := by
  have h := Laws.Header.header_packCommand args ho ha
  apply BitVec.eq_of_toNat_eq
  rw [rsvOf, BitVec.extractLsb'_toNat, Nat.shiftRight_eq_div_pow]
  show _ = 0
  omega

/-- The operand words of a packed word are the ones it was packed from; a word that was not given is 0 (R70). -/
theorem argOf_packCommand {n : Nat} (hn : n < 6) : argOf (packCommand opcode argc args) n = args.getD n 0 := by
  apply BitVec.eq_of_toNat_eq
  have hsplit : 2 ^ (208 : Nat) = 2 ^ (16 + 32 * n) * (2 ^ 32 * 2 ^ (32 * (5 - n))) := by
    rw [← Nat.pow_add, ← Nat.pow_add]
    congr 1
    omega
  have hheader : (opcode + 2 ^ 8 * argc + 2 ^ 16 * operandBits args) / 2 ^ 16 = operandBits args := by omega
  rw [argOf, packCommand, BitVec.extractLsb'_toNat, BitVec.toNat_ofNat, Nat.shiftRight_eq_div_pow, hsplit,
    Nat.mod_mul_right_div_self, Nat.mod_mul_right_mod, Nat.pow_add, ← Nat.div_div_eq_div_mul, hheader,
    operandBits_digit]

end

/-! ### The operand words a count supplies -/

theorem rawArgs_eq_map (w : CommandWord) : rawArgs w = (List.range (min (argcOf w).toNat 6)).map (argOf w) := by
  have hindices : [0, 1, 2, 3, 4, 5] = List.range 6 := rfl
  rw [rawArgs, hindices, List.take_range]

theorem length_rawArgs (w : CommandWord) : (rawArgs w).length = min (argcOf w).toNat 6 := by
  rw [rawArgs_eq_map, List.length_map, List.length_range]

theorem getD_rawArgs (w : CommandWord) {n : Nat} (hn : n < min (argcOf w).toNat 6) :
    (rawArgs w).getD n 0 = argOf w n := by
  rw [List.getD_eq_getElem _ _ (by rwa [length_rawArgs])]
  simp [rawArgs_eq_map]

/-- A list of operand words is the supplied part of a word when it has their number and each of them. -/
theorem rawArgs_eq {w : CommandWord} {args : List Word} (hlen : args.length = min (argcOf w).toNat 6)
    (hargs : ∀ n, n < args.length → argOf w n = args.getD n 0) : rawArgs w = args := by
  apply List.ext_getElem (by rw [length_rawArgs, hlen])
  intro n h1 h2
  rw [← List.getD_eq_getElem _ 0 h1, ← List.getD_eq_getElem _ 0 h2, getD_rawArgs w (hlen ▸ h2), hargs n h2]

/-! ### What a word says -/

/-- The fields of a command word are those of an operation: its row of the opcode table and the operand words that the
argument count supplies (30_encoding.md R70, R71). -/
structure Says (w : CommandWord) (i : Instr) : Prop where
  rsv : rsvOf w = 0
  opcode : (opcodeOf w).toNat = i.opcode
  argc : argcOf w = i.argc
  operands : rawArgs w = i.operands

/-- An argument count read as a number. -/
theorem argcOf_eq {w : CommandWord} {n : Nat} (h : (argcOf w).toNat = n) : argcOf w = BitVec.ofNat 4 n := by
  rw [← h, BitVec.ofNat_toNat, BitVec.setWidth_eq]

theorem decode_of_rsv {w : CommandWord} (h : rsvOf w = 0) :
    decode w = decodeOperation (opcodeOf w).toNat (argcOf w).toNat w := by
  simp [decode, h]

theorem decode_of_rsv_ne {w : CommandWord} (h : rsvOf w ≠ 0) : decode w = .error .reservedField := if_pos h

/-- An operation that admits one argument count is given only at that count. -/
theorem of_guarded_ok {p : Prop} [Decidable p] {e : DecodeError} {i j : Instr}
    (h : (if p then Except.ok j else Except.error e) = .ok i) : p ∧ j = i := by
  split at h
  · next hp => exact ⟨hp, Except.ok.inj h⟩
  · exact nomatch h

/-- What a word says, for an operation with as many operands as its argument count. -/
theorem Says.of_count {w : CommandWord} {i : Instr} (hrsv : rsvOf w = 0) (ho : (opcodeOf w).toNat = i.opcode) {n : Nat}
    (ha : (argcOf w).toNat = n) (hi : i.argc = BitVec.ofNat 4 n)
    (hargs : ([0, 1, 2, 3, 4, 5].take n).map (argOf w) = i.operands) : Says w i :=
  ⟨hrsv, ho, (argcOf_eq ha).trans hi.symm, by rw [rawArgs, ha, hargs]⟩

/-- The decoder gives an operation only where the word says it. -/
theorem says_of_decode {w : CommandWord} {i : Instr} (h : decode w = .ok i) : Says w i := by
  by_cases hrsv : rsvOf w = 0
  · rw [decode_of_rsv hrsv] at h
    unfold decodeOperation at h
    split at h
    case h_2 hop =>
      split at h
      · next ha => cases h; exact .of_count hrsv hop ha rfl rfl
      · obtain ⟨ha, rfl⟩ := of_guarded_ok h
        exact .of_count hrsv hop ha rfl rfl
    case h_4 hop => cases h; exact ⟨hrsv, hop, rfl, rfl⟩
    case h_12 => exact nomatch h
    all_goals
      next hop =>
        obtain ⟨ha, rfl⟩ := of_guarded_ok h
        exact .of_count hrsv hop ha rfl rfl
  · exact nomatch (decode_of_rsv_ne hrsv).symm.trans h

/-- Where a word says an operation, the decoder gives it. -/
theorem decode_of_says {w : CommandWord} {i : Instr} (h : Says w i) : decode w = .ok i := by
  obtain ⟨hrsv, hopcode, hargc, hoperands⟩ := h
  rw [decode_of_rsv hrsv, hopcode, hargc]
  cases i with
  | rawPacket argc args =>
    obtain rfl : argcOf w = argc := hargc
    obtain rfl : rawArgs w = args := hoperands
    rfl
  | _ =>
    rw [rawArgs, hargc] at hoperands
    cases hoperands
    rfl

/-- The decoder gives an operation exactly where the word says it. -/
theorem decode_eq_ok_iff {w : CommandWord} {i : Instr} : decode w = .ok i ↔ Says w i := ⟨says_of_decode, decode_of_says⟩

/-! ### The encoder's words -/

/-- The encoder's word says the operation it encodes. -/
theorem says_encode {i : Instr} (h : i.wf = true) : Says (encode i) i := by
  have hlen : i.operands.length = min i.argc.toNat 6 := i.wf_iff.mp h
  have hargc : argcOf (encode i) = i.argc := by
    rw [encode_eq_packCommand]
    exact BitVec.eq_of_toNat_eq (argcOf_packCommand _ i.opcode_lt i.argc.isLt)
  refine ⟨?_, ?_, hargc, rawArgs_eq (hargc ▸ hlen) fun n hn => ?_⟩ <;> rw [encode_eq_packCommand]
  · exact rsvOf_packCommand _ i.opcode_lt i.argc.isLt
  · exact opcodeOf_packCommand _ i.opcode_lt i.argc.isLt
  · exact argOf_packCommand _ i.opcode_lt i.argc.isLt (by omega)

/-- Settles O1: the encoder's word says the operation, and the decoder gives what a word says. -/
theorem decodeInvertsEncode : Obligations.DecodeInvertsEncode :=
  fun _ hwf => decode_eq_ok_iff.mpr (says_encode hwf)

/-- A word says well-formed operations only. -/
theorem Says.wf {w : CommandWord} {i : Instr} (h : Says w i) : i.wf = true := by
  rw [i.wf_iff, ← h.operands, ← h.argc, length_rawArgs]

/-- Two words that say one operation supply the same operand words. -/
theorem Says.argOf_eq {w w' : CommandWord} {i : Instr} (h : Says w i) (h' : Says w' i) {n : Nat}
    (hn : n < min (argcOf w).toNat 6) : argOf w' n = argOf w n := by
  have hargc : argcOf w' = argcOf w := h'.argc.trans h.argc.symm
  rw [← getD_rawArgs w hn, ← getD_rawArgs w' (hargc ▸ hn), h'.operands, h.operands]

/-- Settles O2: a word and the encoding of what it decodes to say the same operation. -/
theorem encodeKeepsDecodedFields : Obligations.EncodeKeepsDecodedFields := by
  intro w i h
  have hw : Says w i := decode_eq_ok_iff.mp h
  have he : Says (encode i) i := says_encode hw.wf
  exact ⟨hw.wf, BitVec.eq_of_toNat_eq (he.opcode.trans hw.opcode.symm), he.argc.trans hw.argc.symm,
    he.rsv.trans hw.rsv.symm, fun n hn => hw.argOf_eq he hn⟩

/-! ### Reserved words -/

/-- A guarded operation is refused exactly where the guard fails. -/
theorem guarded_error_iff {p : Prop} [Decidable p] {e : DecodeError} {j : Instr} :
    (∃ e', (if p then Except.ok j else Except.error e) = .error e') ↔ ¬p := by
  by_cases hp : p <;> simp [hp]

/-- An opcode and an argument count outside the map of R71 select no operation. -/
theorem decodeOperation_error_iff (opcode argc : Nat) (w : CommandWord) :
    (∃ e, decodeOperation opcode argc w = .error e) ↔
      opcode = 0 ∨ 0x0B < opcode ∨
        (opcode, argc) ∉
          [(1, 4), (2, 2), (2, 3), (3, 3), (5, 3), (6, 4), (7, 5), (8, 3), (9, 4), (10, 0), (11, 0)] ∧ opcode ≠ 4 := by
  unfold decodeOperation
  split
  case h_2 =>
    by_cases hshort : argc = 2
    · simp [hshort]
    · simp [hshort, guarded_error_iff]
  case h_12 =>
    have houtside : opcode = 0 ∨ 0x0B < opcode := by grind
    exact iff_of_true ⟨_, rfl⟩ (houtside.imp_right .inl)
  all_goals simp [guarded_error_iff]

/-- Settles O3: the decoder checks `rsv`, then the map. -/
theorem decodeRefusesExactlyReservedWords : Obligations.DecodeRefusesExactlyReservedWords := by
  intro w
  by_cases hrsv : rsvOf w = 0
  · rw [decode_of_rsv hrsv, decodeOperation_error_iff, reservedWord]
    simp only [hrsv, ne_eq, not_true_eq_false, false_or]
  · exact iff_of_true ⟨_, decode_of_rsv_ne hrsv⟩ (.inl hrsv)

/-! ### A reserved word at the port -/

/-- With a foreground move of `ch` listed, a step is that move. -/
theorem step_foreground {s : State} {ch : Channel} {g : Grain} {rest : List (Channel × Turn)}
    (h : s.turns = (ch, .foreground g) :: rest) :
    step s = (s.moving ch g rest).lift (foregroundMove g (s.block ch)) := by
  have hstep : step s = foregroundTurn (s.moving ch g rest) := by
    simp only [step, pickTurn, h, takeTurn]
    rfl
  rw [hstep, foregroundTurn_eq_lift, State.cur, moving_block]
  rfl

/-- A block at Idle that ignores a command shows the end's label and changes nothing (60_exceptions.md R160). -/
theorem ignore_of_idle {c : Block} (h : c.seq = .idle) : c.ignore = c.log (.ended .ignored) := by
  rw [Block.ignore, Block.endCommand, ← h]

/-- A word that is no command is taken from the port of an idle block and ignored. -/
theorem foregroundMove_of_decode_error {g : Grain} {c : Block} {w : CommandWord} {ws : List CommandWord}
    {e : DecodeError} (hidle : c.seq = .idle) (hport : c.io.cmds = w :: ws) (herror : decode w = .error e) :
    foregroundMove g c = .ok (c.withCmds ws).ignore := by
  simp only [foregroundMove, hidle, hport, herror]

/-- Settles O7: the decoder refuses the word, and the end of an idle block's command leaves `seq` at Idle. -/
theorem reservedWordIsIgnored : Obligations.ReservedWordIsIgnored := by
  intro s ch g rest w ws hturns hidle hport hreserved
  obtain ⟨e, herror⟩ := (decodeRefusesExactlyReservedWords w).mpr hreserved
  have hignored : ((s.block ch).withCmds ws).ignore = ((s.block ch).withCmds ws).log (.ended .ignored) :=
    ignore_of_idle hidle
  rw [step_foreground hturns, foregroundMove_of_decode_error hidle hport herror, hignored]
  rfl

end Sys2Proof
end

section
/-! The payload fields as numbers: what disjoint bit fields of a byte add up to, and from it the cab address, the speed,
function and accessory bytes and the service-mode packets (30_encoding.md R74 to R82). -/

namespace Sys2Proof.Machine

/-! ### Bit fields of a byte -/

theorem toNat_u8 {n : Nat} (h : n < 256) : (u8 n).toNat = n := by
  rw [u8, BitVec.toNat_ofNat, Nat.mod_eq_of_lt h]

/-- Two bit fields, one of bits from `k` on and one of bits below `k`, add up. -/
theorem toNat_or_fields {a b : Byte} {k m : Nat} (ha : a.toNat = m) (hm : 2 ^ k ∣ m) (hb : b.toNat < 2 ^ k) :
    (a ||| b).toNat = m + b.toNat := by
  obtain ⟨n, rfl⟩ := hm
  rw [BitVec.toNat_or, ha, Nat.two_pow_add_eq_or_of_lt hb]

/-- A field placed at bit `k` above a field below it. -/
theorem toNat_shiftLeft_or {n k m : Nat} {b : Byte} (hm : m = 2 ^ k * n) (hfits : m < 256) (hb : b.toNat < 2 ^ k) :
    ((u8 n <<< k) ||| b).toNat = m + b.toNat := by
  have hn : n < 256 := (Nat.le_mul_of_pos_left n (Nat.two_pow_pos k)).trans_lt (hm ▸ hfits)
  have hplaced : (u8 n <<< k).toNat = m := by
    rw [BitVec.toNat_shiftLeft, toNat_u8 hn, Nat.shiftLeft_eq, Nat.mul_comm, ← hm, Nat.mod_eq_of_lt hfits]
  exact toNat_or_fields hplaced ⟨n, hm⟩ hb

/-- Masking keeps the low `k` bits. -/
theorem toNat_and_mask (b : Byte) {k : Nat} (hk : 2 ^ k - 1 < 256) : (b &&& u8 (2 ^ k - 1)).toNat = b.toNat % 2 ^ k := by
  rw [BitVec.toNat_and, toNat_u8 hk, Nat.and_two_pow_sub_one_eq_mod]

/-! ### Cab addresses -/

/-- A short cab address is the cab itself (30_encoding.md R74). -/
theorem cabBytes_short {cab : Nat} (h : cab ≤ 127) : cabBytes cab = [u8 cab] := if_pos h

/-- A long cab address (R74). -/
theorem cabBytes_long {cab : Nat} (h : 127 < cab) : cabBytes cab = [0xC0 ||| u8 (cab / 256), u8 cab] := by
  rw [cabBytes, if_neg (by omega), Nat.shiftRight_eq_div_pow, BitVec.or_comm]

/-- The first byte of a long cab address: the two marker bits above the cab's high part (R74). -/
theorem toNat_cabFirstByte {cab : Nat} (h : cab ≤ 10239) : (0xC0 ||| u8 (cab / 256)).toNat = 0xC0 + cab / 256 := by
  have hhigh : (u8 (cab / 256)).toNat = cab / 256 := toNat_u8 (by omega)
  rw [toNat_or_fields (k := 6) (m := 0xC0) rfl (by decide) (by omega), hhigh]

/-- Reading one byte below 0x80 (R75). -/
theorem cabOf_short {b : Byte} (h : b.toNat < 0x80) : cabOf [b] = b.toNat := if_pos h

/-- Reading two bytes, the first 0x80 or more (R75). -/
theorem cabOf_long {b0 b1 : Byte} (h : 0x80 ≤ b0.toNat) : cabOf [b0, b1] = b0.toNat % 64 * 256 + b1.toNat := by
  have hmask : (b0 &&& 0x3F).toNat = b0.toNat % 64 := toNat_and_mask b0 (k := 6) (by decide)
  rw [← hmask]
  exact if_neg (by simpa using h)

/-- Settles O14: the first byte is below 0x80 for a cab to 127, and 0xC0 or more with the high part above. -/
theorem cabAddressRoundTrip : Obligations.CabAddressRoundTrip := by
  intro cab hcab
  rcases Nat.lt_or_ge 127 cab with hlong | hshort
  · have hfirst := toNat_cabFirstByte hcab
    have hsecond : (u8 cab).toNat = cab % 256 := BitVec.toNat_ofNat cab 8
    rw [cabBytes_long hlong, cabOf_long (by omega), hfirst, hsecond]
    refine ⟨by omega, .inr ⟨rfl, ?_⟩⟩
    rw [List.getD_cons_zero, hfirst]
    exact Nat.le_add_right _ _
  · have hbyte : (u8 cab).toNat = cab := toNat_u8 (by omega)
    rw [cabBytes_short hshort, cabOf_short (by omega), hbyte]
    refine ⟨rfl, .inl ⟨rfl, ?_⟩⟩
    rw [List.getD_cons_zero, hbyte]
    omega

/-! ### Speed, function and accessory bytes -/

theorem speedCode_negative {speed : Int} (h : speed < 0) : speedCode speed = 1 := by
  simp [speedCode, h]

theorem speedCode_stop : speedCode 0 = 0 := rfl

theorem speedCode_positive {speed : Int} (h : 0 < speed) : (speedCode speed : Int) = min speed 126 + 1 := by
  have hnonneg : ¬speed < 0 := by omega
  have hmoving : min speed 126 ≠ 0 := by omega
  simp only [speedCode, hnonneg, hmoving, if_false]
  omega

theorem speedCode_lt (speed : Int) : speedCode speed < 128 := by
  rcases lt_trichotomy speed 0 with hneg | rfl | hpos
  · rw [speedCode_negative hneg]
    decide
  · decide
  · have := speedCode_positive hpos
    omega

/-- The speed byte is the direction above the speed code (R76). -/
theorem toNat_speedByte (speed : Int) {dir : Nat} (h : dir ≤ 1) :
    (speedByte speed dir).toNat = 128 * dir + speedCode speed := by
  have hlt := speedCode_lt speed
  have hcode : (u8 (speedCode speed)).toNat = speedCode speed := toNat_u8 (by omega)
  rw [speedByte, BitVec.or_comm, toNat_shiftLeft_or (m := 128 * dir) rfl (by omega) (by omega), hcode]

/-- The short function byte forces bits 7 and 6 to 1 and 0 and keeps the rest (R77). -/
theorem fShort_eq (b : Byte) : fShort b = 0x80 ||| (b &&& 0x3F) := by
  unfold fShort
  ext i hi
  interval_cases i <;> simp

/-- The long function byte forces all bits but bit 0 (R78). -/
theorem fLong_eq (b : Byte) : fLong b = 0xDE ||| (b &&& 0x01) := by
  unfold fLong
  ext i hi
  interval_cases i <;> simp

theorem toNat_fShort (b : Byte) : (fShort b).toNat = 0x80 + b.toNat % 64 := by
  have hlow : (b &&& 0x3F).toNat = b.toNat % 64 := toNat_and_mask b (k := 6) (by decide)
  rw [fShort_eq, toNat_or_fields (k := 6) (m := 0x80) rfl (by decide) (by omega), hlow]

theorem toNat_fLong (b : Byte) : (fLong b).toNat = 0xDE + b.toNat % 2 := by
  have hlow : (b &&& 0x01).toNat = b.toNat % 2 := toNat_and_mask b (k := 1) (by decide)
  rw [fLong_eq, toNat_or_fields (k := 1) (m := 0xDE) rfl (by decide) (by omega), hlow]

/-- The first accessory byte: the marker bit above the low 6 address bits (R79). -/
theorem toNat_acc0 (addr : Nat) : (acc0 addr).toNat = 0x80 + addr % 64 := by
  have hlow : (u8 (addr &&& 0x3F)).toNat = addr % 64 := by
    rw [Nat.and_two_pow_sub_one_eq_mod addr 6]
    exact toNat_u8 (by omega)
  rw [acc0, BitVec.or_comm, toNat_or_fields (k := 7) (m := 0x80) rfl (by decide) (by omega), hlow]

/-- The second accessory byte before its upper bits are inverted: three fields (R79). -/
theorem toNat_accFields {high port act : Nat} (hh : high ≤ 7) (hp : port ≤ 3) (ha : act ≤ 1) :
    ((u8 high <<< 4) ||| (u8 port <<< 1) ||| u8 act).toNat = 16 * high + (2 * port + act) := by
  have hact : (u8 act).toNat = act := toNat_u8 (by omega)
  have hlow : ((u8 port <<< 1) ||| u8 act).toNat = 2 * port + act := by
    rw [toNat_shiftLeft_or (m := 2 * port) rfl (by omega) (by omega), hact]
  rw [BitVec.or_assoc, toNat_shiftLeft_or (m := 16 * high) rfl (by omega) (by omega), hlow]

/-- Inverting bits 7 to 3 of a byte of three such fields: bits 7 and 3 were 0, and the high address part is
complemented (R79). -/
theorem toNat_invert {high low : Nat} (hh : high ≤ 7) (hl : low ≤ 7) {b : Byte} (hb : b.toNat = 16 * high + low) :
    (b ^^^ 0xF8).toNat = 0x80 + 16 * (7 - high) + 8 + low := by
  have hfinite : ∀ h < 8, ∀ l < 8, (16 * h + l) ^^^ 0xF8 = 0x80 + 16 * (7 - h) + 8 + l := by decide
  rw [BitVec.toNat_xor, hb]
  exact hfinite high (by omega) low (by omega)

/-- The second accessory byte, for an address of 9 bits (R79). -/
theorem toNat_acc1 {addr port act : Nat} (h : addr ≤ 511) (hp : port ≤ 3) (ha : act ≤ 1) :
    (acc1 addr port act).toNat = 0x80 + 16 * (7 - addr / 64) + 8 + 2 * port + act := by
  have hhigh : (addr >>> 6) &&& 7 = addr / 64 := by
    rw [Nat.and_two_pow_sub_one_eq_mod _ 3, Nat.shiftRight_eq_div_pow]
    omega
  rw [acc1, hhigh, toNat_invert (by omega) (by omega) (toNat_accFields (by omega) hp ha), ← Nat.add_assoc]

/-- Settles O15: each byte by its fields. -/
theorem operandByteFields : Obligations.OperandByteFields := by
  refine ⟨fun speed dir hdir => ?_, fun b => ?_, toNat_fLong, fun addr port act haddr hport hact =>
    ⟨toNat_acc0 addr, toNat_acc1 haddr hport hact⟩⟩
  · have hbyte := toNat_speedByte speed hdir
    have hlt := speedCode_lt speed
    have hcode : (speedByte speed dir).toNat % 128 = speedCode speed := by omega
    refine ⟨by omega, fun hneg => ?_, fun hstop => ?_, fun hpos => ?_⟩
    · rw [hcode, speedCode_negative hneg]
    · rw [hcode, hstop, speedCode_stop]
    · rw [← speedCode_positive hpos]
      exact_mod_cast hcode
  · have hbyte := toNat_fShort b
    omega

/-! ### Service-mode packets -/

/-- A CV number in range reads the same without its sign. -/
theorem toNat_cv_bounds {cv : Word} (h1 : 1 ≤ cv.toInt) (h2 : cv.toInt ≤ 1024) : 1 ≤ cv.toNat ∧ cv.toNat ≤ 1024 := by
  have hsigned : cv.toInt = cv.toNat := by
    have hsign := cv.toInt_neg_iff
    exact BitVec.toInt_eq_toNat_of_lt (by omega)
  omega

theorem toNat_cvHi {cv : Word} (h : cv.toNat ≤ 1024) : (cvHi cv).toNat = (cv.toNat - 1) / 256 := by
  rw [cvHi, Nat.and_two_pow_sub_one_eq_mod _ 2, Nat.shiftRight_eq_div_pow, toNat_u8 (by omega)]
  omega

theorem toNat_cvLo (cv : Word) : (cvLo cv).toNat = (cv.toNat - 1) % 256 := BitVec.toNat_ofNat _ 8

/-- A service packet carries the high part of the CV address in its first byte, beside a selector that leaves room for
it, the low part in the second, and its data byte in the third (R81). -/
theorem toNat_servicePacket {cv : Word} (h : cv.toNat ≤ 1024) {selector data : Byte} (hs : selector.toNat < 0xFC) :
    [selector + cvHi cv, cvLo cv, data].map BitVec.toNat =
      [selector.toNat + (cvHi cv).toNat, (cvLo cv).toNat, data.toNat] := by
  have hhigh := toNat_cvHi h
  have hfirst : (selector + cvHi cv).toNat = selector.toNat + (cvHi cv).toNat := BitVec.toNat_add_of_lt (by omega)
  rw [List.map_cons, List.map_cons, List.map_cons, List.map_nil, hfirst]

/-- The data byte of a verify-bit read probe (R82). -/
theorem toNat_probeData {i : Nat} (h : i ≤ 7) : (0xE8 + u8 i).toNat = 0xE8 + i := by
  have hi : (u8 i).toNat = i := toNat_u8 (by omega)
  have hselector : (0xE8 : Byte).toNat = 0xE8 := rfl
  rw [BitVec.toNat_add_of_lt (by omega), hi, hselector]

theorem toNat_bitPattern {v b : Nat} (hv : v ≤ 1) (hb : b ≤ 7) : (bitPattern v b).toNat = 8 * v + b := by
  have hbit : (u8 b).toNat = b := toNat_u8 (by omega)
  rw [bitPattern, toNat_shiftLeft_or (m := 8 * v) rfl (by omega) (by omega), hbit]

/-- The data byte of a bit packet: a selector in the high nibble above the bit pattern (R82). -/
theorem toNat_or_bitPattern {v b : Nat} (hv : v ≤ 1) (hb : b ≤ 7) {selector : Byte} {m : Nat}
    (hs : selector.toNat = m) (hm : 16 ∣ m) : (selector ||| bitPattern v b).toNat = m + 8 * v + b := by
  have hpattern := toNat_bitPattern hv hb
  rw [toNat_or_fields (k := 4) hs hm (by omega), hpattern, Nat.add_assoc]

/-- Settles O16: the two parts of the address are its quotient and remainder by 256, and each packet carries them. -/
theorem servicePacketFields : Obligations.ServicePacketFields := by
  intro cv hlow hhigh
  obtain ⟨h1, h1024⟩ := toNat_cv_bounds hlow hhigh
  have hhi := toNat_cvHi h1024
  have hlo := toNat_cvLo cv
  refine ⟨by omega, by omega, fun i hi => ?_, fun v => ⟨?_, ?_⟩, fun v b hv hb => ⟨?_, ?_⟩⟩
  · rw [probeBit, toNat_servicePacket h1024 (by decide), toNat_probeData hi]
    rfl
  · exact toNat_servicePacket h1024 (by decide)
  · exact toNat_servicePacket h1024 (by decide)
  · rw [probeWriteBit, toNat_servicePacket h1024 (by decide), toNat_or_bitPattern hv hb rfl (by decide)]
    rfl
  · rw [probeVerifyBit, toNat_servicePacket h1024 (by decide), toNat_or_bitPattern hv hb rfl (by decide)]
    rfl

end Sys2Proof.Machine
end

section
/-! The frame bits past the stop bit (30_encoding.md R90; 40_encoder.md R104). -/

namespace Sys2Proof.Machine

/-- Past the stop bit the encoder writes only the invalid flag (30_encoding.md R90). -/
theorem frameBit_packFrame_past {q : List Byte} (hq : q.length ≤ 6) {p : Nat} (hp : 9 * q.length + 1 ≤ p) :
    frameBit (packFrame q) p = decide (p = 55) := by
  have hstop : p ≠ 9 * q.length := by omega
  have hdata : p ∉ onesFrom 0 q := fun h => absurd (onesFrom_lt h) (by omega)
  rw [frameBit_packFrame hq, decide_eq_false hstop, decide_eq_false hdata, Bool.or_false, Bool.or_false]

/-- Settles O19: publishing a frame clears the one bit that is 1 past its end. -/
theorem bitsPastTheFrameAreZero : Obligations.BitsPastTheFrameAreZero := by
  intro q _ hq p hp _
  have hpast := frameBit_packFrame_past hq hp
  refine ⟨by rw [encodedFrame, hpast, decide_eq_true_iff], ?_⟩
  rw [publishedFrame, frameBit_clearFlag, hpast, ← Bool.decide_and]
  exact decide_eq_false fun h => h.1 h.2

end Sys2Proof.Machine
end

section
/-! The encoder (40_encoder.md): what the frame says at each position, read from it the per-byte closed form (R98) and
the decoding law (R102); the fixed frames (R103 to R105); and the encoder call's exact effect (R101). -/

namespace Sys2Proof.Machine

/-! ### The frame, position by position -/

/-- The positions `9 m` carry the start bits, 0, and after the last byte the stop bit, 1 (R97, R102). -/
theorem frameBit_packFrame_boundary {q : List Byte} (hq : q.length ≤ 6) (m : Nat) :
    frameBit (packFrame q) (9 * m) = decide (m = q.length) := by
  have hflag : 9 * m ≠ 55 := by omega
  have hdata : 9 * m ∉ onesFrom 0 q := fun h => by
    obtain ⟨i, t, -, ht, -, hp⟩ := mem_onesFrom.mp h
    omega
  rw [frameBit_packFrame hq, decide_eq_false hflag, decide_eq_false hdata, Bool.false_or, Bool.or_false,
    decide_eq_decide]
  omega

/-- A packet has no bits past its last byte. -/
theorem getLsbD_getD_past {q : List Byte} {m : Nat} (h : q.length ≤ m) (i : Nat) : (q.getD m 0).getLsbD i = false := by
  rw [List.getD_eq_default _ _ h]
  exact BitVec.getLsbD_zero

/-- A position between two boundaries is a 1 of the data exactly when that bit of its byte is 1. -/
theorem mem_onesFrom_zero_iff {q : List Byte} {m t : Nat} (ht : t < 8) :
    9 * m + 1 + t ∈ onesFrom 0 q ↔ (q.getD m 0).getLsbD (7 - t) = true := by
  rw [mem_onesFrom]
  constructor
  · rintro ⟨m', t', -, ht', hbit, hp⟩
    obtain rfl : m = m' := by omega
    obtain rfl : t = t' := by omega
    exact hbit
  · intro hbit
    have hm : m < q.length := by
      by_contra hpast
      rw [getLsbD_getD_past (by omega)] at hbit
      exact Bool.false_ne_true hbit
    exact ⟨m, t, hm, ht, hbit, by omega⟩

/-- The eight positions after boundary `m` carry byte `m`, most significant bit first; past the packet they are 0, but
for the invalid flag (R97). -/
theorem frameBit_packFrame_data {q : List Byte} (hq : q.length ≤ 6) (m : Nat) {t : Nat} (ht : t < 8) :
    frameBit (packFrame q) (9 * m + 1 + t) = (decide (9 * m + 1 + t = 55) || (q.getD m 0).getLsbD (7 - t)) := by
  have hstop : 9 * m + 1 + t ≠ 9 * q.length := by omega
  rw [frameBit_packFrame hq, decide_eq_false hstop, Bool.false_or]
  congr 1
  rw [Bool.eq_iff_iff, decide_eq_true_iff, mem_onesFrom_zero_iff ht]

/-! ### The closed form -/

/-- Byte `n` of the frame by the formula of R98, for a packet of `k + 1` bytes: the low bits of byte `n - 1`, the high
bits of byte `n`, the stop bit and the invalid flag. -/
def closedByte (k : Nat) (q : List Byte) (n : Nat) : Byte :=
  (if 1 ≤ n ∧ n ≤ k + 1 then (q.getD (n - 1) 0 &&& u8 (2 ^ n - 1)) <<< (8 - n) else 0) |||
    (if n ≤ k then q.getD n 0 >>> (n + 1) else 0) ||| (if n = k + 1 then 1#8 <<< (6 - k) else 0) |||
    (if n = 6 then 1 else 0)

/-- Frame bit `8 n + r` is bit `7 - r` of byte `n` of the buffer. -/
theorem frameBit_byte (buf : List Byte) (n : Nat) {r : Nat} (hr : r < 8) :
    frameBit buf (8 * n + r) = (buf.getD n 0).getLsbD (7 - r) := by
  have hbyte : (8 * n + r) / 8 = n := by omega
  have hindex : (8 * n + r) % 8 = r := by omega
  rw [frameBit, hbyte, hindex]

/-- Bytes whose bits, most significant first, are equal are equal. -/
theorem byte_eq_of_bits {b b' : Byte} (h : ∀ r < 8, b.getLsbD (7 - r) = b'.getLsbD (7 - r)) : b = b' := by
  refine BitVec.eq_of_getLsbD_eq fun i hi => ?_
  have hbit := h (7 - i) (by omega)
  rwa [show 7 - (7 - i) = i by omega] at hbit

/-- Buffers of one length with equal frame bits are equal. -/
theorem eq_of_frameBit_eq {b b' : List Byte} (hlen : b.length = b'.length)
    (h : ∀ n < b.length, ∀ r < 8, frameBit b (8 * n + r) = frameBit b' (8 * n + r)) : b = b' := by
  refine List.ext_getElem hlen fun n hn hn' => byte_eq_of_bits fun r hr => ?_
  have hbit := h n hn r hr
  rwa [frameBit_byte b n hr, frameBit_byte b' n hr, List.getD_eq_getElem _ _ hn, List.getD_eq_getElem _ _ hn'] at hbit

theorem getLsbD_ite_zero (p : Prop) [Decidable p] (b : Byte) (i : Nat) :
    (if p then b else 0).getLsbD i = (decide p && b.getLsbD i) := by
  split <;> simp [*]

/-- The mask of the low `n` bits of a byte. -/
theorem getLsbD_lowMask (n : Nat) {i : Nat} (hi : i < 8) : (u8 (2 ^ n - 1)).getLsbD i = decide (i < n) := by
  rw [u8, BitVec.getLsbD_ofNat, Nat.testBit_two_pow_sub_one, decide_eq_true hi, Bool.true_and]

/-- The low `n` bits of a byte, moved to the top, are the first `n` bits sent. -/
theorem getLsbD_lowBits (b : Byte) {n r : Nat} (hn : n ≤ 8) (hr : r < 8) :
    ((b &&& u8 (2 ^ n - 1)) <<< (8 - n)).getLsbD (7 - r) = (decide (r < n) && b.getLsbD (n - 1 - r)) := by
  rw [BitVec.getLsbD_shiftLeft, decide_eq_true (show 7 - r < 8 by omega), Bool.true_and]
  by_cases h : r < n
  · have hindex : 7 - r - (8 - n) = n - 1 - r := by omega
    have hkept : n - 1 - r < n := by omega
    have hnot : ¬7 - r < 8 - n := by omega
    rw [hindex, BitVec.getLsbD_and, getLsbD_lowMask n (by omega)]
    simp [h, hkept, hnot]
  · have hbelow : 7 - r < 8 - n := by omega
    simp [h, hbelow]

/-- The other bits of a byte, moved down by `n + 1`, follow at the positions past `n`. -/
theorem getLsbD_highBits (b : Byte) {n r : Nat} (hr : r < 8) :
    (b >>> (n + 1)).getLsbD (7 - r) = (decide (n < r) && b.getLsbD (8 + n - r)) := by
  have hindex : n + 1 + (7 - r) = 8 + n - r := by omega
  rw [BitVec.getLsbD_ushiftRight, hindex]
  by_cases h : n < r
  · simp [h]
  · simp [h, BitVec.getLsbD_of_ge b (8 + n - r) (by omega)]

/-- The stop bit stands at bit `6 - k` of its byte. -/
theorem getLsbD_stopBit {k r : Nat} (hk : k ≤ 5) (hr : r < 8) :
    (1#8 <<< (6 - k)).getLsbD (7 - r) = decide (r = k + 1) := by
  rw [← BitVec.twoPow_eq, BitVec.getLsbD_twoPow, decide_eq_true (by omega), Bool.true_and, decide_eq_decide]
  omega

/-- The invalid flag is bit 0 of its byte. -/
theorem getLsbD_flagBit {r : Nat} (hr : r < 8) : (1 : Byte).getLsbD (7 - r) = decide (r = 7) := by
  interval_cases r <;> decide

/-- Every bit of the closed form. -/
theorem getLsbD_closedByte {k : Nat} (hk : k ≤ 5) (q : List Byte) {n r : Nat} (hn : n ≤ 8) (hr : r < 8) :
    (closedByte k q n).getLsbD (7 - r) =
      (decide (1 ≤ n ∧ n ≤ k + 1) && (decide (r < n) && (q.getD (n - 1) 0).getLsbD (n - 1 - r)) ||
        decide (n ≤ k) && (decide (n < r) && (q.getD n 0).getLsbD (8 + n - r)) ||
        decide (n = k + 1) && decide (r = k + 1) || decide (n = 6) && decide (r = 7)) := by
  simp only [closedByte, BitVec.getLsbD_or, getLsbD_ite_zero, getLsbD_lowBits _ hn hr, getLsbD_highBits _ hr,
    getLsbD_stopBit hk hr, getLsbD_flagBit hr]

/-- Bit for bit the closed form is the frame: position `8 n + r` lies in byte `n - 1` of the packet when `r < n`, on
boundary `n` when `r = n`, and in byte `n` when `n < r` (R98). -/
theorem getLsbD_closedByte_eq_frameBit {k : Nat} {q : List Byte} (hlen : q.length = k + 1) (hk : k ≤ 5) {n r : Nat}
    (hn : n ≤ 8) (hr : r < 8) : (closedByte k q n).getLsbD (7 - r) = frameBit (packFrame q) (8 * n + r) := by
  have hq : q.length ≤ 6 := by omega
  rw [getLsbD_closedByte hk q hn hr]
  rcases lt_trichotomy r n with hlow | rfl | hhigh
  · have hpos : 8 * n + r = 9 * (n - 1) + 1 + (8 - n + r) := by omega
    have hbit : 7 - (8 - n + r) = n - 1 - r := by omega
    have hflag : 9 * (n - 1) + 1 + (8 - n + r) ≠ 55 := by omega
    have hpast : k + 1 < n → (q.getD (n - 1) 0).getLsbD (n - 1 - r) = false := fun h => getLsbD_getD_past (by omega) _
    rw [hpos, frameBit_packFrame_data hq _ (by omega), hbit]
    grind
  · have hpos : 8 * r + r = 9 * r := by omega
    rw [hpos, frameBit_packFrame_boundary hq, hlen]
    grind
  · have hpos : 8 * n + r = 9 * n + 1 + (r - n - 1) := by omega
    have hbit : 7 - (r - n - 1) = 8 + n - r := by omega
    have hpast : k < n → (q.getD n 0).getLsbD (8 + n - r) = false := fun h => getLsbD_getD_past (by omega) _
    rw [hpos, frameBit_packFrame_data hq _ (by omega), hbit]
    grind

/-- Settles O17: the packing loop and the closed form agree on all 72 frame bits. -/
theorem encoderClosedForm : Obligations.EncoderClosedForm := by
  intro q hlow hhigh
  have hlen : q.length = q.length - 1 + 1 := by omega
  show packFrame q = (List.range 9).map (closedByte (q.length - 1) q)
  refine eq_of_frameBit_eq (by simp) fun n hn r hr => ?_
  rw [length_packFrame] at hn
  rw [← getLsbD_closedByte_eq_frameBit hlen (by omega) (by omega) hr, frameBit_byte _ n hr]
  simp [hn]

/-! ### The packet read back -/

/-- The bits of a byte read back are the frame bits it is read from. -/
theorem getLsbD_frameByte (buf : List Byte) (i : Nat) {t : Nat} (ht : t < 8) :
    (frameByte buf i).getLsbD (7 - t) = frameBit buf (9 * i + 1 + t) := by
  have hindex : 7 - (7 - t) = t := by omega
  have hbit : 7 - t < 8 := by omega
  refine BitVec.getLsbD_ofBoolListBE.trans ?_
  simp [hindex, ht, hbit]

/-- Each byte of the packet is read back from its frame (R102). -/
theorem frameByte_packFrame {q : List Byte} (hq : q.length ≤ 6) {i : Nat} (hi : i < q.length) :
    frameByte (packFrame q) i = q.getD i 0 := by
  refine byte_eq_of_bits fun t ht => ?_
  rw [getLsbD_frameByte _ _ ht, frameBit_packFrame_data hq i ht, decide_eq_false (by omega), Bool.false_or]

/-- A payload with its checksum XORs to 0 (R96, R102). -/
theorem checksum_append_checksum (payload : List Byte) : checksum (payload ++ [checksum payload]) = 0 := by
  rw [checksum, List.foldl_append]
  exact BitVec.xor_self

/-- The length field holds the length of every packet that fits a slot (R97). -/
theorem toNat_frameLength {q : List Byte} (hq : q.length ≤ 6) : (frameLength q).toNat = 9 * q.length + 1 := by
  rw [frameLength, BitVec.toNat_ofNat, Nat.mod_eq_of_lt (by omega)]

/-- Settles O18: each clause reads the frame at the boundaries or between two of them. -/
theorem encoderDecodingLaw : Obligations.EncoderDecodingLaw := by
  intro payload _ hhigh q f
  have hlen : q.length = payload.length + 1 := List.length_append
  have hq : q.length ≤ 6 := by omega
  have hbits : f.bits.toNat = 9 * q.length + 1 := toNat_frameLength hq
  refine ⟨by omega, fun i hi => ?_, ?_, fun i hi => frameByte_packFrame hq hi, checksum_append_checksum payload⟩
  · exact (frameBit_packFrame_boundary hq i).trans (decide_eq_false hi.ne)
  · rw [hbits]
    exact (frameBit_packFrame_boundary hq _).trans (decide_eq_true rfl)

/-! ### The encoder call -/

/-- The packet of an encoder call is the payload with its checksum (R96). -/
theorem nextPacket_eq {c : Block} (h : c.payload.k < c.payload.p.length) :
    c.nextPacket = c.payload.p.take c.payload.k ++ [checksum (c.payload.p.take c.payload.k)] := by
  show (c.payload.p.set c.payload.k (checksum (c.payload.p.take c.payload.k))).take (c.payload.k + 1) = _
  rw [List.take_add_one, List.take_set_of_le (Nat.le_refl _), List.getElem?_set_self h, Option.toList_some]

/-- The length fields of the other slots after an encoder call. -/
theorem bitCounts_encoded_other (c : Block) {i j : Nat} (h : i ≠ j) :
    (c.encoded j).table.bitCounts.getD i 0 = c.table.bitCounts.getD i 0 := by
  show (c.table.bitCounts.set j _).getD i 0 = _
  rw [List.getD_eq_getElem?_getD, List.getElem?_set_ne h.symm, ← List.getD_eq_getElem?_getD]

/-- Settles O21: the call answers the block `encoded` gives, whose slot and frame are known. -/
theorem encoderWritesOnlyItsSlot : Obligations.EncoderWritesOnlyItsSlot := by
  intro j c hj hcounts hk _
  have hslot : j < c.slots := Nat.lt_succ_of_le hj
  refine ⟨c.encoded j, encodeInto_ok hslot, ?_, fun a ha => byteAt_encoded_other c ?_,
    fun i hi => bitCounts_encoded_other c hi, rfl⟩
  · rw [slotFrame_encoded c (hcounts ▸ hslot), nextPacket_eq hk]
  · unfold inSlot at ha
    omega

/-! ### The fixed frames -/

/-- The worked example, published (R105). -/
theorem publishedFrame_example :
    publishedFrame [0x2A, 0x3F, 0xC1, 0xD4] = ⟨37, [0x15, 0x0F, 0xD8, 0x2D, 0x48, 0x00, 0x00, 0x00, 0x00]⟩ := by
  decide

/-- Settles O20: closed frames, evaluated; the track bits are those of the published example behind the preamble. -/
theorem fixedFramesAreEncoded : Obligations.FixedFramesAreEncoded := by
  refine ⟨by decide, by decide, by decide, by decide, publishedFrame_example, by decide, fun q => ?_⟩
  rw [publishedFrame_example]
  rfl

end Sys2Proof.Machine
end

section
/-! What each move of a block does to the registers of the loader (10_state.md R25 to R31, R38), said once, so that the
invariants of 41_slot_table_loader.md section 6 need no look at the moves that touch none of them. -/

namespace Sys2Proof.Machine

/-! ### Where a block stands -/

/-- No load is under way. -/
def Block.OutsideLoad (c : Block) : Prop := ∀ op lp x ret, c.seq ≠ .run op (.load lp x ret)

/-- No load is under way, or the one that is has only its record left to write (41_slot_table_loader.md R113): the slot
table is as it is at Idle. -/
def Block.BetweenLoads (c : Block) : Prop :=
  ∀ op lp x ret, c.seq = .run op (.load lp x ret) → lp = .o4 ∨ lp = .p9

theorem loading_or_outsideLoad (c : Block) : (∃ op lp x ret, c.seq = .run op (.load lp x ret)) ∨ c.OutsideLoad := by
  by_cases h : ∃ op lp x ret, c.seq = .run op (.load lp x ret)
  · exact .inl h
  · exact .inr fun op lp x ret hs => h ⟨op, lp, x, ret, hs⟩

theorem Block.OutsideLoad.of_seq {c c' : Block} (h : c.OutsideLoad) (hseq : c'.seq = c.seq) : c'.OutsideLoad := by
  rwa [Block.OutsideLoad, hseq]

theorem outsideLoad_of_idle {c : Block} (h : c.seq = .idle) : c.OutsideLoad := by simp [Block.OutsideLoad, h]

theorem Block.OutsideLoad.betweenLoads {c : Block} (h : c.OutsideLoad) : c.BetweenLoads :=
  fun op lp x ret hs => absurd hs (h op lp x ret)

/-! ### Moves that leave the loader's registers alone -/

/-- From `c` to `c'` the slot table, the hand-off and the payload are as before. -/
structure Block.LoaderKept (c c' : Block) : Prop where
  params : c'.params = c.params
  table : c'.table = c.table
  next : c'.next = c.next
  payload : c'.payload = c.payload

theorem Block.LoaderKept.trans {a b c : Block} (hab : a.LoaderKept b) (hbc : b.LoaderKept c) : a.LoaderKept c where
  params := hbc.params.trans hab.params
  table := hbc.table.trans hab.table
  next := hbc.next.trans hab.next
  payload := hbc.payload.trans hab.payload

/-- What a move of context B or of the host can do to the registers of the loader: adopt the hand-off, nothing else. -/
structure Block.Undisturbed (c c' : Block) : Prop where
  params : c'.params = c.params
  seq : c'.seq = c.seq
  table : c'.table = c.table
  payload : c'.payload = c.payload
  next : c'.next = c.next ∨ c'.next = none
  latched : c.engine.latched.buf.length = 9 → c'.engine.latched.buf.length = 9

theorem engineStep_undisturbed {c c' : Block} (h : engineStep c = .ok c') : c.Undisturbed c' := by
  rcases engineStep_cases h with ⟨-, rfl⟩ | ⟨-, j, -, -, rfl⟩ | ⟨-, -, j, -, -, -, rfl⟩ | ⟨-, -, -, rfl⟩
  · exact ⟨rfl, rfl, rfl, rfl, .inl rfl, id⟩
  · exact ⟨rfl, rfl, rfl, rfl, .inr rfl, fun _ => length_getBytes _ _ 9⟩
  · exact ⟨rfl, rfl, rfl, rfl, .inr rfl, fun _ => length_getBytes _ _ 9⟩
  · exact ⟨rfl, rfl, rfl, rfl, .inr rfl, fun _ => rfl⟩

theorem hostConfigWrite_undisturbed (c : Block) (v : Bool) : c.Undisturbed (hostConfigWrite v c) := by
  unfold hostConfigWrite
  split <;> exact ⟨rfl, rfl, rfl, rfl, .inl rfl, id⟩

theorem currentCheck_undisturbed (c : Block) : c.Undisturbed (currentCheck c) := by
  obtain ⟨a, io, out, hcheck, -⟩ := currentCheck_eq c
  rw [hcheck]
  exact ⟨rfl, rfl, rfl, rfl, .inl rfl, id⟩

/-- A property of a block that a step of context A, a move that leaves the loader undisturbed, and a power-on reset all
keep, is kept by every step of the station. -/
theorem step_keeps {P : Block → Prop} (micro : ∀ op c c', P c → Micro op c c' → P c')
    (undisturbed : ∀ c c', P c → c.Undisturbed c' → P c') {s t : State}
    (reset : (pickTurn s).1 = .powerOnReset → ∀ c, P c → P (powerOnReset c)) (h : step s = .next t) (ch : Channel)
    (hs : P (s.block ch)) : P (t.block ch) := by
  refine step_rel (R := fun c c' => P c → P c') (fun _ => id) (fun _ _ _ hab hbc => hbc ∘ hab)
    ?micro ?take ?ign ?engine ?out ?config ?check ?reset h ch hs
  case micro => exact fun i c c' hserves hmicro hc => micro i c c' hc (microStep_cases hserves hmicro)
  case take => exact fun c ws hc => undisturbed _ _ hc ⟨rfl, rfl, rfl, rfl, .inl rfl, id⟩
  case ign => exact fun c hidle hc => undisturbed _ _ hc ⟨rfl, hidle.symm, rfl, rfl, .inl rfl, id⟩
  case engine => exact fun c c' hengine hc => undisturbed _ _ hc (engineStep_undisturbed hengine)
  case out => exact fun c v hc => undisturbed _ _ hc ⟨rfl, rfl, rfl, rfl, .inl rfl, id⟩
  case config => exact fun c v hc => undisturbed _ _ hc (hostConfigWrite_undisturbed c v)
  case check => exact fun c hc => undisturbed _ _ hc (currentCheck_undisturbed c)
  case reset => exact fun hreset c hc => reset hreset c hc

/-! ### Context A between two loads -/

/-- Everything a step of context A between two loads can do to the registers of the loader: nothing, with no load under
way after it, or it begins the next load. -/
inductive Between (op : Instr) (c c' : Block) : Prop
  | outside (hkept : c.LoaderKept c') (hout : c'.OutsideLoad)
  | begun (d : Block) (s : Nat) (bytes : List Byte) (rep : Byte) (ret : LoadRet) (hkept : c.LoaderKept d)
      (h2 : 2 ≤ bytes.length) (h5 : bytes.length ≤ 5) (h : beginLoad op s bytes rep ret d = .ok c')

/-- What went before may be added in front. -/
theorem Between.of_kept {op : Instr} {c d c' : Block} (hkept : c.LoaderKept d) (h : Between op d c') :
    Between op c c' := by
  cases h with
  | outside hkept' hout => exact .outside (hkept.trans hkept') hout
  | begun e s bytes rep ret hkept' h2 h5 hload => exact .begun e s bytes rep ret (hkept.trans hkept') h2 h5 hload

theorem After.between {op : Instr} {c c' : Block} (h : After op c c') : Between op c c' := by
  cases h with
  | done => exact .outside ⟨rfl, rfl, rfl, rfl⟩ (outsideLoad_of_idle rfl)
  | preamble => exact .outside ⟨rfl, rfl, rfl, rfl⟩ (by simp [Block.OutsideLoad])
  | load _ v s bytes rep ret _ _ _ h2 h5 _ hload => 
    have hcopy : c.LoaderKept { c with svc := v } := ⟨rfl, rfl, rfl, rfl⟩
    exact .begun _ s bytes rep ret hcopy h2 h5 hload

theorem reinstallReset_between {op : Instr} {ret : LoadRet} {c d c' : Block} (hkept : c.LoaderKept d)
    (h : reinstallReset op ret d = .ok c') : Between op c c' :=
  .begun d 1 resetPayload 0 ret hkept (by decide) (by decide) h

theorem drawCurrent_loaderKept (c : Block) : c.LoaderKept (drawCurrent c).2 := by
  obtain ⟨io, hio, -, -⟩ := drawCurrent_eq c
  rw [hio]
  exact ⟨rfl, rfl, rfl, rfl⟩

theorem takeSample_between (op : Instr) (l : Leg) (c : Block) : Between op c (takeSample op l c) := by
  obtain ⟨cur, tick, io, hsample, -⟩ := takeSample_eq op l c
  rw [hsample]
  exact .outside ⟨rfl, rfl, rfl, rfl⟩ (by simp [Block.OutsideLoad])

theorem recordLastLoad_loaderKept (x : LoadCtx) (c : Block) : c.LoaderKept (recordLastLoad x c) := by
  obtain ⟨last, out, hrec, -⟩ := recordLastLoad_eq x c
  rw [hrec]
  exact ⟨rfl, rfl, rfl, rfl⟩

/-- A command put at a position outside a load. -/
theorem goto_between {op : Instr} {pos : Pos} {c d : Block} (hkept : c.LoaderKept d)
    (hpos : ∀ lp x ret, pos ≠ .load lp x ret) : Between op c (d.goto op pos) :=
  .outside (hkept.trans ⟨rfl, rfl, rfl, rfl⟩) fun o lp x ret => by simp [hpos lp x ret]

theorem returnFromLoad_between {op : Instr} {ret : LoadRet} {c c' : Block}
    (h : returnFromLoad op (commandOf op) ret c = .ok c') : Between op c c' := by
  rcases returnFromLoad_cases h with ⟨-, ha⟩ | ⟨l, -, -, rfl⟩ | ⟨l, -, rfl⟩ | ⟨l, -, rfl⟩
  · exact ha.between
  all_goals exact goto_between ⟨rfl, rfl, rfl, rfl⟩ (by simp)

/-- Between two loads a step of context A is no statement of the loader's own. A case split over the steps of context A
that treats `BetweenLoads` first has only the loader's statements O1 to O3 and P2 to P8 left to look at. -/
theorem Micro.between {op : Instr} {c c' : Block} (h : Micro op c c') (hb : c.BetweenLoads) : Between op c c' := by
  cases h with
  | started _ _ ha => exact ha.between
  | held pos hs hh =>
    refine .outside ⟨rfl, rfl, rfl, rfl⟩ fun o lp x ret hs => ?_
    rcases hb o lp x ret hs with rfl | rfl <;> simp [holding, hs] at hh
  | loadOver _ x _ _ _ _ hret => exact (returnFromLoad_between hret).of_kept (recordLastLoad_loaderKept x c)
  | wp2 | ak1 | ak7 => exact goto_between ⟨rfl, rfl, rfl, rfl⟩ (by simp)
  | b2next => exact goto_between (drawCurrent_loaderKept c) (by simp)
  | b2last _ _ _ _ _ ha =>
    have hbase : ∀ d : Block, ∀ n, d.LoaderKept { d with svc := { d.svc with base := n } } :=
      fun _ _ => ⟨rfl, rfl, rfl, rfl⟩
    exact ha.between.of_kept ((drawCurrent_loaderKept c).trans (hbase _ _))
  | ak0 => exact goto_between (d := armDetector c) ⟨rfl, rfl, rfl, rfl⟩ (by simp)
  | ak1timeout _ _ _ _ hload => exact reinstallReset_between ⟨rfl, rfl, rfl, rfl⟩ hload
  | ak2 l => exact takeSample_between op l c
  | ak3 l cur tick =>
    exact goto_between (d := { c with ack := judgeSample c.params c.ack cur tick }) ⟨rfl, rfl, rfl, rfl⟩ (by simp)
  | ak3confirmed _ _ _ _ _ _ hload => exact reinstallReset_between (by exact ⟨rfl, rfl, rfl, rfl⟩) hload
  | ak6 => exact .outside ⟨rfl, rfl, rfl, rfl⟩ (by simp [Block.OutsideLoad])
  | verdict _ st _ _ _ hleg =>
    exact (legOver_after hleg).between.of_kept (d := c.withAckState st) ⟨rfl, rfl, rfl, rfl⟩
  | o1 x ret hs | o2 x ret hs | o3 x ret hs | p2 x ret hs | p3 x ret hs | p4 x ret hs | p5 x ret hs | p6 x ret hs
  | p7keep x ret hs | p7retire x ret _ hs | p8 x ret hs => exact absurd (hb _ _ _ _ hs) (by simp)

end Sys2Proof.Machine
end

section
/-! The pool of persistent slots, kept by every move at every position of a load (41_slot_table_loader.md R118, R119),
and its watermark. -/

namespace Sys2Proof.Machine

/-! ### The watermark -/

/-- P8 as one update (R110). -/
theorem raiseMaxLoaded_eq (x : LoadCtx) (c : Block) :
    raiseMaxLoaded x c = { c with table := { c.table with maxLoaded := max c.table.maxLoaded x.cand } } := by
  unfold raiseMaxLoaded
  split
  · rw [Nat.max_eq_right (by omega)]
  · rw [Nat.max_eq_left (by omega)]

/-- The beginning of a load writes no register of the slot table but `recycleReg` (R109). -/
theorem beginLoad_table {op : Instr} {s : Nat} {bytes : List Byte} {rep : Byte} {ret : LoadRet} {c c' : Block}
    (h2 : 2 ≤ bytes.length) (h5 : bytes.length ≤ 5) (h : beginLoad op s bytes rep ret c = .ok c') :
    ∃ r, c'.table = { c.table with recycleReg := r } := by
  rcases beginLoad_cases h2 h5 h with ⟨-, rfl⟩ | ⟨-, x, r, -, rfl⟩
  · exact ⟨c.table.recycleReg, rfl⟩
  · exact ⟨r, rfl⟩

theorem Between.maxLoaded_eq {op : Instr} {c c' : Block} (h : Between op c c') :
    c'.table.maxLoaded = c.table.maxLoaded := by
  cases h with
  | outside hkept => rw [hkept.table]
  | begun d _ _ _ _ hkept h2 h5 hload =>
    obtain ⟨r, hr⟩ := beginLoad_table h2 h5 hload
    rw [hr, hkept.table]

/-- Only P8 writes the watermark, and it takes a maximum (R110). -/
theorem Micro.maxLoaded_le {op : Instr} {c c' : Block} (h : Micro op c c') :
    c.table.maxLoaded ≤ c'.table.maxLoaded := by
  by_cases hb : c.BetweenLoads
  · exact (h.between hb).maxLoaded_eq.ge
  cases h with
  | p8 x ret =>
    rw [raiseMaxLoaded_eq]
    exact Nat.le_max_left _ _
  | held | o1 | o2 | o3 | p2 | p3 | p4 | p5 | p6 | p7keep | p7retire => exact le_rfl
  | _ => exact absurd (by grind [Block.BetweenLoads]) hb

/-- Settles O60: no move but a power-on reset lowers the watermark of either block. -/
theorem maxLoadedNeverDecreases : Obligations.MaxLoadedNeverDecreases := by
  intro s t ch hturn h
  refine step_keeps (P := fun c => (s.block ch).table.maxLoaded ≤ c.table.maxLoaded) ?_ ?_
    (fun hreset => absurd hreset hturn) h ch le_rfl
  · exact fun op c c' hc hmicro => hc.trans hmicro.maxLoaded_le
  · exact fun c c' hc hkept => hkept.table ▸ hc

/-! ### Partitions -/

/-- Storing a slot in the address map trades it for what the map held there. -/
theorem filterMap_set_perm {map : List (Option Nat)} {i : Nat} (hi : i < map.length) (q : Nat) :
    ((map.set i (some q)).filterMap id ++ (map.getD i none).toList).Perm (q :: map.filterMap id) := by
  induction map generalizing i with
  | nil => exact absurd hi (Nat.not_lt_zero i)
  | cons o map ih =>
    cases i with
    | zero =>
      cases o with
      | none => simp
      | some a => simp
    | succ i =>
      have hperm := ih (i := i) (by simpa using hi)
      cases o with
      | none => simpa using hperm
      | some a => simpa using (hperm.cons a).trans (.swap q a _)

/-- The pool holds exactly the slots `1..maxLoaded` (R119). -/
theorem poolPartition.mem_iff {map : List (Option Nat)} {recycled : Option Nat} {maxLoaded : Nat}
    (h : poolPartition map recycled maxLoaded) (j : Nat) :
    (some j ∈ map ∨ recycled = some j) ↔ 1 ≤ j ∧ j ≤ maxLoaded := by
  have hmem := List.Perm.mem_iff (a := j) h
  simp only [List.mem_append, List.mem_filterMap, id_eq, exists_eq_right, Option.mem_toList,
    List.mem_range'_1] at hmem
  rw [hmem]
  omega

/-- The recycled slot is mapped to no user slot (R119). -/
theorem poolPartition.recycled_not_mapped {map : List (Option Nat)} {q maxLoaded : Nat}
    (h : poolPartition map (some q) maxLoaded) : some q ∉ map := by
  have hnodup : (map.filterMap id ++ [q]).Nodup := h.nodup_iff.mpr List.nodup_range'
  intro hmem
  have hdisjoint := (List.nodup_append.mp hnodup).2.2
  exact hdisjoint q (by simpa using hmem) q (by simp) rfl

/-- What the map gives for a user slot stands in the map. -/
theorem mem_map_of_mapped {c : Block} {s j : Nat} (h : c.mapped s = some j) : some j ∈ c.table.map := by
  unfold Block.mapped at h
  rw [List.getD_eq_getElem?_getD] at h
  cases hget : c.table.map[s - 1]? with
  | none => simp [hget] at h
  | some o =>
    obtain rfl : o = some j := by simpa [hget] using h
    exact List.mem_of_getElem? hget

theorem mapped_eq_getElem {c : Block} {s : Nat} (h : s - 1 < c.table.map.length) :
    c.mapped s = c.table.map[s - 1] :=
  List.getD_eq_getElem _ _ h

/-! ### The invariant by position -/

/-- The bounds of the pool's registers, the part of the invariant that is the same at every position. -/
structure Block.PoolBounds (c : Block) : Prop where
  map_length : c.table.map.length = c.params.n
  maxLoaded_le : c.table.maxLoaded ≤ c.params.n
  next_le : ∀ j, c.next = some j → j ≤ c.params.n
  n_pos : 1 ≤ c.params.n

theorem Block.PoolOk.bounds {c : Block} (h : c.PoolOk) : c.PoolBounds := by
  obtain ⟨hlen, hmax, hnext, hn, -⟩ := h
  exact ⟨hlen, hmax, hnext, hn⟩

theorem Block.PoolOk.atLoad {c : Block} {op : Instr} {lp : LoadPos} {x : LoadCtx} {ret : LoadRet} (h : c.PoolOk)
    (hs : c.seq = .run op (.load lp x ret)) : loadPoolOk lp x c := by
  obtain ⟨-, -, -, -, hpos⟩ := h
  rwa [hs] at hpos

/-- Between two loads the pool is settled. -/
theorem Block.PoolOk.settled {c : Block} (h : c.PoolOk) (hb : c.BetweenLoads) : c.PoolSettled := by
  obtain ⟨-, -, -, -, hpos⟩ := h
  split at hpos
  · next op lp x ret hs =>
    rcases hb op lp x ret hs with rfl | rfl
    · obtain ⟨-, -, hpool⟩ := hpos
      exact hpool
    · exact hpos.2
  · exact hpos

theorem Block.PoolBounds.atLoad {c : Block} {op : Instr} {lp : LoadPos} {x : LoadCtx} {ret : LoadRet}
    (h : c.PoolBounds) (hs : c.seq = .run op (.load lp x ret)) (hpos : loadPoolOk lp x c) : c.PoolOk := by
  refine ⟨h.map_length, h.maxLoaded_le, h.next_le, h.n_pos, ?_⟩
  rwa [hs]

theorem Block.PoolBounds.outside {c : Block} (h : c.PoolBounds) (hout : c.OutsideLoad) (hpool : c.PoolSettled) :
    c.PoolOk := by
  refine ⟨h.map_length, h.maxLoaded_le, h.next_le, h.n_pos, ?_⟩
  split
  · next op lp x ret hs => exact absurd hs (hout op lp x ret)
  · exact hpool

/-! ### What carries the invariant over -/

/-- From `c` to `c'` the address map, `recycleReg` and the watermark are as before. -/
structure Block.PoolKept (c c' : Block) : Prop where
  params : c'.params = c.params
  map : c'.table.map = c.table.map
  recycleReg : c'.table.recycleReg = c.table.recycleReg
  maxLoaded : c'.table.maxLoaded = c.table.maxLoaded

theorem Block.LoaderKept.poolKept {c c' : Block} (h : c.LoaderKept c') : c.PoolKept c' :=
  ⟨h.params, by rw [h.table], by rw [h.table], by rw [h.table]⟩

theorem Block.Undisturbed.poolKept {c c' : Block} (h : c.Undisturbed c') : c.PoolKept c' :=
  ⟨h.params, by rw [h.table], by rw [h.table], by rw [h.table]⟩

theorem Block.PoolKept.mapped {c c' : Block} (h : c.PoolKept c') (s : Nat) : c'.mapped s = c.mapped s := by
  unfold Block.mapped
  rw [h.map]

theorem Block.PoolKept.settled {c c' : Block} (h : c.PoolKept c') : c'.PoolSettled ↔ c.PoolSettled := by
  unfold Block.PoolSettled
  rw [h.map, h.recycleReg, h.maxLoaded]

theorem Block.PoolKept.loadPoolOk_iff {c c' : Block} (h : c.PoolKept c') (lp : LoadPos) (x : LoadCtx) :
    loadPoolOk lp x c' ↔ loadPoolOk lp x c := by
  cases lp <;>
    simp only [loadPoolOk, loadPending, loadPublished, loadTargetOk, h.settled, h.mapped, h.params, h.map,
      h.recycleReg, h.maxLoaded]

theorem Block.PoolBounds.of_kept {c c' : Block} (h : c.PoolBounds) (hkept : c.PoolKept c')
    (hnext : ∀ j, c'.next = some j → j ≤ c.params.n) : c'.PoolBounds where
  map_length := by rw [hkept.map, hkept.params, h.map_length]
  maxLoaded_le := by rw [hkept.maxLoaded, hkept.params]; exact h.maxLoaded_le
  next_le := by rw [hkept.params]; exact hnext
  n_pos := by rw [hkept.params]; exact h.n_pos

/-- A statement of a load that writes nothing of the pool goes on to one of which the invariant says the same. -/
theorem Block.PoolBounds.advance {c c' : Block} {op : Instr} {lp : LoadPos} {x : LoadCtx} {ret : LoadRet}
    (h : c.PoolBounds) (hkept : c.PoolKept c') (hs : c'.seq = .run op (.load lp x ret))
    (hpos : loadPoolOk lp x c) (hnext : ∀ j, c'.next = some j → j ≤ c.params.n) : c'.PoolOk :=
  (h.of_kept hkept hnext).atLoad hs ((hkept.loadPoolOk_iff lp x).mpr hpos)

theorem Block.PoolOk.of_undisturbed {c c' : Block} (h : c.PoolOk) (hu : c.Undisturbed c') : c'.PoolOk := by
  have hnext : ∀ j, c'.next = some j → j ≤ c.params.n := by
    rcases hu.next with hkept | hnone
    · rw [hkept]
      exact h.bounds.next_le
    · simp [hnone]
  have hbounds := h.bounds.of_kept hu.poolKept hnext
  rcases loading_or_outsideLoad c with ⟨op, lp, x, ret, hs⟩ | hout
  · exact hbounds.atLoad (hu.seq.trans hs) ((hu.poolKept.loadPoolOk_iff lp x).mpr (h.atLoad hs))
  · exact hbounds.outside (hout.of_seq hu.seq) (hu.poolKept.settled.mpr (h.settled hout.betweenLoads))

/-! ### The beginning of a load -/

/-- P1 leaves the pool as the load will have it once it has published its slot, whichever slot it chose (R109, R111). -/
theorem chooseSlot_loadPending {user : Nat} {rep : Byte} {c : Block} {x : LoadCtx} {r : Option Nat}
    (hbounds : c.PoolBounds) (hpool : c.PoolSettled) (h1 : 1 ≤ user) (hn : user ≤ c.params.n)
    (h : chooseSlot user rep c = .ok (x, r)) : loadPending x (c.withRecycle r) := by
  have hmax := hbounds.maxLoaded_le
  have hi : user - 1 < c.table.map.length := by
    rw [hbounds.map_length]
    omega
  have hmem := poolPartition.mem_iff hpool
  unfold Block.PoolSettled poolPartition at hpool
  rcases chooseSlot_cases h with ⟨q, hq, rfl, rfl⟩ | ⟨hnone, hlt, rfl, rfl⟩ | ⟨hnone, hge, q, hq, rfl, rfl⟩
  · obtain ⟨hq1, hqm⟩ := (hmem q).mp (.inr hq)
    refine ⟨⟨h1, hn, hq1, hqm.trans hmax, nofun, rfl⟩, rfl, ?_⟩
    rw [hq] at hpool
    show poolPartition (c.table.map.set (user - 1) (some q)) (c.mapped user) (max c.table.maxLoaded q)
    rw [Nat.max_eq_left hqm]
    exact ((filterMap_set_perm hi q).trans (List.perm_append_singleton q _).symm).trans hpool
  · refine ⟨⟨h1, hn, Nat.succ_pos _, hlt, nofun, rfl⟩, rfl, ?_⟩
    rw [hnone, Option.toList_none, List.append_nil] at hpool
    show poolPartition (c.table.map.set (user - 1) (some (c.table.maxLoaded + 1))) (c.mapped user)
      (max c.table.maxLoaded (c.table.maxLoaded + 1))
    rw [Nat.max_eq_right (Nat.le_succ _), poolPartition, List.range'_1_concat]
    refine (filterMap_set_perm hi _).trans ((List.perm_append_singleton _ _).symm.trans ?_)
    rw [Nat.add_comm 1]
    exact hpool.append_right _
  · obtain ⟨hq1, hqm⟩ := (hmem q).mp (.inl (mem_map_of_mapped hq))
    refine ⟨⟨h1, hn, hq1, hqm.trans hmax, fun _ => rfl, rfl⟩, hq, ?_⟩
    have hsame : c.table.map.set (user - 1) (some q) = c.table.map := by
      rw [← hq, mapped_eq_getElem hi, List.set_getElem_self]
    show poolPartition (c.table.map.set (user - 1) (some q)) none (max c.table.maxLoaded q)
    rw [hsame, Nat.max_eq_left hqm]
    rwa [hnone] at hpool

theorem beginLoad_poolOk {op : Instr} {s : Nat} {bytes : List Byte} {rep : Byte} {ret : LoadRet} {c c' : Block}
    (hbounds : c.PoolBounds) (hpool : c.PoolSettled) (h2 : 2 ≤ bytes.length) (h5 : bytes.length ≤ 5)
    (h : beginLoad op s bytes rep ret c = .ok c') : c'.PoolOk := by
  rcases beginLoad_cases h2 h5 h with ⟨-, rfl⟩ | ⟨huser, x, r, hx, rfl⟩
  · exact hbounds.advance ⟨rfl, rfl, rfl, rfl⟩ rfl ⟨rfl, rfl, hpool⟩ hbounds.next_le
  · have hn : s % c.slots ≤ c.params.n := Nat.le_of_lt_succ (Nat.mod_lt s (Nat.succ_pos _))
    have hpending := chooseSlot_loadPending hbounds hpool (Nat.pos_of_ne_zero huser) hn hx
    have hrecycled : (c.withRecycle r).PoolBounds :=
      ⟨hbounds.map_length, hbounds.maxLoaded_le, hbounds.next_le, hbounds.n_pos⟩
    refine hrecycled.advance ⟨rfl, rfl, rfl, rfl⟩ rfl ?_ hbounds.next_le
    split
    · next hin => exact ⟨hin, hpending⟩
    · exact hpending

theorem Between.poolOk {op : Instr} {c c' : Block} (hbounds : c.PoolBounds) (hpool : c.PoolSettled)
    (h : Between op c c') : c'.PoolOk := by
  cases h with
  | outside hkept hout =>
    have hbounds' := hbounds.of_kept hkept.poolKept (hkept.next ▸ hbounds.next_le)
    exact hbounds'.outside hout (hkept.poolKept.settled.mpr hpool)
  | begun d _ _ _ _ hkept h2 h5 hload =>
    have hbounds' := hbounds.of_kept hkept.poolKept (hkept.next ▸ hbounds.next_le)
    exact beginLoad_poolOk hbounds' (hkept.poolKept.settled.mpr hpool) h2 h5 hload

/-! ### Every move of a block -/

/-- The address map after a user slot is mapped. -/
theorem mapped_withMapped_same {c : Block} {s : Nat} (h : s - 1 < c.table.map.length) (j : Nat) :
    (c.withMapped s j).mapped s = some j := by
  show (c.table.map.set (s - 1) (some j)).getD (s - 1) none = some j
  rw [List.getD_eq_getElem?_getD, List.getElem?_set_self h]
  rfl

/-- P6 makes the map what P1 had provided for (R110). -/
theorem publish_poolOk {op : Instr} {x : LoadCtx} {ret : LoadRet} {c d : Block} (hc : c.PoolOk)
    (hs : c.seq = .run op (.load .p6 x ret)) (hkept : (c.withMapped x.user x.cand).PoolKept d)
    (hd : d.seq = .run op (.load .p7 x ret)) (hnext : d.next = some x.cand) : d.PoolOk := by
  have hbounds := hc.bounds
  obtain ⟨htarget, -, hpool⟩ : loadPending x c := hc.atLoad hs
  have ⟨h1, hn, _, hcand, _⟩ := htarget
  have hi : x.user - 1 < c.table.map.length := by
    rw [hbounds.map_length]
    omega
  have hmapped : (c.withMapped x.user x.cand).PoolBounds :=
    ⟨(List.length_set).trans hbounds.map_length, hbounds.maxLoaded_le, hbounds.next_le, hbounds.n_pos⟩
  refine hmapped.advance hkept hd ?_ ?_
  · exact ⟨htarget, mapped_withMapped_same hi x.cand, hpool⟩
  · rintro j hj
    obtain rfl : x.cand = j := by simpa [hnext] using hj
    exact hcand

/-- P8 raises the watermark to what P1 had provided for (R110). -/
theorem raise_poolOk {op : Instr} {x : LoadCtx} {ret : LoadRet} {c : Block} (hc : c.PoolOk)
    (hs : c.seq = .run op (.load .p8 x ret)) : ((raiseMaxLoaded x c).goto op (.load .p9 x ret)).PoolOk := by
  have hbounds := hc.bounds
  obtain ⟨htarget, -, hpool⟩ : loadPublished x c := hc.atLoad hs
  obtain ⟨-, hn, -, hcand, -⟩ := htarget
  rw [raiseMaxLoaded_eq]
  exact ⟨hbounds.map_length, Nat.max_le.mpr ⟨hbounds.maxLoaded_le, hcand⟩, hbounds.next_le, hbounds.n_pos, hn, hpool⟩

/-- Every statement of context A keeps the pool. -/
theorem Micro.poolOk {op : Instr} {c c' : Block} (hc : c.PoolOk) (h : Micro op c c') : c'.PoolOk := by
  have hbounds := hc.bounds
  by_cases hb : c.BetweenLoads
  · exact (h.between hb).poolOk hbounds (hc.settled hb)
  cases h with
  | held => exact hc
  | o1 x ret hs | o2 x ret hs | p2 x ret hs | p4 x ret hs | p5 x ret hs | p7keep x ret hs
  | p7retire x ret _ hs =>
    have hpos := hc.atLoad hs
    exact hbounds.advance ⟨rfl, rfl, rfl, rfl⟩ rfl hpos hbounds.next_le
  | o3 x ret hs =>
    have hpos := hc.atLoad hs
    exact hbounds.advance ⟨rfl, rfl, rfl, rfl⟩ rfl hpos (by simp)
  | p3 x ret hs =>
    obtain ⟨-, hpending⟩ := hc.atLoad hs
    exact hbounds.advance ⟨rfl, rfl, rfl, rfl⟩ rfl hpending hbounds.next_le
  | p6 x ret hs => exact publish_poolOk hc hs ⟨rfl, rfl, rfl, rfl⟩ rfl rfl
  | p8 x ret hs => exact raise_poolOk hc hs
  | _ => exact absurd (by grind [Block.BetweenLoads]) hb

/-- At reset nothing is mapped and nothing held for recycling (10_state.md R28 to R30). -/
theorem powerOnReset_poolOk {c : Block} (hc : c.PoolOk) : (powerOnReset c).PoolOk := by
  have hempty : poolPartition (List.replicate c.params.n none) none 0 := by
    simp [poolPartition]
  exact ⟨List.length_replicate, Nat.zero_le _, nofun, hc.bounds.n_pos, hempty⟩

theorem step_poolOk {s t : State} (h : step s = .next t) (ch : Channel) (hs : (s.block ch).PoolOk) :
    (t.block ch).PoolOk :=
  step_keeps (P := Block.PoolOk) (fun _ _ _ hc hmicro => hmicro.poolOk hc) (fun _ _ hc hu => hc.of_undisturbed hu)
    (fun _ _ hc => powerOnReset_poolOk hc) h ch hs

/-- Settles O56: each move keeps the pool of its block. -/
theorem stepKeepsPool : Obligations.StepKeepsPool :=
  fun _ _ ⟨hmain, hprog⟩ h => ⟨step_poolOk h .main hmain, step_poolOk h .prog hprog⟩

end Sys2Proof.Machine
end

section
/-! The lengths of a block's arrays, kept by every move of a block whose pool is kept (10_state.md R25, R28, R35,
R38). -/

namespace Sys2Proof.Machine

/-- The payload register has its six bytes and holds a payload of 2 to 5 (10_state.md R38). -/
def Payload.Fits (y : Payload) : Prop := y.p.length = 6 ∧ 2 ≤ y.k ∧ y.k ≤ 5

theorem Block.ShapeOk.fits {c : Block} (h : c.ShapeOk) : c.payload.Fits := by
  obtain ⟨-, -, -, hp, h2, h5, -⟩ := h
  exact ⟨hp, h2, h5⟩

/-- The packet of an encoder call has at most six bytes (30_encoding.md R88). -/
theorem length_nextPacket_le {c : Block} (h : c.payload.Fits) : c.nextPacket.length ≤ 6 := by
  obtain ⟨-, -, h5⟩ := h
  have hle : c.nextPacket.length ≤ c.payload.k + 1 := List.length_take_le _ _
  omega

/-- An encoder call writes the checksum into the payload register and leaves its length alone (40_encoder.md R96). -/
theorem fits_encoded {c : Block} (h : c.payload.Fits) (j : Nat) : (c.encoded j).payload.Fits := by
  obtain ⟨hp, hk⟩ := h
  exact ⟨List.length_set.trans hp, hk⟩

theorem fits_withPayload {c : Block} (h : c.payload.Fits) {bytes : List Byte} (h2 : 2 ≤ bytes.length)
    (h5 : bytes.length ≤ 5) : (c.withPayload bytes).payload.Fits := by
  obtain ⟨hp, -⟩ := h
  refine ⟨?_, h2, h5⟩
  simp only [withPayload_payload, List.length_append, List.length_drop]
  omega

theorem Between.fits {op : Instr} {c c' : Block} (hc : c.payload.Fits) (h : Between op c c') : c'.payload.Fits := by
  cases h with
  | outside hkept => rwa [hkept.payload]
  | begun d s bytes rep ret hkept h2 h5 hload =>
    have hwritten : (d.withPayload bytes).payload.Fits := fits_withPayload (hkept.payload ▸ hc) h2 h5
    rcases beginLoad_cases h2 h5 hload with ⟨-, rfl⟩ | ⟨-, x, r, -, rfl⟩ <;> exact hwritten

theorem Micro.fits {op : Instr} {c c' : Block} (hc : c.payload.Fits) (h : Micro op c c') : c'.payload.Fits := by
  by_cases hb : c.BetweenLoads
  · exact (h.between hb).fits hc
  cases h with
  | o2 => exact fits_encoded hc 0
  | p4 x => exact fits_encoded hc x.cand
  | p8 => rwa [raiseMaxLoaded_eq]
  | held | o1 | o3 | p2 | p3 | p5 | p6 | p7keep | p7retire => exact hc
  | _ => exact absurd (by grind [Block.BetweenLoads]) hb

theorem Block.SlotRamMove.length_bitCounts {c c' : Block} (h : c.SlotRamMove c') :
    c'.table.bitCounts.length = c.table.bitCounts.length := by
  cases h with
  | kept hkept => rw [hkept.bitCounts]
  | encoded _ _ _ _ _ _ _ _ hcounts => rw [hcounts, List.length_set]
  | flag _ _ _ _ _ hcounts => rw [hcounts]

theorem Micro.shapeOk {op : Instr} {c c' : Block} (hc : c.ShapeOk) (hpool : c'.PoolOk) (h : Micro op c c') :
    c'.ShapeOk := by
  have hkept := h.restKept
  obtain ⟨hp, h2, h5⟩ := h.fits hc.fits
  obtain ⟨hwf, hcounts, -, -, -, -, hlatched⟩ := hc
  refine ⟨hkept.params ▸ hwf, ?_, hpool.bounds.map_length, hp, h2, h5, hkept.engine ▸ hlatched⟩
  rw [h.slotRamMove.length_bitCounts, hcounts, Block.slots, Block.slots, hkept.params]

theorem Block.ShapeOk.of_undisturbed {c c' : Block} (h : c.ShapeOk) (hu : c.Undisturbed c') : c'.ShapeOk := by
  obtain ⟨hwf, hcounts, hmap, hp, h2, h5, hlatched⟩ := h
  refine ⟨hu.params ▸ hwf, ?_, ?_, ?_, ?_, ?_, hu.latched hlatched⟩
  · rw [hu.table, hcounts, Block.slots, Block.slots, hu.params]
  · rw [hu.table, hmap, hu.params]
  all_goals rwa [hu.payload]

theorem powerOnReset_shapeOk {c : Block} (hc : c.ShapeOk) : (powerOnReset c).ShapeOk := by
  obtain ⟨hwf, -⟩ := hc
  exact ⟨hwf, List.length_replicate, List.length_replicate, rfl, Nat.le_refl 2, Nat.le_of_ble_eq_true rfl, rfl⟩

end Sys2Proof.Machine
end

section
/-! The invalid flags, kept by every move at every position of a load (41_slot_table_loader.md R110 to R112, R120,
R121), and from them that a pending hand-off is never overwritten (R116). -/

namespace Sys2Proof.Machine

/-! ### The invariant by position -/

theorem Block.FlagsOk.next_valid {c : Block} (h : c.FlagsOk) {j : Nat} (hj : c.next = some j) : c.invalid j = false :=
  h.1 j hj

theorem Block.FlagsOk.atLoad {c : Block} {op : Instr} {lp : LoadPos} {x : LoadCtx} {ret : LoadRet} (h : c.FlagsOk)
    (hs : c.seq = .run op (.load lp x ret)) : loadFlagsOk lp x c := by
  obtain ⟨-, hpos⟩ := h
  rwa [hs] at hpos

/-- Between two loads the flags are settled. -/
theorem Block.FlagsOk.settled {c : Block} (h : c.FlagsOk) (hb : c.BetweenLoads) : c.FlagsSettled := by
  obtain ⟨-, hpos⟩ := h
  split at hpos
  · next op lp x ret hs => rcases hb op lp x ret hs with rfl | rfl <;> exact hpos
  · exact hpos

theorem flagsOk_atLoad {c : Block} {op : Instr} {lp : LoadPos} {x : LoadCtx} {ret : LoadRet}
    (hnext : ∀ j, c.next = some j → c.invalid j = false) (hs : c.seq = .run op (.load lp x ret))
    (hpos : loadFlagsOk lp x c) : c.FlagsOk := by
  refine ⟨hnext, ?_⟩
  rwa [hs]

theorem flagsOk_outside {c : Block} (hnext : ∀ j, c.next = some j → c.invalid j = false) (hout : c.OutsideLoad)
    (hflags : c.FlagsSettled) : c.FlagsOk := by
  refine ⟨hnext, ?_⟩
  split
  · next op lp x ret hs => exact absurd hs (hout op lp x ret)
  · exact hflags

/-! ### What carries the invariant over -/

/-- From `c` to `c'` the pool and every invalid flag but that of slot `j` are as before. -/
structure Block.FlagsKeptBut (j : Nat) (c c' : Block) : Prop where
  pool : c.PoolKept c'
  other : ∀ i, i ≠ j → c'.invalid i = c.invalid i

/-- Mapped slots stay valid where the slot whose flag may have changed is not one of them, or is excepted. -/
theorem Block.FlagsKeptBut.mappedValid {c c' : Block} {j : Nat} {e e' : Option Nat} (hk : c.FlagsKeptBut j c')
    (h : mappedValid c e)
    (hj : ∀ s i, 1 ≤ s → s ≤ c.params.n → c.mapped s = some i → e' ≠ some i → i ≠ j ∧ e ≠ some i) :
    mappedValid c' e' := by
  intro s i h1 hn hi he
  rw [hk.pool.mapped] at hi
  rw [hk.pool.params] at hn
  obtain ⟨hne, hex⟩ := hj s i h1 hn hi he
  rw [hk.other i hne]
  exact h s i h1 hn hi hex

/-- Slots above the watermark stay invalid where the slot whose flag may have changed is not one of them, or is
invalid. -/
theorem Block.FlagsKeptBut.freshInvalid {c c' : Block} {j : Nat} {e : Option Nat} (hk : c.FlagsKeptBut j c')
    (h : freshInvalid c e) (hj : c.table.maxLoaded < j → c'.invalid j = true) : freshInvalid c' e := by
  intro i hlt hn he
  rw [hk.pool.maxLoaded] at hlt
  rw [hk.pool.params] at hn
  by_cases hij : i = j
  · subst hij
    exact hj hlt
  · rw [hk.other i hij]
    exact h i hlt hn he

/-- Slot 0 is no slot of the pool, so its flag says nothing of the others (R120). -/
theorem Block.FlagsKeptBut.settled_of_zero {c c' : Block} (hk : c.FlagsKeptBut 0 c') (hpool : c.PoolSettled)
    (h : c.FlagsSettled) : c'.FlagsSettled := by
  obtain ⟨hmapped, hrecycled, hfresh⟩ := h
  have hmem := poolPartition.mem_iff hpool
  refine ⟨hk.mappedValid hmapped fun s i _ _ hi _ => ⟨?_, nofun⟩, fun r hr => ?_,
    hk.freshInvalid hfresh fun hlt => absurd hlt (Nat.not_lt_zero _)⟩
  · obtain ⟨h1, -⟩ := (hmem i).mp (.inl (mem_map_of_mapped hi))
    omega
  · rw [hk.pool.recycleReg] at hr
    obtain ⟨h1, -⟩ := (hmem r).mp (.inr hr)
    rw [hk.other r (by omega)]
    exact hrecycled r hr

/-- An encoder call changes the flag of its slot only (40_encoder.md R97). -/
theorem encoded_flagsKeptBut (c : Block) (j : Nat) : c.FlagsKeptBut j (c.encoded j) :=
  ⟨⟨rfl, rfl, rfl, rfl⟩, fun _ hne => invalid_encoded_other c hne.symm⟩

theorem withFlagByte_flagsKeptBut (c : Block) (j : Nat) (b : Byte) : c.FlagsKeptBut j (c.withFlagByte j b) :=
  ⟨⟨rfl, rfl, rfl, rfl⟩, fun i hne => (invalid_withFlagByte c j b i).trans (if_neg hne.symm)⟩

/-- A slot marked invalid is invalid. -/
theorem invalid_set (c : Block) (j : Nat) : (c.withFlagByte j (c.byteAt (flagAddr j) ||| 0x01)).invalid j = true := by
  rw [invalid_withFlagByte, if_pos rfl, flagOf_set]

/-- A slot marked valid is valid. -/
theorem invalid_clear (c : Block) (j : Nat) :
    (c.withFlagByte j (c.byteAt (flagAddr j) &&& 0xFE)).invalid j = false := by
  rw [invalid_withFlagByte, if_pos rfl, flagOf_clear]

theorem invalid_of_table {c c' : Block} (h : c'.table = c.table) (j : Nat) : c'.invalid j = c.invalid j := by
  unfold Block.invalid Block.byteAt
  rw [h]

theorem flagsSettled_of_table {c c' : Block} (hparams : c'.params = c.params) (h : c'.table = c.table) :
    c'.FlagsSettled ↔ c.FlagsSettled := by
  simp only [Block.FlagsSettled, mappedValid, recycledInvalid, freshInvalid, Block.mapped, invalid_of_table h, hparams,
    h]

/-- What the invariant says at a statement of a load stays true when the hand-off is adopted. -/
theorem loadFlagsOk_of_table {c c' : Block} {lp : LoadPos} {x : LoadCtx} (hparams : c'.params = c.params)
    (htable : c'.table = c.table) (hnext : c'.next = c.next ∨ c'.next = none) (h : loadFlagsOk lp x c) :
    loadFlagsOk lp x c' := by
  have hnone : c.next = none → c'.next = none := fun hn => hnext.elim (fun he => he.trans hn) id
  have hsettled := flagsSettled_of_table hparams htable
  have hmapped : ∀ e, mappedValid c' e ↔ mappedValid c e := fun e => by
    simp only [mappedValid, Block.mapped, invalid_of_table htable, hparams, htable]
  have hrecycled : recycledInvalid c' ↔ recycledInvalid c := by
    simp only [recycledInvalid, invalid_of_table htable, htable]
  have hfresh : ∀ e, freshInvalid c' e ↔ freshInvalid c e := fun e => by
    simp only [freshInvalid, invalid_of_table htable, hparams, htable]
  have hpending : flagsPending x c → flagsPending x c' := by
    rintro ⟨hm, hf, hc, hn⟩
    exact ⟨(hmapped _).mpr hm, (hfresh _).mpr hf, (invalid_of_table htable _).trans hc, fun hin => hnone (hn hin)⟩
  cases lp with
  | o1 | o4 | p2 | p9 => exact hsettled.mpr h
  | o2 | o3 | p3 => exact h.imp hsettled.mpr hnone
  | p4 | p5 => exact hpending h
  | p6 => exact h.imp hpending hnone
  | p7 =>
    obtain ⟨hm, hf, hn⟩ := h
    refine ⟨(hmapped _).mpr hm, (hfresh _).mpr hf, ?_⟩
    rcases hnext with he | he
    · rwa [he]
    · exact .inl he
  | p8 =>
    obtain ⟨hm, hr, hf⟩ := h
    exact ⟨(hmapped _).mpr hm, hrecycled.mpr hr, (hfresh _).mpr hf⟩

theorem next_valid_of_table {c c' : Block} (h : c.FlagsOk) (htable : c'.table = c.table)
    (hnext : c'.next = c.next ∨ c'.next = none) : ∀ j, c'.next = some j → c'.invalid j = false := by
  intro j hj
  rw [invalid_of_table htable]
  rcases hnext with he | he
  · exact h.next_valid (he ▸ hj)
  · simp [he] at hj

theorem Block.FlagsOk.of_undisturbed {c c' : Block} (h : c.FlagsOk) (hu : c.Undisturbed c') : c'.FlagsOk := by
  have hnext := next_valid_of_table h hu.table hu.next
  rcases loading_or_outsideLoad c with ⟨op, lp, x, ret, hs⟩ | hout
  · exact flagsOk_atLoad hnext (hu.seq.trans hs) (loadFlagsOk_of_table hu.params hu.table hu.next (h.atLoad hs))
  · exact flagsOk_outside hnext (hout.of_seq hu.seq)
      ((flagsSettled_of_table hu.params hu.table).mpr (h.settled hout.betweenLoads))

/-! ### The beginning of a load -/

/-- A slot that P1 chose and that is not rewritten in place is the recycled one or one above the watermark, so it is
invalid (R111, R112). -/
theorem chooseSlot_flagsPending {user : Nat} {rep : Byte} {c : Block} {x : LoadCtx} {r : Option Nat}
    (hflags : c.FlagsSettled) (h : chooseSlot user rep c = .ok (x, r)) (hin : x.inPlace = false) :
    flagsPending x (c.withRecycle r) := by
  obtain ⟨hmapped, hrecycled, hfresh⟩ := hflags
  have hcand : c.invalid x.cand = true := by
    rcases chooseSlot_cases h with ⟨q, hq, rfl, -⟩ | ⟨-, hlt, rfl, -⟩ | ⟨-, -, q, -, rfl, -⟩
    · exact hrecycled q hq
    · exact hfresh _ (Nat.lt_succ_self _) hlt nofun
    · cases hin
  refine ⟨?_, hfresh, hcand, by simp [hin]⟩
  rw [hin]
  exact hmapped

/-- A load that rewrites a slot in place holds nothing for recycling (R109). -/
theorem chooseSlot_inPlace_recycle {user : Nat} {rep : Byte} {c : Block} {x : LoadCtx} {r : Option Nat}
    (h : chooseSlot user rep c = .ok (x, r)) (hin : x.inPlace = true) : r = none := by
  rcases chooseSlot_cases h with ⟨q, -, rfl, -⟩ | ⟨-, -, rfl, -⟩ | ⟨-, -, q, -, rfl, hr⟩
  · cases hin
  · cases hin
  · exact hr

theorem beginLoad_flagsOk {op : Instr} {s : Nat} {bytes : List Byte} {rep : Byte} {ret : LoadRet} {c c' : Block}
    (hnext : ∀ j, c.next = some j → c.invalid j = false) (hflags : c.FlagsSettled) (h2 : 2 ≤ bytes.length)
    (h5 : bytes.length ≤ 5) (h : beginLoad op s bytes rep ret c = .ok c') : c'.FlagsOk := by
  rcases beginLoad_cases h2 h5 h with ⟨-, rfl⟩ | ⟨-, x, r, hx, rfl⟩
  · exact flagsOk_atLoad hnext rfl hflags
  · refine flagsOk_atLoad hnext rfl ?_
    cases hin : x.inPlace with
    | false =>
      have hpending := chooseSlot_flagsPending hflags hx hin
      exact hpending
    | true =>
      obtain ⟨hmapped, -, hfresh⟩ := hflags
      obtain rfl := chooseSlot_inPlace_recycle hx hin
      exact ⟨hmapped, nofun, hfresh⟩

theorem Between.flagsOk {op : Instr} {c c' : Block} (hc : c.FlagsOk) (hflags : c.FlagsSettled)
    (h : Between op c c') : c'.FlagsOk := by
  cases h with
  | outside hkept hout =>
    exact flagsOk_outside (next_valid_of_table hc hkept.table (.inl hkept.next)) hout
      ((flagsSettled_of_table hkept.params hkept.table).mpr hflags)
  | begun d _ _ _ _ hkept h2 h5 hload =>
    exact beginLoad_flagsOk (next_valid_of_table hc hkept.table (.inl hkept.next))
      ((flagsSettled_of_table hkept.params hkept.table).mpr hflags) h2 h5 hload

/-! ### The statements of a load -/

/-- P3 takes the slot to be rewritten in place out of the rotation, once no hand-off is pending (R110, R111). -/
theorem withdrawn_flagsPending {c : Block} {x : LoadCtx} (hin : x.inPlace = true) (hflags : c.FlagsSettled)
    (hnext : c.next = none) : flagsPending x (c.withFlagByte x.cand (c.byteAt (flagAddr x.cand) ||| 0x01)) := by
  obtain ⟨hmapped, -, hfresh⟩ := hflags
  have hk := withFlagByte_flagsKeptBut c x.cand (c.byteAt (flagAddr x.cand) ||| 0x01)
  have hset := invalid_set c x.cand
  refine ⟨hk.mappedValid hmapped fun s i _ _ _ he => ⟨?_, nofun⟩, hk.freshInvalid hfresh fun _ => hset, hset,
    fun _ => hnext⟩
  rintro rfl
  simp [hin] at he

/-- P4 encodes into a slot that is invalid and leaves it so (40_encoder.md R99). -/
theorem encoded_flagsPending {c : Block} {x : LoadCtx} (hfits : c.payload.Fits) (h : flagsPending x c) :
    flagsPending x (c.encoded x.cand) := by
  obtain ⟨hmapped, hfresh, hcand, hnext⟩ := h
  have hk := encoded_flagsKeptBut c x.cand
  have hset := invalid_encoded c x.cand (length_nextPacket_le hfits)
  refine ⟨hk.mappedValid hmapped fun s i h1 hn hi he => ⟨?_, he⟩, hk.freshInvalid hfresh fun _ => hset, hset, hnext⟩
  rintro rfl
  rw [hmapped s x.cand h1 hn hi he] at hcand
  cases hcand

/-- A slot in the map after a user slot is mapped was stored there then, or before. -/
theorem mapped_withMapped_cases {c : Block} {u j s i : Nat} (h : (c.withMapped u j).mapped s = some i) :
    i = j ∨ c.mapped s = some i := by
  change (c.table.map.set (u - 1) (some j)).getD (s - 1) none = some i at h
  rw [List.getD_eq_getElem?_getD, List.getElem?_set] at h
  unfold Block.mapped
  rw [List.getD_eq_getElem?_getD]
  split at h
  · split at h
    · exact .inl (by simpa using h.symm)
    · simp at h
  · exact .inr h

/-- P6 makes the slot valid, mapped and pending at once (R110). -/
theorem publish_flagsOk {op : Instr} {x : LoadCtx} {ret : LoadRet} {c d : Block} (h : flagsPending x c)
    (htable : d.table = ((c.withFlagByte x.cand (c.byteAt (flagAddr x.cand) &&& 0xFE)).withMapped x.user x.cand).table)
    (hparams : d.params = c.params) (hnext : d.next = some x.cand) (hs : d.seq = .run op (.load .p7 x ret)) :
    d.FlagsOk := by
  obtain ⟨hmapped, hfresh, -, -⟩ := h
  have hk := withFlagByte_flagsKeptBut c x.cand (c.byteAt (flagAddr x.cand) &&& 0xFE)
  have hcand : d.invalid x.cand = false := (invalid_of_table htable _).trans (invalid_clear c x.cand)
  have hother : ∀ i, i ≠ x.cand → d.invalid i = c.invalid i := fun i hne =>
    (invalid_of_table htable i).trans (hk.other i hne)
  refine flagsOk_atLoad (fun j hj => ?_) hs ⟨fun s i h1 hn hi _ => ?_, fun i hlt hn he => ?_, .inr hnext⟩
  · obtain rfl : x.cand = j := by simpa [hnext] using hj
    exact hcand
  · by_cases hne : i = x.cand
    · rw [hne, hcand]
    · have hi : (c.withMapped x.user x.cand).mapped s = some i := by
        unfold Block.mapped at hi ⊢
        rwa [htable] at hi
      have hold := (mapped_withMapped_cases hi).resolve_left hne
      rw [hother i hne]
      refine hmapped s i h1 (hparams ▸ hn) hold ?_
      split
      · simpa using Ne.symm hne
      · nofun
  · rw [hother i (by simpa using Ne.symm he)]
    rw [htable] at hlt
    exact hfresh i hlt (hparams ▸ hn) nofun

/-- P7 takes the slot that the user slot used before out of the rotation: it is mapped no more, so it is not the one
handed off (R110, R120). -/
theorem retire_flagsOk {op : Instr} {x : LoadCtx} {ret : LoadRet} {c : Block} {q : Nat} (hpool : loadPublished x c)
    (hc : c.FlagsOk) (h : loadFlagsOk .p7 x c) (hin : x.inPlace = false) (hq : x.prev = some q) :
    ((c.withFlagByte q (c.byteAt (flagAddr q) ||| 0x01)).goto op (.load .p8 x ret)).FlagsOk := by
  obtain ⟨⟨-, -, -, -, -, hrecycle⟩, hcand, hpartition⟩ := hpool
  obtain ⟨hmapped, hfresh, hnext⟩ := h
  have hk := withFlagByte_flagsKeptBut c q (c.byteAt (flagAddr q) ||| 0x01)
  have hset := invalid_set c q
  have hrecycle : c.table.recycleReg = some q := by simpa [hin, hq] using hrecycle
  rw [hrecycle] at hpartition
  have hne : ∀ s i, c.mapped s = some i → i ≠ q := by
    rintro s i hi rfl
    exact hpartition.recycled_not_mapped (mem_map_of_mapped hi)
  refine flagsOk_atLoad (fun j hj => ?_) rfl ⟨hk.mappedValid hmapped fun s i _ _ hi _ => ⟨hne s i hi, nofun⟩,
    fun r hr => ?_, hk.freshInvalid hfresh fun _ => hset⟩
  · have hj : c.next = some j := hj
    obtain rfl : x.cand = j := by simpa [hj, eq_comm] using hnext
    exact (hk.other x.cand (hne x.user x.cand hcand)).trans (hc.next_valid hj)
  · obtain rfl : q = r := Option.some.inj (hrecycle.symm.trans hr)
    exact hset

/-- A slot at the watermark that P8 leaves is no fresh one (R110, R112). -/
theorem raise_flagsOk {op : Instr} {x : LoadCtx} {ret : LoadRet} {c : Block} (hc : c.FlagsOk)
    (hs : c.seq = .run op (.load .p8 x ret)) : ((raiseMaxLoaded x c).goto op (.load .p9 x ret)).FlagsOk := by
  obtain ⟨hmapped, hrecycled, hfresh⟩ := hc.atLoad hs
  rw [raiseMaxLoaded_eq]
  refine flagsOk_atLoad (fun _ => hc.next_valid) rfl ⟨hmapped, hrecycled, fun i hlt hn _ => ?_⟩
  obtain ⟨hmax, hcand⟩ := max_lt_iff.mp hlt
  exact hfresh i hmax hn (by simpa using hcand.ne)

/-- Every statement of context A keeps the flags. -/
theorem Micro.flagsOk {op : Instr} {c c' : Block} (hfits : c.payload.Fits) (hpool : c.PoolOk) (hc : c.FlagsOk)
    (h : Micro op c c') : c'.FlagsOk := by
  by_cases hb : c.BetweenLoads
  · exact (h.between hb).flagsOk hc (hc.settled hb)
  have hnext : ∀ j, c.next = some j → c.invalid j = false := fun _ => hc.next_valid
  cases h with
  | held => exact hc
  | o1 x ret hs hn => exact flagsOk_atLoad hnext rfl ⟨hc.atLoad hs, hn⟩
  | p2 x ret hs hn => exact flagsOk_atLoad hnext rfl ⟨hc.atLoad hs, hn⟩
  | p5 x ret hs hn => exact flagsOk_atLoad hnext rfl ⟨hc.atLoad hs, hn⟩
  | o2 x ret hs =>
    obtain ⟨hflags, hn⟩ := hc.atLoad hs
    obtain ⟨-, -, hsettled⟩ := hpool.atLoad hs
    have hencoded := (encoded_flagsKeptBut c 0).settled_of_zero hsettled hflags
    exact flagsOk_atLoad (fun _ hj => nomatch hn.symm.trans hj) rfl
      ⟨(flagsSettled_of_table rfl rfl).mpr hencoded, hn⟩
  | o3 x ret hs =>
    obtain ⟨hflags, -⟩ := hc.atLoad hs
    obtain ⟨-, -, hsettled⟩ := hpool.atLoad hs
    have hvalid := invalid_clear c 0
    have hcleared := (withFlagByte_flagsKeptBut c 0 (c.byteAt (flagAddr 0) &&& 0xFE)).settled_of_zero hsettled hflags
    refine flagsOk_atLoad ?_ rfl ((flagsSettled_of_table rfl rfl).mpr hcleared)
    rintro j hj
    obtain rfl : 0 = j := by simpa using hj
    exact (invalid_of_table rfl 0).trans hvalid
  | p3 x ret hs =>
    obtain ⟨hflags, hn⟩ := hc.atLoad hs
    obtain ⟨hin, -⟩ := hpool.atLoad hs
    have hpending := withdrawn_flagsPending hin hflags hn
    exact flagsOk_atLoad (fun _ hj => nomatch hn.symm.trans hj) rfl
      (loadFlagsOk_of_table (lp := .p4) rfl rfl (.inl rfl) hpending)
  | p4 x ret hs =>
    have hpending : flagsPending x c := hc.atLoad hs
    have hencoded := encoded_flagsPending hfits hpending
    refine flagsOk_atLoad (fun j hj => ?_) rfl (loadFlagsOk_of_table (lp := .p5) rfl rfl (.inl rfl) hencoded)
    have hvalid := hc.next_valid hj
    obtain ⟨-, -, hcand, -⟩ := hpending
    have hne : j ≠ x.cand := by
      rintro rfl
      rw [hcand] at hvalid
      cases hvalid
    exact (invalid_of_table rfl j).trans (((encoded_flagsKeptBut c x.cand).other j hne).trans hvalid)
  | p6 x ret hs =>
    obtain ⟨hpending, -⟩ := hc.atLoad hs
    exact publish_flagsOk hpending rfl rfl rfl rfl
  | p7keep x ret hs hkeep =>
    obtain ⟨hmapped, hfresh, -⟩ := hc.atLoad hs
    have hpublished : loadPublished x c := hpool.atLoad hs
    obtain ⟨⟨-, -, -, -, -, hrecycle⟩, -, -⟩ := hpublished
    have hnone : c.table.recycleReg = none := by
      rw [hrecycle]
      rcases hkeep with hin | hprev
      · rw [if_pos hin]
      · rw [hprev, ite_self]
    exact flagsOk_atLoad hnext rfl ⟨hmapped, fun r hr => absurd (hnone.symm.trans hr) nofun, hfresh⟩
  | p7retire x ret q hs hin hq => exact retire_flagsOk (hpool.atLoad hs) hc (hc.atLoad hs) hin hq
  | p8 x ret hs => exact raise_flagsOk hc hs
  | _ => exact absurd (by grind [Block.BetweenLoads]) hb

/-! ### Every move of a block -/

/-- At reset every slot is invalid and nothing is mapped (10_state.md R27, R28). -/
theorem powerOnReset_flagsOk (c : Block) : (powerOnReset c).FlagsOk := by
  refine ⟨nofun, fun s j _ _ hs _ => ?_, nofun, fun j _ _ _ => invalid_reset c.params j⟩
  have hmem := mem_map_of_mapped hs
  simp [powerOnReset, Block.reset] at hmem

/-- The invariant of one block: the flags, with the array lengths and the pool that they rest on. -/
def Block.LoaderOk (c : Block) : Prop := c.ShapeOk ∧ c.PoolOk ∧ c.FlagsOk

theorem Micro.loaderOk {op : Instr} {c c' : Block} (hc : c.LoaderOk) (h : Micro op c c') : c'.LoaderOk := by
  obtain ⟨hshape, hpool, hflags⟩ := hc
  have hpool' := h.poolOk hpool
  exact ⟨h.shapeOk hshape hpool', hpool', h.flagsOk hshape.fits hpool hflags⟩

theorem step_loaderOk {s t : State} (h : step s = .next t) (ch : Channel) (hs : (s.block ch).LoaderOk) :
    (t.block ch).LoaderOk := by
  refine step_keeps (P := Block.LoaderOk) (fun _ _ _ hc hmicro => hmicro.loaderOk hc) ?_ ?_ h ch hs
  · rintro c c' ⟨hshape, hpool, hflags⟩ hu
    exact ⟨hshape.of_undisturbed hu, hpool.of_undisturbed hu, hflags.of_undisturbed hu⟩
  · rintro - c ⟨hshape, hpool, -⟩
    exact ⟨powerOnReset_shapeOk hshape, powerOnReset_poolOk hpool, powerOnReset_flagsOk c⟩

/-- Settles O57: each move keeps the flags of its block, and the lengths and the pool with them. -/
theorem stepKeepsFlags : Obligations.StepKeepsFlags :=
  fun _ _ ⟨hmain, hprog⟩ h => ⟨step_loaderOk h .main hmain, step_loaderOk h .prog hprog⟩

/-! ### A pending hand-off -/

theorem Between.next_eq {op : Instr} {c c' : Block} (h : Between op c c') : c'.next = c.next := by
  cases h with
  | outside hkept => exact hkept.next
  | begun d _ _ _ _ hkept h2 h5 hload =>
    rw [← hkept.next]
    rcases beginLoad_cases h2 h5 hload with ⟨-, rfl⟩ | ⟨-, x, r, -, rfl⟩ <;> rfl

/-- The two statements that write the hand-off stand behind an await for its adoption (R108, R110). -/
theorem Micro.next_eq {op : Instr} {c c' : Block} {j : Nat} (hc : c.FlagsOk) (hj : c.next = some j)
    (h : Micro op c c') : c'.next = some j := by
  by_cases hb : c.BetweenLoads
  · exact (h.between hb).next_eq.trans hj
  cases h with
  | o3 x ret hs | p6 x ret hs =>
    obtain ⟨-, hnone⟩ := hc.atLoad hs
    cases hnone.symm.trans hj
  | p8 => rwa [raiseMaxLoaded_eq]
  | held | o1 | o2 | p2 | p3 | p4 | p5 | p7keep | p7retire => exact hj
  | _ => exact absurd (by grind [Block.BetweenLoads]) hb

/-- Settles O59: each step of context A keeps the hand-off, and the flags that say where it waits for its adoption. -/
theorem handOffIsNeverOverwritten : Obligations.HandOffIsNeverOverwritten := by
  rintro i s t j ⟨hshape, -, -, hpool, hflags, -⟩ hj h
  have hmoved := exec_rel (R := fun c c' => c.LoaderOk ∧ c.next = some j → c'.LoaderOk ∧ c'.next = some j)
    (fun _ => id) (fun _ _ _ hab hbc => hbc ∘ hab) ?micro h
  case micro =>
    rintro c c' hserves hmicro ⟨hc, hnext⟩
    have hstep := microStep_cases hserves hmicro
    have ⟨_, _, hflags⟩ := hc
    exact ⟨hstep.loaderOk hc, hstep.next_eq hflags hnext⟩
  obtain ⟨hcur, -⟩ := hmoved
  obtain ⟨-, hnext⟩ := hcur ⟨⟨hshape, hpool, hflags⟩, hj⟩
  exact hnext

end Sys2Proof.Machine
end

section
/-! How long a hand-off waits for its adoption while context A takes no step (41_slot_table_loader.md R117;
60_exceptions.md R171, R172). -/

namespace Sys2Proof.Machine

/-! ### One packet completion -/

/-- A packet completion that repeats slot 0 leaves the hand-off where it is (60_exceptions.md R171). -/
theorem engineStep_of_repeating {c : Block} (h : repeating c = true) :
    engineStep c =
      .ok (afterPacket c c.engine.cur c.engine.latched (c.engine.repeatLeft - 1) c.engine.rot c.next) := by
  have hr : repeating (countPacket c) = true := h
  rw [engineStep, selectFrame, if_pos hr]
  rfl

/-- A packet completion that repeats nothing adopts the hand-off (R172). -/
theorem engineStep_of_handOff {c : Block} {j : Nat} (h : repeating c = false) (hnext : c.next = some j)
    (hj : j < c.slots) :
    engineStep c =
      .ok (afterPacket c (.slot j) (c.slotFrame j) (if j = 0 then c.nextRepeat else 0)
        (if j = 0 then c.engine.rot else j) none) := by
  have hr : ¬repeating (countPacket c) = true := ne_true_of_eq_false h
  have hn : (countPacket c).next = some j := hnext
  have hread : readSlot j (countPacket c) = .ok (c.slotFrame j) := readSlot_ok (c := countPacket c) hj
  rw [engineStep, selectFrame, if_neg hr, hn]
  simp only [hread]
  rfl

/-- One more packet completion at the end of a run of them. -/
theorem engineSteps_succ_last {m : Nat} {c d c' : Block} (hm : engineSteps m c = .ok d) (h : engineStep d = .ok c') :
    engineSteps (m + 1) c = .ok c' := by
  induction m generalizing c with
  | zero =>
    obtain rfl : c = d := by simpa [engineSteps] using hm
    simp only [engineSteps, h]
  | succ m ih =>
    rw [engineSteps] at hm ⊢
    cases hstep : engineStep c with
    | error e => simp [hstep] at hm
    | ok b =>
      rw [hstep] at hm
      exact ih hm

/-! ### The wait -/

/-- How many packet completions go by before one can adopt a hand-off: the repeats left of slot 0, if that is what
context B is sending. -/
def Block.handOffWait (c : Block) : Nat := if c.engine.cur = .slot 0 then c.engine.repeatLeft.toNat else 0

theorem handOffWait_pos_iff {c : Block} : 0 < c.handOffWait ↔ c.engine.cur = .slot 0 ∧ 0 < c.engine.repeatLeft := by
  unfold Block.handOffWait
  split
  · next hcur => simp [hcur, BitVec.lt_def]
  · next hcur => simp [hcur]

theorem repeating_iff_handOffWait_pos {c : Block} : repeating c = true ↔ 0 < c.handOffWait :=
  repeating_iff.trans handOffWait_pos_iff.symm

/-- A repeat makes the wait one packet completion shorter. -/
theorem handOffWait_repeat {c : Block} {w : Nat} (h : c.handOffWait = w + 1) :
    (afterPacket c c.engine.cur c.engine.latched (c.engine.repeatLeft - 1) c.engine.rot c.next).handOffWait = w := by
  have hcur : c.engine.cur = .slot 0 := (handOffWait_pos_iff.mp (by omega)).1
  simp only [Block.handOffWait, hcur, if_true, afterPacket] at h ⊢
  bv_omega

/-- While the wait lasts, packet completions leave the hand-off pending and shorten the wait one by one. -/
theorem engineSteps_handOffWait {c : Block} {j m : Nat} (hnext : c.next = some j) (hm : m ≤ c.handOffWait) :
    ∃ c', engineSteps m c = .ok c' ∧ c'.next = some j ∧ c'.params = c.params ∧ c'.handOffWait = c.handOffWait - m := by
  induction m generalizing c with
  | zero => exact ⟨c, rfl, hnext, rfl, rfl⟩
  | succ m ih =>
    obtain ⟨w, hw⟩ : ∃ w, c.handOffWait = w + 1 := ⟨c.handOffWait - 1, by omega⟩
    have hrep := repeating_iff_handOffWait_pos.mpr (by omega : 0 < c.handOffWait)
    have hw' := handOffWait_repeat hw
    obtain ⟨c', hsteps, hnext', hparams, hwait⟩ :=
      ih (c := afterPacket c c.engine.cur c.engine.latched (c.engine.repeatLeft - 1) c.engine.rot c.next) hnext
        (by omega)
    refine ⟨c', ?_, hnext', hparams, by omega⟩
    rw [engineSteps, engineStep_of_repeating hrep]
    exact hsteps

/-- The packet completion after the wait adopts the hand-off (R117). -/
theorem engineSteps_adopt {c : Block} {j : Nat} (hnext : c.next = some j) (hj : j ≤ c.params.n) :
    ∃ c', engineSteps (c.handOffWait + 1) c = .ok c' ∧ c'.next = none ∧ c'.engine.cur = .slot j := by
  obtain ⟨d, hsteps, hnext', hparams, hwait⟩ := engineSteps_handOffWait hnext le_rfl
  have hrep : repeating d = false := by
    rw [← Bool.not_eq_true, repeating_iff_handOffWait_pos]
    omega
  have hslot : j < d.slots := by
    rw [Block.slots, hparams]
    omega
  exact ⟨_, engineSteps_succ_last hsteps (engineStep_of_handOff hrep hnext' hslot), rfl, rfl⟩

/-- Repeat counts of at most 4 keep the wait within them (10_state.md R32). -/
theorem handOffWait_le_four {c : Block} (h : c.RepeatsOk) : c.handOffWait ≤ 4 := by
  obtain ⟨-, hleft, -⟩ := h
  unfold Block.handOffWait
  split
  · exact BitVec.le_def.mp hleft
  · exact Nat.zero_le 4

/-- Settles O29: while slot 0 is repeated the wait shrinks by one a packet, and at its end the hand-off is adopted. -/
theorem handOffWaitIsBounded : Obligations.HandOffWaitIsBounded := by
  intro c j hnext hj
  refine ⟨fun m hm => ?_, engineSteps_adopt hnext hj, fun hrep => Nat.succ_le_succ (handOffWait_le_four hrep)⟩
  change m ≤ c.handOffWait at hm
  obtain ⟨c', hsteps, hnext', -, hwait⟩ := engineSteps_handOffWait hnext hm
  refine ⟨c', hsteps, hnext', ?_⟩
  rw [← handOffWait_pos_iff, hwait]
  exact Nat.sub_pos_iff_lt.symm

end Sys2Proof.Machine
end

section
/-! What P1 chooses, and where a load waits while a hand-off is pending (41_slot_table_loader.md R108 to R111). -/

namespace Sys2Proof.Machine

/-! ### Operands -/

theorem inRange_of_not_outside {x : Word} {lo hi : Int} (h : ¬outside x lo hi) : inRange x lo hi = true := by
  unfold outside at h
  exact decide_eq_true (by omega)

/-- An operand in a range of positive numbers reads the same without its sign. -/
theorem toNat_of_not_outside {x : Word} {n : Nat} (h : ¬outside x 1 n) : 1 ≤ x.toNat ∧ x.toNat ≤ n := by
  unfold outside at h
  have hsigned : x.toInt = x.toNat := by
    have hsign := x.toInt_neg_iff
    exact BitVec.toInt_eq_toNat_of_lt (by omega)
  omega

/-! ### The beginning of a load -/

/-- A load of slot 0 begins at the await before its encoder call (R108). -/
theorem beginLoad_oneShot {op : Instr} {bytes : List Byte} {rep : Byte} {ret : LoadRet} {c : Block}
    (h2 : 2 ≤ bytes.length) (h5 : bytes.length ≤ 5) :
    beginLoad op 0 bytes rep ret c =
      .ok ((c.withPayload bytes).goto op (.load .o1 ⟨0, rep, false, none, 0, false⟩ ret)) := by
  rw [beginLoad, if_neg (by omega)]
  simp

/-- A load of a user slot begins at the await of an in-place load, or else at the encoder call (R109, R110). -/
theorem beginLoad_persistent {op : Instr} {s : Nat} {bytes : List Byte} {rep : Byte} {ret : LoadRet} {c : Block}
    {x : LoadCtx} {r : Option Nat} (h2 : 2 ≤ bytes.length) (h5 : bytes.length ≤ 5) (h1 : 1 ≤ s) (hn : s ≤ c.params.n)
    (hx : chooseSlot s rep c = .ok (x, r)) :
    beginLoad op s bytes rep ret c =
      .ok (((c.withPayload bytes).withRecycle r).goto op (.load (if x.inPlace then .p2 else .p4) x ret)) := by
  have hmod : s % c.slots = s := Nat.mod_eq_of_lt (Nat.lt_succ_of_le hn)
  have hchosen : chooseSlot s rep (c.withPayload bytes) = .ok (x, r) := hx
  rw [beginLoad, if_neg (by omega)]
  simp only [hmod, hchosen, if_neg (Nat.ne_of_gt h1)]

/-- P1 makes the choice that R109 and R111 describe. -/
theorem slotChoice_of_chooseSlot {user : Nat} {rep : Byte} {c : Block} {x : LoadCtx} {r : Option Nat}
    (h : chooseSlot user rep c = .ok (x, r)) : slotChoice user rep c x r := by
  obtain ⟨huser, hrep, hprev⟩ := chooseSlot_user h
  rcases chooseSlot_cases h with ⟨q, hq, rfl, rfl⟩ | ⟨hnone, hlt, rfl, rfl⟩ | ⟨hnone, hge, q, hq, rfl, rfl⟩
  · refine ⟨huser, hrep, rfl, hprev, fun p hp => ?_, fun hn => ?_, fun hn => ?_⟩
    · exact ⟨Option.some.inj (hq.symm.trans hp), rfl, rfl⟩
    all_goals exact absurd (hq.symm.trans hn) nofun
  · refine ⟨huser, hrep, rfl, hprev, fun p hp => ?_, fun _ _ => ⟨rfl, rfl, rfl⟩, fun _ hge => ?_⟩
    · exact absurd (hnone.symm.trans hp) nofun
    · omega
  · refine ⟨huser, hrep, rfl, hprev, fun p hp => ?_, fun _ hlt => ?_, fun _ _ => ⟨hq, rfl, rfl⟩⟩
    · exact absurd (hnone.symm.trans hp) nofun
    · omega

/-- In a settled pool a persistent load finds a slot, one of the pool (R119). -/
theorem exists_slotChoice {user : Nat} (rep : Byte) {c : Block} (hbounds : c.PoolBounds) (hpool : c.PoolSettled)
    (h1 : 1 ≤ user) (hn : user ≤ c.params.n) :
    ∃ x r, chooseSlot user rep c = .ok (x, r) ∧ slotChoice user rep c x r ∧ x.cand < c.slots := by
  obtain ⟨x, r, hx⟩ := chooseSlot_of_settled hbounds.map_length hpool h1 hn (rep := rep)
  obtain ⟨⟨-, -, -, hcand, -⟩, -, -⟩ := chooseSlot_loadPending hbounds hpool h1 hn hx
  exact ⟨x, r, hx, slotChoice_of_chooseSlot hx, Nat.lt_succ_of_le hcand⟩

/-- The payload register once the checksum stands behind the payload just written (40_encoder.md R96). -/
theorem appendChecksum_withPayload {c : Block} {bytes : List Byte} (h : bytes.length < c.payload.p.length) :
    (appendChecksum (c.withPayload bytes)).payload =
      ⟨bytes ++ [checksum bytes] ++ c.payload.p.drop (bytes ++ [checksum bytes]).length, bytes.length⟩ := by
  have htake : (bytes ++ c.payload.p.drop bytes.length).take bytes.length = bytes := List.take_left' rfl
  show Payload.mk ((bytes ++ c.payload.p.drop bytes.length).set bytes.length
    (checksum ((bytes ++ c.payload.p.drop bytes.length).take bytes.length))) bytes.length = _
  rw [htake, List.set_append_right _ _ le_rfl, Nat.sub_self, List.drop_eq_getElem_cons h, List.set_cons_zero]
  simp

/-! ### A burst from Idle -/

/-- A command that waits after its first step: a burst from Idle is that step. -/
theorem exec_waits_at_once {i : Instr} {s : State} {c : Block} (hg : s.grain = .burst) (hs : s.cur.seq = .idle)
    (hstart : (commandOf i).start s.cur = .ok c) (hpaused : paused c = true) : exec i s = .next (s.setCur c) := by
  have hmicro : microStep i (commandOf i) s.cur = .ok c := by rwa [microStep, hs]
  refine exec_of_foreground (by simp [busyWithOther, hs]) ?_
  rw [hg, foreground, burstLength, Nat.add_comm, Nat.add_succ]
  exact burst_stops hmicro hpaused

/-- A command that waits after its second step: a burst from Idle is those two. -/
theorem exec_waits_after_step {i : Instr} {s : State} {c d : Block} (hg : s.grain = .burst) (hs : s.cur.seq = .idle)
    (hstart : (commandOf i).start s.cur = .ok d) (hrunning : paused d = false)
    (hmicro : microStep i (commandOf i) d = .ok c) (hpaused : paused c = true) : exec i s = .next (s.setCur c) := by
  have hfirst : microStep i (commandOf i) s.cur = .ok d := by rwa [microStep, hs]
  refine exec_of_foreground (by simp [busyWithOther, hs]) ?_
  rw [hg, foreground, burstLength, Nat.add_comm, Nat.add_succ, Nat.add_succ, burst_goes_on hfirst hrunning]
  exact burst_stops hmicro hpaused

/-- The awaits of a load hold while a hand-off is pending. -/
theorem paused_of_handOff {c : Block} {op : Instr} {lp : LoadPos} {x : LoadCtx} {ret : LoadRet} {j : Nat}
    (hs : c.seq = .run op (.load lp x ret)) (hlp : lp = .o1 ∨ lp = .p2 ∨ lp = .p5) (hnext : c.next = some j) :
    paused c = true := by
  rcases hlp with rfl | rfl | rfl <;> simp [paused, holding, hs, hnext]

/-! ### The loads of two builders -/

/-- FUNCTION_SHORT with operands in range begins a load of slot 0 (42_command_builders.md R127). -/
theorem startFunctionShort_ok {cab fByte : Word} {c : Block} (hcab : ¬outside cab 0 10239)
    (hbyte : ¬outside fByte 0 255) :
    startFunctionShort cab fByte c =
      .ok ((c.withPayload (functionShortPayload cab.toNat (operandByte fByte))).goto (.functionShort cab fByte)
        (.load .o1 ⟨0, 4, false, none, 0, false⟩ .builder)) := by
  have hlen := cabBytes_length cab.toNat
  have hadmitted : (cabOk cab && byteOk fByte) = true :=
    Bool.and_eq_true_iff.mpr ⟨inRange_of_not_outside hcab, inRange_of_not_outside hbyte⟩
  rw [startFunctionShort, startOneShot, if_pos hadmitted]
  apply beginLoad_oneShot <;> simp only [functionShortPayload, List.length_append, List.length_singleton] <;> omega

theorem length_throttlePayload (cab : Nat) (speed : Int) (dir : Nat) :
    3 ≤ (throttlePayload cab speed dir).length ∧ (throttlePayload cab speed dir).length ≤ 4 := by
  have hlen := cabBytes_length cab
  simp only [throttlePayload, List.length_append, List.length_cons, List.length_nil]
  omega

/-- THROTTLE with operands in range begins a load of its user slot (42_command_builders.md R126). -/
theorem startThrottle_ok {slot cab speed dir : Word} {c : Block} {x : LoadCtx} {r : Option Nat}
    (hslot : ¬outside slot 1 c.params.n) (hcab : ¬outside cab 0 10239) (hdir : ¬outside dir 0 1)
    (hx : chooseSlot slot.toNat 0 c = .ok (x, r)) :
    startThrottle slot cab speed dir c =
      .ok (((c.withPayload (throttlePayload cab.toNat speed.toInt dir.toNat)).withRecycle r).goto
        (.throttle slot cab speed dir) (.load (if x.inPlace then .p2 else .p4) x .builder)) := by
  obtain ⟨h3, h4⟩ := length_throttlePayload cab.toNat speed.toInt dir.toNat
  obtain ⟨h1, hn⟩ := toNat_of_not_outside hslot
  have hadmitted : (inRange slot 1 c.params.n && cabOk cab && inRange dir 0 1) = true := by
    simp [inRange_of_not_outside hslot, inRange_of_not_outside hdir,
      show cabOk cab = true from inRange_of_not_outside hcab]
  rw [startThrottle, if_pos hadmitted]
  exact beginLoad_persistent (by omega) (by omega) h1 hn hx

/-- The encoder call of a persistent load. -/
theorem microStep_p4 {i : Instr} {c : Block} {x : LoadCtx} {ret : LoadRet} (hs : c.seq = .run i (.load .p4 x ret))
    (hcand : x.cand < c.slots) :
    microStep i (commandOf i) c = .ok ((c.encoded x.cand).goto i (.load .p5 x ret)) := by
  simp only [microStep, hs, stepAt, loadStep, encodeInto_ok hcand, thenGoto]

/-- What a persistent load has done to its block once its packet is encoded: its slot holds the frame, the payload
register the packet, and only those and `recycleReg` have changed (R109, R110). -/
theorem encodedLoad_effect {c d : Block} {bytes : List Byte} {r : Option Nat} {cand : Nat} (hshape : c.ShapeOk)
    (h5 : bytes.length ≤ 5) (hcand : cand < c.slots)
    (hd : d = (((c.withPayload bytes).withRecycle r).encoded cand)) :
    d.slotFrame cand = encodedFrame (bytes ++ [checksum bytes]) ∧
      (∀ a, ¬inSlot cand a → d.byteAt a = c.byteAt a) ∧
      (∀ m, m ≠ cand → d.table.bitCounts.getD m 0 = c.table.bitCounts.getD m 0) ∧
      d =
        { c with
          payload :=
            ⟨bytes ++ [checksum bytes] ++ c.payload.p.drop (bytes ++ [checksum bytes]).length, bytes.length⟩
          table :=
            { c.table with mem := d.table.mem, bitCounts := d.table.bitCounts, recycleReg := r } } := by
  obtain ⟨-, hcounts, -, hp, -⟩ := hshape
  have hroom : bytes.length < c.payload.p.length := by omega
  have hpacket : ((c.withPayload bytes).withRecycle r).nextPacket = bytes ++ [checksum bytes] :=
    nextPacket_withPayload c hroom
  have hpayload := appendChecksum_withPayload hroom
  have hslot : cand < ((c.withPayload bytes).withRecycle r).table.bitCounts.length := by
    rwa [withRecycle_table, withPayload_table, hcounts]
  subst hd
  refine ⟨?_, fun a ha => ?_, fun m hm => ?_, ?_⟩
  · rw [slotFrame_encoded _ hslot, hpacket]
  · rw [byteAt_encoded_other _ (by unfold inSlot at ha; omega)]
    rfl
  · exact bitCounts_encoded_other _ hm
  · rw [← hpayload]
    rfl

/-- Settles O39: a load of slot 0 and one in place wait after their first step, any other after its encoder call. -/
theorem loadsWaitForTheHandOff : Obligations.LoadsWaitForTheHandOff := by
  intro s j cab fByte slot speed dir hg hs hnext hshape hpool hcab
  refine ⟨fun hbyte => ?_, fun hslot hdir => ?_⟩
  · have hstart := startFunctionShort_ok (c := s.cur) hcab hbyte
    exact exec_waits_at_once hg hs hstart (paused_of_handOff rfl (.inl rfl) hnext)
  · obtain ⟨h1, hn⟩ := toNat_of_not_outside hslot
    have hsettled := hpool.settled (outsideLoad_of_idle hs).betweenLoads
    obtain ⟨x, r, hx, hchoice, hcand⟩ := exists_slotChoice 0 hpool.bounds hsettled h1 hn
    have hlen : (throttlePayload cab.toNat speed.toInt dir.toNat).length ≤ 5 := by
      have := length_throttlePayload cab.toNat speed.toInt dir.toNat
      omega
    have hstart := startThrottle_ok (speed := speed) hslot hcab hdir hx
    refine ⟨x, r, hchoice, fun hin => ?_, fun hin => ?_⟩
    · rw [hin, if_pos rfl] at hstart
      exact exec_waits_at_once hg hs hstart (paused_of_handOff rfl (.inr (.inl rfl)) hnext)
    · rw [hin, if_neg Bool.false_ne_true] at hstart
      obtain ⟨hframe, hbytes, hcounts, hrest⟩ := encodedLoad_effect (r := r) hshape hlen hcand rfl
      refine ⟨_, exec_waits_after_step hg hs hstart rfl (microStep_p4 rfl hcand)
        (paused_of_handOff rfl (.inr (.inr rfl)) hnext), hframe, hbytes, hcounts, ?_⟩
      exact congrArg (Block.goto · _ _) hrest

end Sys2Proof.Machine
end

section
/-! The read-outs (42_command_builders.md R133, R134). -/

namespace Sys2Proof.Machine

/-! ### The end of a command -/

/-- A block whose command is over, the outside having seen `out`. -/
def Block.over (c : Block) (out : List Event) : Block :=
  { c with seq := .idle, io := { c.io with events := c.io.events ++ out } }

theorem endCommand_eq_over (c : Block) (l : EndLabel) : c.endCommand l = c.over [.ended l] := rfl

theorem emit_endCommand_eq_over (c : Block) (r : Response) (l : EndLabel) :
    (c.emit r).endCommand l = c.over [.response r, .ended l] := by
  simp [Block.over, Block.endCommand, Block.emit, Block.log]

/-- At Idle there is no command to end: only what the outside sees is new. -/
theorem over_of_idle {c : Block} (h : c.seq = .idle) (out : List Event) :
    c.over out = { c with io := { c.io with events := c.io.events ++ out } } := by
  rw [Block.over, ← h]

/-- A command that is over after its first step, whatever the grain. -/
theorem exec_ends_at_once {i : Instr} {s : State} {c : Block} {out : List Event} (hs : s.cur.seq = .idle)
    (hstart : (commandOf i).start s.cur = .ok (c.over out)) : exec i s = .next (s.setCur (c.over out)) := by
  cases hg : s.grain with
  | micro => exact exec_of_foreground (by simp [busyWithOther, hs]) (by rwa [hg, foreground, microStep, hs])
  | burst => exact exec_waits_at_once hg hs hstart rfl

/-! ### The read-outs -/

/-- PRINT_LAST_PACKET shows the record of the last load, if there is one (R133). -/
theorem start_printLastPacket (c : Block) :
    (commandOf .printLastPacket).start c =
      .ok (c.over
        ((if c.lastLoad.valid then
          [.response (.lastPacket c.lastLoad.slot (c.lastLoad.bytes.take c.lastLoad.len) c.lastLoad.rep)]
        else []) ++ [.ended .ok])) := by
  show startPrintLastPacket c = _
  rw [startPrintLastPacket]
  split
  · rw [emit_endCommand_eq_over]
    rfl
  · exact congrArg Except.ok (endCommand_eq_over c .ok)

/-- PRINT_CAPACITY shows the number of persistent slots (R134). -/
theorem start_printCapacity (c : Block) :
    (commandOf .printCapacity).start c = .ok (c.over [.response (.capacity c.params.n), .ended .ok]) := by
  show startPrintCapacity c = _
  rw [startPrintCapacity, emit_endCommand_eq_over]

/-- Settles O38: each read-out is over after its first step. -/
theorem readoutsComplete : Obligations.ReadoutsComplete := by
  intro s hs
  refine ⟨?_, ?_⟩
  · rw [exec_ends_at_once hs (start_printLastPacket s.cur), over_of_idle hs, List.append_assoc]
  · rw [exec_ends_at_once hs (start_printCapacity s.cur), over_of_idle hs]

end Sys2Proof.Machine
end

section
/-! What a builder or a read-out leaves alone: it stands at Idle or in its own load, and no statement it can reach there
writes a service-mode register or draws a sample (42_command_builders.md R124). -/

namespace Sys2Proof.Machine

/-! ### The positions of a builder -/

theorem legOk_of_not_service {op : Instr} (h : isService op = false) (l : Leg) : legOk op l = false := by
  cases op with
  | readCv | writeCvByte | writeCvBit => cases h
  | _ => rfl

theorem ackLegOk_of_not_service {op : Instr} (h : isService op = false) (l : Leg) : ackLegOk op l = false := by
  rw [ackLegOk, legOk_of_not_service h, Bool.false_and]

/-- An operation that is no conversation has no positions but those of a builder's load (10_state.md R24). -/
theorem builderLoad_of_positionOk {op : Instr} {pos : Pos} (hop : isService op = false)
    (h : positionOk op pos = true) : ∃ lp x, pos = .load lp x .builder := by
  have hleg := legOk_of_not_service hop
  have hack := ackLegOk_of_not_service hop
  cases pos with
  | load lp x ret =>
    cases ret with
    | builder => exact ⟨lp, x, rfl⟩
    | _ => simp [positionOk, hleg, hack] at h
  | _ => simp [positionOk, hop, hack] at h

/-- Where a load returns to says whether the operation has it, not how far the load has got. -/
theorem positionOk_load_eq (op : Instr) (lp lp' : LoadPos) (x x' : LoadCtx) (ret : LoadRet) :
    positionOk op (.load lp x ret) = positionOk op (.load lp' x' ret) := by
  cases ret <;> rfl

theorem Block.PositionOk.at {c : Block} {op : Instr} {pos : Pos} (h : c.PositionOk) (hs : c.seq = .run op pos) :
    positionOk op pos = true := by
  unfold Block.PositionOk at h
  rw [hs] at h
  exact h.1

/-- A running operation that is no conversation stands in its own load. -/
theorem Block.PositionOk.inLoad {c : Block} {op : Instr} {pos : Pos} (h : c.PositionOk) (hop : isService op = false)
    (hs : c.seq = .run op pos) : ∃ lp x, pos = .load lp x .builder :=
  builderLoad_of_positionOk hop (h.at hs)

theorem positionOk_of_idle {c : Block} (h : c.seq = .idle) : c.PositionOk := by
  unfold Block.PositionOk
  rw [h]
  trivial

theorem positionOk_of_run {c : Block} {op : Instr} {pos : Pos} (hop : isService op = false)
    (hs : c.seq = .run op pos) (hpos : positionOk op pos = true) : c.PositionOk := by
  unfold Block.PositionOk
  rw [hs]
  exact ⟨hpos, fun h => absurd (hop.symm.trans h) nofun⟩

/-! ### What a builder keeps -/

/-- From `c` to `c'` the service-mode registers, the ack detector, the output enable and what the environment still has
to answer are as before. -/
structure Block.ServiceKept (c c' : Block) : Prop where
  ack : c'.ack = c.ack
  svc : c'.svc = c.svc
  outEnable : c'.outEnable = c.outEnable
  currents : c'.io.currents = c.io.currents
  ticks : c'.io.ticks = c.io.ticks
  draws : c'.io.draws = c.io.draws

theorem Block.ServiceKept.refl (c : Block) : c.ServiceKept c := ⟨rfl, rfl, rfl, rfl, rfl, rfl⟩

theorem Block.ServiceKept.trans {a b c : Block} (hab : a.ServiceKept b) (hbc : b.ServiceKept c) : a.ServiceKept c where
  ack := hbc.ack.trans hab.ack
  svc := hbc.svc.trans hab.svc
  outEnable := hbc.outEnable.trans hab.outEnable
  currents := hbc.currents.trans hab.currents
  ticks := hbc.ticks.trans hab.ticks
  draws := hbc.draws.trans hab.draws

theorem beginLoad_serviceKept {op : Instr} {s : Nat} {bytes : List Byte} {rep : Byte} {ret : LoadRet} {c c' : Block}
    (h2 : 2 ≤ bytes.length) (h5 : bytes.length ≤ 5) (h : beginLoad op s bytes rep ret c = .ok c') :
    c.ServiceKept c' := by
  rcases beginLoad_cases h2 h5 h with ⟨-, rfl⟩ | ⟨-, x, r, -, rfl⟩ <;> exact ⟨rfl, rfl, rfl, rfl, rfl, rfl⟩

theorem recordLastLoad_serviceKept (x : LoadCtx) (c : Block) : c.ServiceKept (recordLastLoad x c) := by
  obtain ⟨last, out, hrec, -⟩ := recordLastLoad_eq x c
  rw [hrec]
  exact ⟨rfl, rfl, rfl, rfl, rfl, rfl⟩

/-- The own statements of an operation that is no conversation end it or begin its load. -/
theorem After.serviceKept {op : Instr} {c c' : Block} (hop : isService op = false) (h : After op c c') :
    c.ServiceKept c' := by
  cases h with
  | done out en ro _ hs =>
    obtain ⟨rfl, rfl⟩ := hs hop
    exact ⟨rfl, rfl, rfl, rfl, rfl, rfl⟩
  | preamble _ _ _ hs => exact absurd (hop.symm.trans hs) nofun
  | load _ v _ _ _ _ _ hs _ h2 h5 _ hload =>
    obtain rfl := hs hop
    exact beginLoad_serviceKept h2 h5 hload

theorem After.positionOk {op : Instr} {c c' : Block} (hop : isService op = false) (h : After op c c') :
    c'.PositionOk := by
  cases h with
  | done => exact positionOk_of_idle rfl
  | preamble _ _ _ hs => exact absurd (hop.symm.trans hs) nofun
  | load _ _ _ _ _ _ _ _ _ h2 h5 hp hload =>
    rcases beginLoad_cases h2 h5 hload with ⟨-, rfl⟩ | ⟨-, x, r, -, rfl⟩ <;> exact positionOk_of_run hop rfl (hp _ _)

/-- A statement of a load that goes on to another one keeps the position one of the operation's. -/
theorem Block.ServiceKept.advance {c c' : Block} {op : Instr} {lp lp' : LoadPos} {x : LoadCtx} {ret : LoadRet}
    (hkept : c.ServiceKept c') (hop : isService op = false) (hc : c.PositionOk)
    (hs : c.seq = .run op (.load lp x ret)) (hs' : c'.seq = .run op (.load lp' x ret)) :
    c.ServiceKept c' ∧ c'.PositionOk :=
  ⟨hkept, positionOk_of_run hop hs' ((positionOk_load_eq op lp' lp x x ret).trans (hc.at hs))⟩

/-- Every step of context A that an operation takes at a position of its own, if it is no conversation, keeps the
service-mode part of the block and leaves the operation at a position of its own. -/
theorem Micro.serviceKept {op : Instr} {c c' : Block} (hop : isService op = false) (hc : c.PositionOk)
    (h : Micro op c c') : c.ServiceKept c' ∧ c'.PositionOk := by
  cases h with
  | started _ _ ha => exact ⟨ha.serviceKept hop, ha.positionOk hop⟩
  | held => exact ⟨.refl c, hc⟩
  | o1 _ _ hs | o2 _ _ hs | o3 _ _ hs | p2 _ _ hs | p3 _ _ hs | p4 _ _ hs | p5 _ _ hs | p6 _ _ hs | p7keep _ _ hs
  | p7retire _ _ _ hs => exact Block.ServiceKept.advance ⟨rfl, rfl, rfl, rfl, rfl, rfl⟩ hop hc hs rfl
  | p8 x ret hs =>
    rw [raiseMaxLoaded_eq]
    exact Block.ServiceKept.advance ⟨rfl, rfl, rfl, rfl, rfl, rfl⟩ hop hc hs rfl
  | loadOver _ x ret _ hs _ hret =>
    obtain ⟨_, _, hpos⟩ := hc.inLoad hop hs
    cases hpos
    have hafter := reply_after hret
    exact ⟨(recordLastLoad_serviceKept x c).trans (hafter.serviceKept hop), hafter.positionOk hop⟩
  | verdict _ _ _ _ hs =>
    rcases hs with ⟨hs, -⟩ | ⟨hs, -⟩ <;> obtain ⟨_, _, hpos⟩ := hc.inLoad hop hs <;> cases hpos
  | wp2 _ hs | b2next _ _ hs | b2last _ _ _ hs | ak0 _ hs | ak1 _ hs | ak1timeout _ _ hs | ak2 _ hs | ak3 _ _ _ hs
  | ak3confirmed _ _ _ _ hs | ak6 _ hs | ak7 _ hs =>
    obtain ⟨_, _, hpos⟩ := hc.inLoad hop hs
    cases hpos

/-- Settles O49: from a position of its own such a command goes on to positions of its own only. -/
theorem buildersLeaveServiceModeAlone : Obligations.BuildersLeaveServiceModeAlone := by
  intro i s t hop hpos h
  obtain ⟨hrel, -⟩ := exec_rel (R := fun c c' => c.PositionOk → c.ServiceKept c' ∧ c'.PositionOk)
    (fun c hc => ⟨.refl c, hc⟩)
    (fun _ _ _ hab hbc ha =>
      have ⟨hkept, hb⟩ := hab ha
      have ⟨hkept', hc⟩ := hbc hb
      ⟨hkept.trans hkept', hc⟩)
    (fun _ _ hserves hmicro hc => (microStep_cases hserves hmicro).serviceKept hop hc) h
  obtain ⟨⟨hack, hsvc, hout, hcurrents, hticks, hdraws⟩, -⟩ := hrel hpos
  exact ⟨hack, hsvc, hout, hcurrents, hticks, hdraws⟩

end Sys2Proof.Machine
end

section
/-! A builder's load from its first statement to its end, with no hand-off pending: slot 0 as a one-shot, a user slot
as a persistent load (41_slot_table_loader.md R108 to R113; 42_command_builders.md R124). -/

namespace Sys2Proof.Machine

/-! ### What the statements of a load make of a block -/

/-- A block after a publish section for slot `j`: the slot is valid and handed off (R108, R110). -/
def Block.published (c : Block) (j : Nat) (rep : Byte) : Block :=
  { c.withFlagByte j (c.byteAt (flagAddr j) &&& 0xFE) with nextRepeat := rep, next := some j }

theorem publishOneShot_ok (x : LoadCtx) (c : Block) : publishOneShot x c = .ok (c.published 0 x.rep) := by
  rw [publishOneShot, clearInvalid_ok (Nat.succ_pos _)]
  rfl

theorem publishPersistent_ok {x : LoadCtx} {c : Block} (h : x.cand < c.slots) :
    publishPersistent x c = .ok ((c.withMapped x.user x.cand).published x.cand x.rep) := by
  rw [publishPersistent, clearInvalid_ok h]
  rfl

/-- The slot that a load takes out of the rotation at P7: the one its user slot used before, unless it is rewritten in
place (R110). -/
def LoadCtx.retires (x : LoadCtx) : Option Nat := if x.inPlace then none else x.prev

theorem retires_eq_some {x : LoadCtx} {p : Nat} : x.retires = some p ↔ x.inPlace = false ∧ x.prev = some p := by
  unfold LoadCtx.retires
  split <;> simp_all

/-- The slot RAM after P7. -/
def Block.retiredMem (c : Block) (x : LoadCtx) : Memory :=
  match x.retires with
  | some q => c.table.mem.set (flagAddr q) (c.byteAt (flagAddr q) ||| 0x01)
  | none => c.table.mem

theorem retiredMem_some {c : Block} {x : LoadCtx} {p : Nat} (h : x.retires = some p) :
    c.withMem (c.retiredMem x) = c.withFlagByte p (c.byteAt (flagAddr p) ||| 0x01) := by
  rw [Block.retiredMem, h]

theorem retiredMem_none {c : Block} {x : LoadCtx} (h : x.retires = none) : c.withMem (c.retiredMem x) = c := by
  rw [Block.retiredMem, h]
  rfl

theorem retirePrevious_ok {x : LoadCtx} {c : Block} (h : ∀ p, x.retires = some p → p < c.slots) :
    retirePrevious x c = .ok (c.withMem (c.retiredMem x)) := by
  unfold retirePrevious
  cases hin : x.inPlace with
  | true =>
    have hx : x.retires = none := by simp [LoadCtx.retires, hin]
    rw [retiredMem_none hx, if_pos rfl]
  | false =>
    rw [if_neg Bool.false_ne_true]
    cases hprev : x.prev with
    | none =>
      have hx : x.retires = none := by simp [LoadCtx.retires, hin, hprev]
      rw [retiredMem_none hx]
    | some p =>
      have hx := retires_eq_some.mpr ⟨hin, hprev⟩
      rw [retiredMem_some hx, ← setInvalid_ok (h p hx)]

/-- A block at the end of a builder's load: the registers that the load and the end of its command write, the slot table
and the payload register as given (R108, R110, R113). -/
def Block.loadDone (c : Block) (x : LoadCtx) (table : SlotTable) (payload : Payload) (out : List Event) : Block :=
  { c with
    seq := .idle
    table := table
    next := some x.cand
    nextRepeat := x.rep
    payload := payload
    lastLoad := ⟨true, x.user, payload.k + 1, payload.p.take (payload.k + 1), x.rep⟩
    io := { c.io with events := c.io.events ++ out } }

/-- Replace the slot table. -/
def Block.withTable (c : Block) (t : SlotTable) : Block := { c with table := t }

section
variable (c : Block) (x : LoadCtx) (table : SlotTable) (payload : Payload) (out : List Event)

@[simp] theorem loadDone_goto (op : Instr) (pos : Pos) :
    (c.goto op pos).loadDone x table payload out = c.loadDone x table payload out := rfl

@[simp] theorem loadDone_withTable (t : SlotTable) :
    (c.withTable t).loadDone x table payload out = c.loadDone x table payload out := rfl

@[simp] theorem loadDone_withMem (m : Memory) :
    (c.withMem m).loadDone x table payload out = c.loadDone x table payload out := rfl

@[simp] theorem loadDone_withBitCount (j : Nat) (v : BitVec 6) :
    (c.withBitCount j v).loadDone x table payload out = c.loadDone x table payload out := rfl

@[simp] theorem loadDone_withMapped (user j : Nat) :
    (c.withMapped user j).loadDone x table payload out = c.loadDone x table payload out := rfl

@[simp] theorem loadDone_withRecycle (r : Option Nat) :
    (c.withRecycle r).loadDone x table payload out = c.loadDone x table payload out := rfl

@[simp] theorem loadDone_withPayload (bytes : List Byte) :
    (c.withPayload bytes).loadDone x table payload out = c.loadDone x table payload out := rfl

@[simp] theorem loadDone_appendChecksum :
    (appendChecksum c).loadDone x table payload out = c.loadDone x table payload out := rfl

@[simp] theorem loadDone_published (j : Nat) (rep : Byte) :
    (c.published j rep).loadDone x table payload out = c.loadDone x table payload out := rfl

end

@[simp] theorem withTable_payload (c : Block) (t : SlotTable) : (c.withTable t).payload = c.payload := rfl

@[simp] theorem withTable_table (c : Block) (t : SlotTable) : (c.withTable t).table = t := rfl

@[simp] theorem published_payload (c : Block) (j : Nat) (rep : Byte) : (c.published j rep).payload = c.payload := rfl

@[simp] theorem published_table (c : Block) (j : Nat) (rep : Byte) :
    (c.published j rep).table =
      { c.table with mem := c.table.mem.set (flagAddr j) (c.byteAt (flagAddr j) &&& 0xFE) } := rfl

@[simp] theorem appendChecksum_table (c : Block) : (appendChecksum c).table = c.table := rfl

@[simp] theorem goto_encoded (c : Block) (op : Instr) (pos : Pos) (j : Nat) :
    (c.goto op pos).encoded j = (c.encoded j).goto op pos := rfl

@[simp] theorem goto_withMapped (c : Block) (op : Instr) (pos : Pos) (user j : Nat) :
    (c.goto op pos).withMapped user j = (c.withMapped user j).goto op pos := rfl

@[simp] theorem goto_published (c : Block) (op : Instr) (pos : Pos) (j : Nat) (rep : Byte) :
    (c.goto op pos).published j rep = (c.published j rep).goto op pos := rfl

@[simp] theorem goto_goto (c : Block) (op : Instr) (pos pos' : Pos) :
    (c.goto op pos).goto op pos' = c.goto op pos' := rfl

/-- The record of a published load, and its builder's end. -/
theorem recordLastLoad_over {c : Block} {x : LoadCtx} (hprint : x.print = false) (hnext : c.next = some x.cand)
    (hrep : c.nextRepeat = x.rep) (out : List Event) :
    (recordLastLoad x c).over out = c.loadDone x c.table c.payload out := by
  rw [recordLastLoad_silent hprint, Block.loadDone, ← hnext, ← hrep]
  rfl

theorem withMem_self (c : Block) : c.withMem c.table.mem = c := rfl

theorem withRecycle_self (c : Block) : c.withRecycle c.table.recycleReg = c := rfl

/-! ### A burst along a load -/

/-- A statement of a load that reaches no pause point. -/
theorem burst_load {i : Instr} {cmd : Command} {lp : LoadPos} {x : LoadCtx} {ret : LoadRet} {n : Nat} {c d : Block}
    (hs : c.seq = .run i (.load lp x ret)) (h : loadStep i cmd lp x ret c = .ok d) (hrun : paused d = false) :
    burst i cmd (n + 1) c = burst i cmd n d :=
  burst_goes_on (by rwa [microStep, hs]) hrun

/-- The end of a builder's load, a pause point. -/
theorem burst_load_over {i : Instr} {cmd : Command} {lp : LoadPos} {x : LoadCtx} {n : Nat} {c : Block}
    {out : List Event} (hs : c.seq = .run i (.load lp x .builder)) (hlp : lp = .o4 ∨ lp = .p9)
    (hreply : ∀ d, cmd.reply d = .ok (d.over out)) :
    burst i cmd (n + 1) c = .ok ((recordLastLoad x c).over out) := by
  have hstep : loadStep i cmd lp x .builder c = cmd.reply (recordLastLoad x c) := by
    rcases hlp with rfl | rfl <;> rfl
  refine burst_stops ?_ rfl
  rw [microStep, hs]
  exact hstep.trans (hreply _)

/-- A load of slot 0 from O1 to its end (R108). -/
theorem burst_oneShot {i : Instr} {cmd : Command} {x : LoadCtx} {n : Nat} {c : Block} {out : List Event}
    (hnext : c.next = none) (hprint : x.print = false) (hcand : x.cand = 0)
    (hreply : ∀ d, cmd.reply d = .ok (d.over out)) :
    burst i cmd (n + 4) (c.goto i (.load .o1 x .builder)) =
      .ok (c.loadDone x ((c.encoded 0).published 0 x.rep).table (appendChecksum c).payload out) := by
  have h1 : loadStep i cmd .o1 x .builder (c.goto i (.load .o1 x .builder)) =
      .ok (c.goto i (.load .o2 x .builder)) := by
    simp [loadStep, hnext]
  have h2 : loadStep i cmd .o2 x .builder (c.goto i (.load .o2 x .builder)) =
      .ok ((c.encoded 0).goto i (.load .o3 x .builder)) := by
    rw [loadStep, encodeInto_ok (Nat.succ_pos _), thenGoto, goto_encoded, goto_goto]
  have h3 (d : Block) : loadStep i cmd .o3 x .builder (d.goto i (.load .o3 x .builder)) =
      .ok ((d.published 0 x.rep).goto i (.load .o4 x .builder)) := by
    rw [loadStep, publishOneShot_ok, thenGoto, goto_published, goto_goto]
  rw [burst_load rfl h1 rfl, burst_load rfl h2 rfl, burst_load rfl (h3 _) rfl,
    burst_load_over rfl (.inl rfl) hreply, recordLastLoad_over hprint (congrArg some hcand.symm) rfl]
  simp

/-- A block after P4 to P6 of a persistent load (R110). -/
abbrev Block.persisted (c : Block) (x : LoadCtx) : Block :=
  ((c.encoded x.cand).withMapped x.user x.cand).published x.cand x.rep

/-- The slot table after P7 and P8 (R110). -/
def Block.settledTable (c : Block) (x : LoadCtx) : SlotTable :=
  { c.table with mem := c.retiredMem x, maxLoaded := max c.table.maxLoaded x.cand }

/-- A persistent load from P4 to its end (R110). -/
theorem burst_persistent {i : Instr} {cmd : Command} {x : LoadCtx} {n : Nat} {c : Block} {out : List Event}
    (hnext : c.next = none) (hprint : x.print = false) (hcand : x.cand < c.slots)
    (hretires : ∀ p, x.retires = some p → p < c.slots) (hreply : ∀ d, cmd.reply d = .ok (d.over out)) :
    burst i cmd (n + 6) (c.goto i (.load .p4 x .builder)) =
      .ok (c.loadDone x ((c.persisted x).settledTable x) (appendChecksum c).payload out) := by
  have h4 : loadStep i cmd .p4 x .builder (c.goto i (.load .p4 x .builder)) =
      .ok ((c.encoded x.cand).goto i (.load .p5 x .builder)) := by
    rw [loadStep, encodeInto_ok (c := c.goto i _) hcand, thenGoto, goto_encoded, goto_goto]
  have hrun : paused ((c.encoded x.cand).goto i (.load .p5 x .builder)) = false := congrArg Option.isSome hnext
  have h5 (d : Block) (hd : d.next = none) : loadStep i cmd .p5 x .builder (d.goto i (.load .p5 x .builder)) =
      .ok (d.goto i (.load .p6 x .builder)) := by
    simp [loadStep, hd]
  have h6 (d : Block) (hd : x.cand < d.slots) : loadStep i cmd .p6 x .builder (d.goto i (.load .p6 x .builder)) =
      .ok (((d.withMapped x.user x.cand).published x.cand x.rep).goto i (.load .p7 x .builder)) := by
    rw [loadStep, publishPersistent_ok (c := d.goto i _) hd, thenGoto, goto_withMapped, goto_published, goto_goto]
  have h7 (d : Block) (hd : ∀ p, x.retires = some p → p < d.slots) :
      loadStep i cmd .p7 x .builder (d.goto i (.load .p7 x .builder)) =
        .ok ((d.withMem (d.retiredMem x)).goto i (.load .p8 x .builder)) := by
    rw [loadStep, retirePrevious_ok (c := d.goto i _) hd, thenGoto]
    rfl
  have h8 (d : Block) : loadStep i cmd .p8 x .builder ((d.withMem (d.retiredMem x)).goto i (.load .p8 x .builder)) =
      .ok ((d.withTable (d.settledTable x)).goto i (.load .p9 x .builder)) := by
    rw [loadStep, raiseMaxLoaded_eq]
    rfl
  rw [burst_load rfl h4 hrun, burst_load rfl (h5 (c.encoded x.cand) hnext) rfl,
    burst_load rfl (h6 (c.encoded x.cand) hcand) rfl, burst_load rfl (h7 (c.persisted x) hretires) rfl,
    burst_load rfl (h8 _) rfl, burst_load_over rfl (.inr rfl) hreply, recordLastLoad_over hprint rfl rfl]
  simp

/-- A load in place from P2: its slot is out of the rotation before it is encoded (R110, R111). -/
theorem burst_inPlace {i : Instr} {cmd : Command} {x : LoadCtx} {n : Nat} {c : Block}
    (hnext : c.next = none) (hcand : x.cand < c.slots) :
    burst i cmd (n + 2) (c.goto i (.load .p2 x .builder)) =
      burst i cmd n
        ((c.withFlagByte x.cand (c.byteAt (flagAddr x.cand) ||| 0x01)).goto i (.load .p4 x .builder)) := by
  have h2 : loadStep i cmd .p2 x .builder (c.goto i (.load .p2 x .builder)) =
      .ok (c.goto i (.load .p3 x .builder)) := by
    simp [loadStep, hnext]
  have h3 : loadStep i cmd .p3 x .builder (c.goto i (.load .p3 x .builder)) =
      .ok ((c.withFlagByte x.cand (c.byteAt (flagAddr x.cand) ||| 0x01)).goto i (.load .p4 x .builder)) := by
    rw [loadStep, setInvalid_ok (c := c.goto i _) hcand, thenGoto]
    rfl
  rw [burst_load rfl h2 rfl, burst_load rfl h3 rfl]

/-! ### The slot after a load -/

/-- From `c` to `d` slot `j` has received the published frame of packet `q`; every other byte and length field is as
before. -/
structure Block.SlotLoaded (c : Block) (j : Nat) (q : List Byte) (d : Block) : Prop where
  frame : d.slotFrame j = publishedFrame q
  bytes : ∀ a, ¬inSlot j a → d.byteAt a = c.byteAt a
  counts : ∀ m, m ≠ j → d.table.bitCounts.getD m 0 = c.table.bitCounts.getD m 0

theorem Block.SlotRamKept.slotFrame_eq {c c' : Block} (h : c.SlotRamKept c') (j : Nat) :
    c'.slotFrame j = c.slotFrame j := by
  rw [Block.slotFrame, h.mem, h.bitCounts, Block.slotFrame]

theorem Block.SlotRamKept.byteAt_eq {c c' : Block} (h : c.SlotRamKept c') (a : Nat) : c'.byteAt a = c.byteAt a := by
  rw [Block.byteAt, h.mem, Block.byteAt]

/-- A later move that leaves the slot RAM alone. -/
theorem Block.SlotLoaded.of_kept {c d e : Block} {j : Nat} {q : List Byte} (h : c.SlotLoaded j q d)
    (hkept : d.SlotRamKept e) : c.SlotLoaded j q e where
  frame := (hkept.slotFrame_eq j).trans h.frame
  bytes a ha := (hkept.byteAt_eq a).trans (h.bytes a ha)
  counts m hm := by rw [hkept.bitCounts, h.counts m hm]

theorem not_inSlot_flagAddr {j p : Nat} (h : p ≠ j) : ¬inSlot j (flagAddr p) := by
  unfold inSlot flagAddr slotAddr
  omega

theorem flagAddr_ne_of_not_inSlot {j a : Nat} (h : ¬inSlot j a) : flagAddr j ≠ a := by
  rintro rfl
  unfold inSlot flagAddr slotAddr at h
  omega

/-- Publishing a slot clears the flag in its frame (40_encoder.md R99). -/
theorem slotFrame_published (c : Block) (j : Nat) (rep : Byte) :
    (c.published j rep).slotFrame j = { c.slotFrame j with buf := (c.slotFrame j).buf.modify 6 (· &&& 0xFE) } :=
  slotFrame_withFlagByte c j (· &&& 0xFE)

theorem byteAt_published_other (c : Block) {j a : Nat} (rep : Byte) (h : ¬inSlot j a) :
    (c.published j rep).byteAt a = c.byteAt a :=
  get_set_other _ _ (flagAddr_ne_of_not_inSlot h)

/-- The encoder call and the publish section of a load, one after the other: `m` is the slot RAM from which the load
began, which may differ from that of `c` in the slot itself (40_encoder.md R97, R99). -/
theorem slotLoaded_published {c : Block} {bytes : List Byte} {m : Memory} {r : Option Nat} {j : Nat} (rep : Byte)
    (hshape : c.ShapeOk) (h5 : bytes.length ≤ 5) (hj : j < c.slots)
    (hm : ∀ a, ¬inSlot j a → m.get a = c.byteAt a) :
    c.SlotLoaded j (bytes ++ [checksum bytes])
      (((((c.withMem m).withPayload bytes).withRecycle r).encoded j).published j rep) := by
  have hshape' : (c.withMem m).ShapeOk := hshape
  obtain ⟨hframe, hbytes, hcounts, -⟩ := encodedLoad_effect (r := r) (cand := j) hshape' h5 hj rfl
  refine ⟨?_, fun a ha => ?_, hcounts⟩
  · rw [slotFrame_published, hframe]
    rfl
  · rw [byteAt_published_other _ rep ha, hbytes a ha]
    exact hm a ha

/-- The mapping of a user slot, before or after the publish section, is no part of the slot RAM. -/
theorem published_withMapped_slotRamKept (c : Block) (user j i : Nat) (rep : Byte) :
    (c.published j rep).SlotRamKept ((c.withMapped user i).published j rep) :=
  ⟨rfl, rfl⟩

/-- P7 writes the flag byte of the slot it retires, and nothing else (R110). -/
theorem byteAt_retired_other {c : Block} {x : LoadCtx} {a : Nat} (h : ∀ p, x.retires = some p → a ≠ flagAddr p) :
    (c.withMem (c.retiredMem x)).byteAt a = c.byteAt a := by
  cases hx : x.retires with
  | none => rw [retiredMem_none hx]
  | some p => rw [retiredMem_some hx, byteAt_withFlagByte, if_neg (h p hx).symm]

theorem slotFrame_retired_other {c : Block} {x : LoadCtx} {j : Nat} (h : ∀ p, x.retires = some p → p ≠ j) :
    (c.withMem (c.retiredMem x)).slotFrame j = c.slotFrame j := by
  cases hx : x.retires with
  | none => rw [retiredMem_none hx]
  | some p => rw [retiredMem_some hx, slotFrame_withFlagByte_other _ _ (h p hx)]

theorem Block.PoolBounds.withRecycle {c : Block} (h : c.PoolBounds) (r : Option Nat) :
    (c.withRecycle r).PoolBounds :=
  ⟨h.map_length, h.maxLoaded_le, h.next_le, h.n_pos⟩

/-- The slot that a load retires is one of the pool and not the one it fills (R119). -/
theorem retires_ne_cand {x : LoadCtx} {c : Block} {p : Nat} (hbounds : c.PoolBounds) (h : loadPending x c)
    (hp : x.retires = some p) : p < c.slots ∧ p ≠ x.cand := by
  obtain ⟨⟨h1, hn, -, hcand, -, hrecycle⟩, -, hpool⟩ := h
  have ⟨hin, hprev⟩ := retires_eq_some.mp hp
  rw [hin, if_neg Bool.false_ne_true, hprev] at hrecycle
  rw [hrecycle] at hpool
  have hi : x.user - 1 < c.table.map.length := by
    rw [hbounds.map_length]
    omega
  refine ⟨?_, ?_⟩
  · obtain ⟨-, hle⟩ := (hpool.mem_iff p).mp (.inr rfl)
    have hmax := hbounds.maxLoaded_le
    unfold Block.slots
    omega
  · rintro rfl
    exact hpool.recycled_not_mapped (List.mem_set hi _)

/-! ### A block at the end of a load -/

/-- The payload register once packet `q` of a payload stands in it (40_encoder.md R96). -/
def packetRegister (bytes : List Byte) (c : Block) : Payload :=
  ⟨bytes ++ [checksum bytes] ++ c.payload.p.drop (bytes ++ [checksum bytes]).length, bytes.length⟩

theorem untouched_loadDone (c : Block) (x : LoadCtx) (table : SlotTable) (payload : Payload) (out : List Event) :
    untouched out c (c.loadDone x table payload out) :=
  ⟨rfl, rfl, rfl, rfl, rfl, rfl, rfl, rfl⟩

/-- The record of a load is its packet (41_slot_table_loader.md R113). -/
theorem lastLoad_loadDone (c : Block) (x : LoadCtx) (table : SlotTable) (bytes : List Byte) (out : List Event) :
    (c.loadDone x table (packetRegister bytes c) out).lastLoad =
      ⟨true, x.user, (bytes ++ [checksum bytes]).length, bytes ++ [checksum bytes], x.rep⟩ := by
  have hlen : (packetRegister bytes c).k + 1 = (bytes ++ [checksum bytes]).length := by
    simp [packetRegister]
  rw [Block.loadDone, hlen, packetRegister, List.take_left' rfl]

/-- A block that ends a load with the slot table of `d` has done a one-shot load if `d` is `c` with slot 0 loaded. -/
theorem oneShotLoaded_loadDone {c d : Block} {bytes : List Byte} {rep : Byte} {out : List Event}
    (hloaded : c.SlotLoaded 0 (bytes ++ [checksum bytes]) d) (hmap : d.table.map = c.table.map)
    (hrecycle : d.table.recycleReg = c.table.recycleReg) (hmax : d.table.maxLoaded = c.table.maxLoaded) :
    oneShotLoaded bytes rep c
      (c.loadDone ⟨0, rep, false, none, 0, false⟩ d.table (packetRegister bytes c) out) := by
  obtain ⟨hframe, hbytes, hcounts⟩ := hloaded
  exact ⟨rfl, hframe, hbytes, hcounts, hmap, hrecycle, hmax, rfl, rfl, rfl, rfl, lastLoad_loadDone c _ _ bytes out⟩

/-- A block that ends a load with the slot table of `d` settled has done a persistent load if `d` is `c` with the chosen
slot loaded and mapped. -/
theorem persistentLoaded_loadDone {c d : Block} {x : LoadCtx} {r : Option Nat} {bytes : List Byte} {out : List Event}
    (hloaded : c.SlotLoaded x.cand (bytes ++ [checksum bytes]) d)
    (hretires : ∀ p, x.retires = some p → p ≠ x.cand)
    (hmap : d.table.map = c.table.map.set (x.user - 1) (some x.cand)) (hrecycle : d.table.recycleReg = r)
    (hmax : d.table.maxLoaded = c.table.maxLoaded) :
    persistentLoaded bytes x r c (c.loadDone x (d.settledTable x) (packetRegister bytes c) out) := by
  obtain ⟨hframe, hbytes, hcounts⟩ := hloaded
  have hkept : (d.withMem (d.retiredMem x)).SlotRamKept
      (c.loadDone x (d.settledTable x) (packetRegister bytes c) out) := ⟨rfl, rfl⟩
  refine ⟨rfl, ?_, fun p hin hprev => ?_, fun a ha hp => ?_, hcounts, hmap, hrecycle, congrArg (max · x.cand) hmax,
    rfl, rfl, rfl, rfl, lastLoad_loadDone c x _ bytes out⟩
  · rw [hkept.slotFrame_eq, slotFrame_retired_other hretires, hframe]
  · have hx := retires_eq_some.mpr ⟨hin, hprev⟩
    rw [hkept.byteAt_eq, retiredMem_some hx, byteAt_withFlagByte, if_pos rfl,
      hbytes _ (not_inSlot_flagAddr (hretires p hx))]
  · have hother : ∀ p, x.retires = some p → a ≠ flagAddr p := fun p hx =>
      have ⟨hin, hprev⟩ := retires_eq_some.mp hx
      hp p hin hprev
    rw [hkept.byteAt_eq, byteAt_retired_other hother, hbytes a ha]

/-! ### A builder from end to end -/

/-- A burst from Idle is the command's start and what the rest of the burst makes of it. -/
theorem exec_of_start {i : Instr} {s : State} {c d : Block} (hg : s.grain = .burst) (hs : s.cur.seq = .idle)
    (hstart : (commandOf i).start s.cur = .ok d) (hrunning : paused d = false)
    (hburst : ∀ n, burst i (commandOf i) (n + 8) d = .ok c) : exec i s = .next (s.setCur c) := by
  have hfirst : microStep i (commandOf i) s.cur = .ok d := by rwa [microStep, hs]
  have hlength : burstLength s.cur = s.cur.params.ackBaseCount + 55 + 8 + 1 := Nat.add_comm 64 _
  refine exec_of_foreground (by simp [busyWithOther, hs]) ?_
  rw [hg, foreground, hlength, burst_goes_on hfirst hrunning]
  exact hburst _

/-- A builder at a ready block whose start begins a load of slot 0, and which answers nothing: it runs to its end
(42_command_builders.md R124). -/
theorem runsOneShot_of_start {i : Instr} {s : State} {bytes : List Byte} {rep : Byte} (hready : s.readyForBuilder)
    (h2 : 2 ≤ bytes.length) (h5 : bytes.length ≤ 5)
    (hstart : (commandOf i).start s.cur = beginLoad i 0 bytes rep .builder s.cur)
    (hreply : ∀ d, (commandOf i).reply d = .ok (d.over [.ended .ok])) : runsOneShot i bytes rep s := by
  obtain ⟨hg, hs, hnext, hshape, -⟩ := hready
  obtain ⟨hp, -⟩ := hshape.fits
  have hpayload : (appendChecksum (s.cur.withPayload bytes)).payload = packetRegister bytes s.cur :=
    appendChecksum_withPayload (by omega)
  have hbegun : s.cur.withPayload bytes =
      ((s.cur.withMem s.cur.table.mem).withPayload bytes).withRecycle s.cur.table.recycleReg := by
    rw [withMem_self]
    exact (withRecycle_self _).symm
  have hburst (n : Nat) := burst_oneShot (i := i) (x := ⟨0, rep, false, none, 0, false⟩) (n := n + 4)
    (c := s.cur.withPayload bytes) hnext rfl rfl hreply
  simp only [hpayload, loadDone_withPayload] at hburst
  rw [hbegun] at hburst
  refine ⟨_, exec_of_start hg hs (hstart.trans (beginLoad_oneShot h2 h5)) (congrArg Option.isSome hnext) hburst,
    oneShotLoaded_loadDone ?_ ?_ ?_ ?_, untouched_loadDone ..⟩
  · exact slotLoaded_published rep hshape h5 (Nat.succ_pos _) fun _ _ => rfl
  all_goals simp

/-- A persistent load from its first statement to its end, whether or not it is in place: `m` is the slot RAM from which
its packet is encoded, in which only the slot to be filled may have changed (41_slot_table_loader.md R110, R111). -/
theorem burst_userSlot {i : Instr} {cmd : Command} {x : LoadCtx} {r : Option Nat} {bytes : List Byte} {c : Block}
    {out : List Event} (hroom : bytes.length < c.payload.p.length) (hnext : c.next = none) (hprint : x.print = false)
    (hcand : x.cand < c.slots) (hretires : ∀ p, x.retires = some p → p < c.slots)
    (hreply : ∀ d, cmd.reply d = .ok (d.over out)) :
    ∃ m, (∀ a, ¬inSlot x.cand a → m.get a = c.byteAt a) ∧
      ∀ n,
        burst i cmd (n + 8)
            (((c.withPayload bytes).withRecycle r).goto i (.load (if x.inPlace then .p2 else .p4) x .builder)) =
          .ok (c.loadDone x (((((c.withMem m).withPayload bytes).withRecycle r).persisted x).settledTable x)
            (packetRegister bytes c) out) := by
  have hencoder (m : Memory) (n : Nat) := burst_persistent (i := i) (n := n)
    (c := ((c.withMem m).withPayload bytes).withRecycle r) hnext hprint hcand hretires hreply
  have hpayload (m : Memory) : (appendChecksum (((c.withMem m).withPayload bytes).withRecycle r)).payload =
      packetRegister bytes c :=
    appendChecksum_withPayload (c := c) hroom
  simp only [hpayload, loadDone_withRecycle, loadDone_withPayload, loadDone_withMem] at hencoder
  cases x.inPlace with
  | true =>
    exact ⟨c.table.mem.set (flagAddr x.cand) (c.byteAt (flagAddr x.cand) ||| 0x01),
      fun a ha => get_set_other _ _ (flagAddr_ne_of_not_inSlot ha),
      fun n => Eq.trans (burst_inPlace hnext hcand) (hencoder _ n)⟩
  | false => exact ⟨c.table.mem, fun _ _ => rfl, fun n => hencoder c.table.mem (n + 2)⟩

/-- A builder at a ready block whose start begins a load of a user slot, and which answers `out`: it runs to its end
(42_command_builders.md R124). -/
theorem runsPersistent_of_start {i : Instr} {s : State} {user : Nat} {bytes : List Byte} {out : List Event}
    (hready : s.readyForBuilder) (h1 : 1 ≤ user) (hn : user ≤ s.cur.params.n) (h2 : 2 ≤ bytes.length)
    (h5 : bytes.length ≤ 5) (hstart : (commandOf i).start s.cur = beginLoad i user bytes 0 .builder s.cur)
    (hreply : ∀ d, (commandOf i).reply d = .ok (d.over out)) : runsPersistent i user bytes out s := by
  obtain ⟨hg, hs, hnext, hshape, hpool⟩ := hready
  obtain ⟨hp, -⟩ := hshape.fits
  have hsettled := hpool.settled (outsideLoad_of_idle hs).betweenLoads
  obtain ⟨x, r, hx, hchoice, hcand⟩ := exists_slotChoice 0 hpool.bounds hsettled h1 hn
  have ⟨_, _, hprint, _⟩ := hchoice
  have hpending := chooseSlot_loadPending hpool.bounds hsettled h1 hn hx
  have hretires (p : Nat) (hp : x.retires = some p) :=
    retires_ne_cand (c := s.cur.withRecycle r) (hpool.bounds.withRecycle r) hpending hp
  have hroom : bytes.length < s.cur.payload.p.length := by omega
  obtain ⟨m, hm, hburst⟩ := burst_userSlot (i := i) (r := r) hroom hnext hprint hcand
    (fun p hp => (hretires p hp).1) hreply
  have hloaded := slotLoaded_published (r := r) x.rep hshape h5 hcand hm
  have hrunning : paused (((s.cur.withPayload bytes).withRecycle r).goto i
      (.load (if x.inPlace then .p2 else .p4) x .builder)) = false := by
    cases x.inPlace with
    | true => exact congrArg Option.isSome hnext
    | false => rfl
  refine ⟨x, r, _, hchoice,
    exec_of_start hg hs (hstart.trans (beginLoad_persistent h2 h5 h1 hn hx)) hrunning hburst,
    persistentLoaded_loadDone ?_ (fun p hp => (hretires p hp).2) ?_ ?_ ?_, untouched_loadDone ..⟩
  · exact hloaded.of_kept (published_withMapped_slotRamKept _ _ _ _ _)
  all_goals simp

end Sys2Proof.Machine
end

section
/-! The command builders run to their end: each one's checks admit its operands, and what it loads is its payload
(42_command_builders.md R126 to R132). -/

namespace Sys2Proof.Machine

/-! ### Operands -/

/-- An operand in a range of numbers from 0 reads the same without its sign. -/
theorem toNat_le_of_not_outside {x : Word} {n : Nat} (h : ¬outside x 0 n) : x.toNat ≤ n := by
  unfold outside at h
  have hsigned : x.toInt = x.toNat := by
    have hsign := x.toInt_neg_iff
    exact BitVec.toInt_eq_toNat_of_lt (by omega)
  omega

/-- A bit, turned round where the polarity is reversed (R129). -/
theorem accessoryAct_eq {activate : Word} (h : activate.toNat ≤ 1) (reversed : Bool) :
    accessoryAct activate reversed = if reversed then 1 - activate.toNat else activate.toNat := by
  unfold accessoryAct
  cases reversed with
  | false => exact Nat.xor_zero _
  | true => interval_cases activate.toNat <;> rfl

/-- A cab address with one to three bytes behind it is a payload that fits a slot (30_encoding.md R85). -/
theorem length_cabBytes_append (cab : Nat) {bytes : List Byte} (h1 : 1 ≤ bytes.length) (h3 : bytes.length ≤ 3) :
    2 ≤ (cabBytes cab ++ bytes).length ∧ (cabBytes cab ++ bytes).length ≤ 5 := by
  have hcab := cabBytes_length cab
  rw [List.length_append]
  omega

/-! ### One-shot builders -/

/-- A one-shot builder whose checks admit its operands begins a load of slot 0 with `nRepeat` 4 (R127 to R131). -/
theorem startOneShot_admitted {op : Instr} {admitted : Bool} {payload : List Byte} {c : Block}
    (h : admitted = true) : startOneShot op admitted payload c = beginLoad op 0 payload 4 .builder c :=
  if_pos h

/-- Settles O32: each is a one-shot builder, its payload a cab address and one or two function bytes. -/
theorem functionsComplete : Obligations.FunctionsComplete := by
  intro s cab fByte eByte hready hcab hf
  have hadmitted : (cabOk cab && byteOk fByte) = true :=
    Bool.and_eq_true_iff.mpr ⟨inRange_of_not_outside hcab, inRange_of_not_outside hf⟩
  refine ⟨?_, fun he => ?_⟩
  · obtain ⟨h2, h5⟩ := length_cabBytes_append cab.toNat (bytes := [fShort (operandByte fByte)]) (by simp) (by simp)
    exact runsOneShot_of_start hready h2 h5 (startOneShot_admitted hadmitted) fun _ => rfl
  · obtain ⟨h2, h5⟩ := length_cabBytes_append cab.toNat (bytes := [fLong (operandByte fByte), operandByte eByte])
      (by simp) (by simp)
    have hadmitted' := Bool.and_eq_true_iff.mpr ⟨hadmitted, inRange_of_not_outside he⟩
    exact runsOneShot_of_start hready h2 h5 (startOneShot_admitted hadmitted') fun _ => rfl

/-- Settles O33: a one-shot builder of two bytes, the second from the bit that the polarity gives. -/
theorem accessoryCompletes : Obligations.AccessoryCompletes := by
  intro s addr port activate hready haddr hport hact
  have hadmitted : (inRange addr 0 511 && inRange port 0 3 && inRange activate 0 1) = true := by
    simp only [inRange_of_not_outside haddr, inRange_of_not_outside hport, inRange_of_not_outside hact, Bool.and_self]
  rw [← accessoryAct_eq (toNat_le_of_not_outside hact)]
  exact runsOneShot_of_start hready (le_refl 2) (by decide : 2 ≤ 5) (startOneShot_admitted hadmitted) fun _ => rfl

/-- Settles O34: each is a one-shot builder, its payload a cab address and three bytes; the bit operation's checks name
neither `bit` nor `value`. -/
theorem mainCvWritesComplete : Obligations.MainCvWritesComplete := by
  intro s cab cv bit value hready hcab hcv
  have hadmitted : (cabOk cab && cvOk cv) = true :=
    Bool.and_eq_true_iff.mpr ⟨inRange_of_not_outside hcab, inRange_of_not_outside hcv⟩
  refine ⟨fun hvalue => ?_, ?_⟩
  · obtain ⟨h2, h5⟩ := length_cabBytes_append cab.toNat (bytes := [0xEC + cvHi cv, cvLo cv, u8 value.toNat])
      (by simp) (by simp)
    have hadmitted' := Bool.and_eq_true_iff.mpr ⟨hadmitted, inRange_of_not_outside hvalue⟩
    exact runsOneShot_of_start hready h2 h5 (startOneShot_admitted hadmitted') fun _ => rfl
  · rw [BitVec.or_assoc]
    obtain ⟨h2, h5⟩ := length_cabBytes_append cab.toNat
      (bytes := [0xE8 + cvHi cv, cvLo cv, 0xF0 ||| bitPattern (clamp 0 1 value).toNat (clamp 0 7 bit).toNat])
      (by simp) (by simp)
    exact runsOneShot_of_start hready h2 h5 (startOneShot_admitted hadmitted) fun _ => rfl

/-! ### Builders with a user slot -/

/-- Settles O31: THROTTLE loads its user slot and reports the speed it was given, clamped. -/
theorem throttleCompletes : Obligations.ThrottleCompletes := by
  intro s slot cab speed dir hready hslot hcab hdir
  obtain ⟨h1, hn⟩ := toNat_of_not_outside hslot
  obtain ⟨h3, h4⟩ := length_throttlePayload cab.toNat speed.toInt dir.toNat
  have hadmitted : (inRange slot 1 s.cur.params.n && cabOk cab && inRange dir 0 1) = true := by
    simp only [cabOk, inRange_of_not_outside hslot, inRange_of_not_outside hcab, inRange_of_not_outside hdir,
      Bool.and_self]
  refine runsPersistent_of_start hready h1 hn (by omega) (by omega) (if_pos hadmitted) fun d => ?_
  exact congrArg Except.ok (emit_endCommand_eq_over d _ .ok)

/-- RAW_PACKET with a slot and two to five bytes, all in range, begins a load of them (R132). -/
theorem start_rawPacket {slot : Word} {bytes : List Word} {c : Block} (h2 : 2 ≤ bytes.length) (h5 : bytes.length ≤ 5)
    (hbytes : ∀ b ∈ bytes, ¬outside b 0 255) (hslot : ¬outside slot 0 c.params.n) :
    let i := Instr.rawPacket (BitVec.ofNat 4 (bytes.length + 1)) (slot :: bytes)
    (commandOf i).start c = beginLoad i slot.toNat (bytes.map fun b => u8 b.toNat) 0 .builder c := by
  intro i
  have hargc : (BitVec.ofNat 4 (bytes.length + 1)).toNat = bytes.length + 1 := by
    rw [BitVec.toNat_ofNat]
    omega
  have hcount : ¬((BitVec.ofNat 4 (bytes.length + 1)).toNat < 3 ∨ 6 < (BitVec.ofNat 4 (bytes.length + 1)).toNat) := by
    omega
  have hall : bytes.all byteOk = true := List.all_eq_true.mpr fun b hb => inRange_of_not_outside (hbytes b hb)
  have hin : inRange slot 0 c.params.n = true := inRange_of_not_outside hslot
  show startRawPacket _ (slot :: bytes) c = _
  simp only [startRawPacket, if_neg hcount, List.tail_cons, List.headD_cons, hall, hin, Bool.not_true,
    Bool.false_eq_true, if_false]
  rfl

/-- Settles O35: slot 0 takes the packet as a one-shot, any other slot as a persistent load. -/
theorem rawPacketCompletes : Obligations.RawPacketCompletes := by
  intro s slot bytes hready h2 h5 hbytes hslot i payload
  have hstart := start_rawPacket h2 h5 hbytes hslot
  have hlen : payload.length = bytes.length := List.length_map _
  have hreply (d : Block) : (commandOf i).reply d = .ok (d.over [.ended .ok]) := rfl
  refine ⟨?_, fun hne => ?_⟩
  · rintro rfl
    exact runsOneShot_of_start hready (hlen ▸ h2) (hlen ▸ h5) hstart hreply
  · have h1 : 1 ≤ slot.toNat := Nat.pos_of_ne_zero fun h => hne (BitVec.eq_of_toNat_eq h)
    exact runsPersistent_of_start hready h1 (toNat_le_of_not_outside hslot) (hlen ▸ h2) (hlen ▸ h5) hstart hreply

end Sys2Proof.Machine
end

section
/-! The ack detector, statement by statement: what one sample does to its registers, and where AK0 to AK7 go on
(43_ack_detector.md R137 to R143). -/

namespace Sys2Proof.Machine

/-! ### One sample -/

/-- The deflection is the current above the base current, and 0 below it (R140). -/
theorem deflection_eq_sub (cur base : Nat) : deflection cur base = cur - base := by
  unfold deflection
  omega

theorem dwellOk_iff {up down : Word} :
    dwellOk up down = true ↔ 1125 ≤ (down - up).toNat ∧ (down - up).toNat ≤ 2125 :=
  Bool.and_eq_true_iff.trans (and_congr decide_eq_true_iff decide_eq_true_iff)

/-- While it waits for a pulse, the detector notes the tick of a sample above the threshold (R137). -/
theorem judgeSample_seekRise {a : AckRegs} (q : Params) (cur : Nat) (tick : Word) (h : a.ackState = .seekRise) :
    judgeSample q a cur tick =
      if q.ackSampleThreshold < cur - a.ackBase then { a with ackState := .seekFall, upTick := tick } else a := by
  simp only [judgeSample, h, deflection_eq_sub]

/-- In a pulse, the detector notes the tick of a sample below the threshold, and judges the pulse by its length
(R137, R143). -/
theorem judgeSample_seekFall {a : AckRegs} (q : Params) (cur : Nat) (tick : Word) (h : a.ackState = .seekFall) :
    judgeSample q a cur tick =
      if cur - a.ackBase < q.ackSampleThreshold then
        { a with ackState := if dwellOk a.upTick tick then .confirmed else .seekRise, downTick := tick }
      else a := by
  simp only [judgeSample, h, deflection_eq_sub]

/-- Settles O42: each outcome is one branch of what a sample does in the state the detector is in. -/
theorem ackJudgement : Obligations.AckJudgement := by
  intro q a cur tick c pulse
  refine ⟨fun hrise habove => ?_, fun hrise hle => ?_, fun hfall hge => ?_, fun hfall hbelow hmin hmax => ?_,
    fun hfall hbelow hlength => ?_⟩
  · rw [judgeSample_seekRise q cur tick hrise, if_pos habove]
  · rw [judgeSample_seekRise q cur tick hrise, if_neg (Nat.not_lt.mpr hle)]
  · rw [judgeSample_seekFall q cur tick hfall, if_neg (Nat.not_lt.mpr hge)]
  · rw [judgeSample_seekFall q cur tick hfall, if_pos hbelow, if_pos (dwellOk_iff.mpr ⟨hmin, hmax⟩)]
  · have hshort : ¬dwellOk a.upTick tick = true := by
      rw [dwellOk_iff]
      omega
    rw [judgeSample_seekFall q cur tick hfall, if_pos hbelow, if_neg hshort]

/-! ### The two draws -/

theorem drawCurrent_of_drawnCurrent {c : Block} {v : Nat} {io : Io} (h : drawnCurrent c v io) :
    drawCurrent c = (v, { c with io := io }) := by
  obtain ⟨hlisted, hfree⟩ := h
  cases hc : c.io.currents with
  | cons w ws =>
    obtain ⟨rfl, rfl⟩ := hlisted w ws hc
    exact drawCurrent_listed hc
  | nil =>
    obtain ⟨rfl, rfl⟩ := hfree hc
    exact drawCurrent_free hc

theorem drawTick_of_drawnTick {c : Block} {v : Word} {io : Io} (h : drawnTick c.params.channel c.io v io) :
    drawTick c = (v, { c with io := io }) := by
  obtain ⟨hlisted, hfree⟩ := h
  cases hc : c.io.ticks with
  | cons w ws =>
    obtain ⟨rfl, rfl⟩ := hlisted w ws hc
    exact drawTick_listed hc
  | nil =>
    obtain ⟨rfl, rfl⟩ := hfree hc
    exact drawTick_free hc

/-- AK2 goes on to AK3 with the current and the tick drawn (R137). -/
theorem takeSample_of_drawn {op : Instr} {l : Leg} {c : Block} {v : Nat} {tick : Word} {io io' : Io}
    (hcurrent : drawnCurrent c v io) (htick : drawnTick c.params.channel io tick io') :
    takeSample op l c = { c with seq := .run op (.ak3 l v tick), io := { io' with sampled := true } } := by
  have htick' : drawTick { c with io := io } = (tick, { c with io := io' }) := drawTick_of_drawnTick htick
  simp only [takeSample, drawCurrent_of_drawnCurrent hcurrent, htick']
  rfl

/-! ### The statements of the detector -/

/-- AK1 leaves the loop exactly when it is still looking and nine packets have passed (R137, R138). -/
theorem ackTimedOut_iff {c : Block} :
    ackTimedOut c = true ↔ (c.ack.ackState = .seekRise ∨ c.ack.ackState = .seekFall) ∧
      9 ≤ (c.engine.packetsTransmitted - c.ack.armedAt).toNat := by
  rw [ackTimedOut, Bool.and_eq_true, Bool.or_eq_true, beq_iff_eq, beq_iff_eq, decide_eq_true_iff]
  rfl

/-- A load begun for the detector, or by it, hands over to the detector's next statement (R137). -/
theorem returnFromLoad_toDetector {op : Instr} {cmd : Command} {ret : LoadRet} {l : Leg} {pos : Pos} (c : Block)
    (h : (ret = .leg l ∧ l ≠ .burst ∧ pos = .ak0 l) ∨ (ret = .ackTimeout l ∧ pos = .ak1b l) ∨
      (ret = .ackConfirm l ∧ pos = .ak6 l)) :
    returnFromLoad op cmd ret c = .ok (c.goto op pos) := by
  rcases h with ⟨rfl, hl, rfl⟩ | ⟨rfl, rfl⟩ | ⟨rfl, rfl⟩
  · cases l with
    | burst => exact absurd rfl hl
    | probe | verify | write | fallback => rfl
  all_goals rfl

theorem betweenLoads_of_pos {c : Block} {op : Instr} {pos : Pos} (hs : c.seq = .run op pos)
    (hpos : ∀ lp x ret, pos ≠ .load lp x ret) : c.BetweenLoads :=
  Block.OutsideLoad.betweenLoads fun o lp x ret => by simp [hs, hpos lp x ret]

/-- A step that begins a load of user slot 1 between two loads finds a slot for it (41_slot_table_loader.md R119). -/
theorem loadsUserSlot1_of_stepAt {i : Instr} {s : State} {d : Block} {pos : Pos} {bytes : List Byte} {ret : LoadRet}
    (hg : s.grain = .micro) (hs : s.cur.seq = .run i pos) (hpool : s.cur.PoolOk) (hb : s.cur.BetweenLoads)
    (hkept : s.cur.LoaderKept d) (h2 : 2 ≤ bytes.length) (h5 : bytes.length ≤ 5)
    (hstep : stepAt i (commandOf i) pos s.cur = beginLoad i 1 bytes 0 ret d) : loadsUserSlot1 i bytes ret d s := by
  have hbounds : d.PoolBounds := hpool.bounds.of_kept hkept.poolKept (hkept.next ▸ hpool.bounds.next_le)
  have hsettled : d.PoolSettled := hkept.poolKept.settled.mpr (hpool.settled hb)
  obtain ⟨x, r, hx, hchoice, -⟩ := exists_slotChoice 0 hbounds hsettled le_rfl hbounds.n_pos
  exact ⟨x, r, hchoice, exec_of_stepAt hg hs (hstep.trans (beginLoad_persistent h2 h5 le_rfl hbounds.n_pos hx))⟩

/-- AK3 confirms a pulse by putting the reset packet back, and otherwise goes on looking (R137). -/
theorem judge_eq (op : Instr) (l : Leg) (v : Nat) (tick : Word) (c : Block) :
    judge op l v tick c =
      if (judgeSample c.params c.ack v tick).ackState = .confirmed then
        beginLoad op 1 resetPayload 0 (.ackConfirm l) { c with ack := judgeSample c.params c.ack v tick }
      else .ok { c with seq := .run op (.ak1 l), ack := judgeSample c.params c.ack v tick } := rfl

/-- Settles O43: one micro-step at each of the detector's statements. -/
theorem ackWindowAndLinger : Obligations.AckWindowAndLinger := by
  intro s i l hg _
  refine ⟨?loadOver, ?ak0, ?ak1, ?ak1Timeout, ?ak2, ?ak3, ?ak6, ?ak7Holds, ?ak7⟩
  case loadOver =>
    intro x ret pos hprint hs hret
    refine exec_of_stepAt hg hs ?_
    rw [stepAt, loadStep, recordLastLoad_silent hprint, returnFromLoad_toDetector _ hret]
    rfl
  case ak0 => exact fun hs => exec_of_stepAt hg hs rfl
  case ak1 =>
    intro hs hlt
    have hgoes : ¬ackTimedOut s.cur = true := by
      rw [ackTimedOut_iff]
      omega
    exact exec_of_stepAt hg hs (if_neg hgoes)
  case ak1Timeout =>
    intro hs hseek hge hpool
    exact loadsUserSlot1_of_stepAt hg hs hpool (betweenLoads_of_pos hs nofun) ⟨rfl, rfl, rfl, rfl⟩ le_rfl
      (by decide) (if_pos (ackTimedOut_iff.mpr ⟨hseek, hge⟩))
  case ak2 =>
    exact fun v tick io io' hs hcurrent htick =>
      exec_of_stepAt hg hs (congrArg Except.ok (takeSample_of_drawn hcurrent htick))
  case ak3 =>
    intro v tick hs a
    refine ⟨fun hgoes => exec_of_stepAt hg hs ((judge_eq ..).trans (if_neg hgoes)), fun hconfirmed hpool => ?_⟩
    exact loadsUserSlot1_of_stepAt hg hs hpool (betweenLoads_of_pos hs nofun) ⟨rfl, rfl, rfl, rfl⟩ le_rfl
      (by decide) ((judge_eq ..).trans (if_pos hconfirmed))
  case ak6 => exact fun hs => exec_of_stepAt hg hs rfl
  case ak7Holds =>
    intro hs hlt
    have hholds : exec i s = .next (s.setCur s.cur) := exec_of_stepAt hg hs (congrArg Except.ok (if_pos hlt))
    rwa [setCur_self] at hholds
  case ak7 =>
    intro hs hge
    exact exec_of_stepAt hg hs (congrArg Except.ok (if_neg (Nat.not_lt.mpr hge)))

end Sys2Proof.Machine
end

section
/-! A packet-count wait: while context A takes no step, each packet completion counts one packet
(44_service_mode.md R148; 60_exceptions.md R169, R170). -/

namespace Sys2Proof.Machine

/-- Every slot that a packet completion may copy exists: those below the watermark and the one handed off. -/
structure Block.SlotsExist (c : Block) : Prop where
  maxLoaded_le : c.table.maxLoaded ≤ c.params.n
  next_le : ∀ j, c.next = some j → j ≤ c.params.n

theorem Block.SlotsExist.of_undisturbed {c c' : Block} (h : c.SlotsExist) (hu : c.Undisturbed c') :
    c'.SlotsExist where
  maxLoaded_le := by rw [hu.table, hu.params]; exact h.maxLoaded_le
  next_le j hj := by
    rw [hu.params]
    rcases hu.next with hkept | hnone
    · exact h.next_le j (hkept.symm.trans hj)
    · exact absurd (hnone.symm.trans hj) nofun

/-- A rotation among slots that exist finds a frame to send (R173, R174). -/
theorem rotate_ok {c : Block} (h : c.table.maxLoaded ≤ c.params.n) : ∃ c', rotate c = .ok c' := by
  have hslots : ∀ i ∈ rotationOrder c, i < c.slots := fun i hi =>
    Nat.lt_succ_of_le ((mem_rotationOrder hi).2.trans h)
  rw [rotate, findValid_ok hslots]
  cases hfind : (rotationOrder c).find? fun i => !c.invalid i with
  | none => exact ⟨_, rfl⟩
  | some j =>
    simp only [readSlot_ok (hslots j (List.mem_of_find?_eq_some hfind))]
    exact ⟨_, rfl⟩

/-- A packet completion of a block whose slots exist goes through: a repeat, an adoption or a rotation. -/
theorem engineStep_ok {c : Block} (h : c.SlotsExist) : ∃ c', engineStep c = .ok c' := by
  cases hrep : repeating c with
  | true => exact ⟨_, engineStep_of_repeating hrep⟩
  | false =>
    cases hnext : c.next with
    | some j => exact ⟨_, engineStep_of_handOff hrep hnext (Nat.lt_succ_of_le (h.next_le j hnext))⟩
    | none =>
      obtain ⟨d, hrotate⟩ : ∃ d, rotate (countPacket c) = .ok d := rotate_ok h.maxLoaded_le
      have hr : repeating (countPacket c) = false := hrep
      have hn : (countPacket c).next = none := hnext
      have hselect : selectFrame (countPacket c) = .ok d := by
        simp only [selectFrame, hr, hn, hrotate, if_neg Bool.false_ne_true]
      exact ⟨_, by rw [engineStep, hselect]⟩

/-- What packet completions leave of a waiting conversation: its registers, and a count `m` packets further. -/
structure Block.CountedPackets (m : Nat) (c c' : Block) : Prop where
  seq : c'.seq = c.seq
  svc : c'.svc = c.svc
  packets : c'.engine.packetsTransmitted = c.engine.packetsTransmitted + BitVec.ofNat 32 m

theorem engineStep_countedPackets {c c' : Block} (h : engineStep c = .ok c') : c.CountedPackets 1 c' := by
  rcases engineStep_cases h with ⟨-, rfl⟩ | ⟨-, j, -, -, rfl⟩ | ⟨-, -, j, -, -, -, rfl⟩ | ⟨-, -, -, rfl⟩
  all_goals exact ⟨rfl, rfl, rfl⟩

/-- A run of `m` packet completions counts `m` packets, modulo 2^32 (R170). -/
theorem engineSteps_countedPackets (m : Nat) {c : Block} (h : c.SlotsExist) :
    ∃ c', engineSteps m c = .ok c' ∧ c.CountedPackets m c' := by
  induction m generalizing c with
  | zero => exact ⟨c, rfl, rfl, rfl, (BitVec.add_zero _).symm⟩
  | succ m ih =>
    obtain ⟨d, hstep⟩ := engineStep_ok h
    obtain ⟨hseq, hsvc, hpackets⟩ := engineStep_countedPackets hstep
    obtain ⟨c', hsteps, hseq', hsvc', hpackets'⟩ := ih (h.of_undisturbed (engineStep_undisturbed hstep))
    refine ⟨c', ?_, hseq'.trans hseq, hsvc'.trans hsvc, ?_⟩
    · rw [engineSteps, hstep]
      exact hsteps
    · rw [hpackets', hpackets, BitVec.add_assoc, ← BitVec.ofNat_add, Nat.add_comm 1 m]

/-- The wait reads the number of packets that have passed since it began, up to the counter's wrap (00_scope.md R19). -/
theorem sinceWait_of_countedPackets {m : Nat} {c c' : Block} (h : c.CountedPackets m c') (hm : m < 2 ^ 32)
    (hwait : c.svc.waitStart = c.engine.packetsTransmitted) : sinceWait c' = m := by
  have hdiff : c'.engine.packetsTransmitted - c'.svc.waitStart = BitVec.ofNat 32 m := by
    rw [h.svc, hwait, h.packets, BitVec.add_comm, BitVec.add_sub_cancel]
  rw [sinceWait, hdiff, BitVec.toNat_ofNat, Nat.mod_eq_of_lt hm]

theorem holding_wp2 {c : Block} {op : Instr} {n : Nat} (hs : c.seq = .run op (.wp2 n)) :
    holding c = decide (sinceWait c < n) := by
  simp only [holding, hs]

theorem paused_wp2 {c : Block} {op : Instr} {n : Nat} (hs : c.seq = .run op (.wp2 n)) :
    paused c = decide (sinceWait c < n) := by
  simp only [paused, holding, hs]

/-- Settles O30: the wait compares its length with a count that goes up by one a packet. -/
theorem packetWaitEndsAfterExactlyN : Obligations.PacketWaitEndsAfterExactlyN := by
  intro c op n m hs hwait hn hm hmax hnext
  obtain ⟨c', hsteps, hcounted⟩ := engineSteps_countedPackets m ⟨hmax, hnext⟩
  refine ⟨c', hsteps, hcounted.seq, ?_⟩
  rw [holding_wp2 (hcounted.seq.trans hs), sinceWait_of_countedPackets hcounted (by omega) hwait]

end Sys2Proof.Machine
end

section
/-! What the three conversations share: the power-on preamble, the base measurement, the verdict of the ack detector,
and the end with its response (44_service_mode.md R146, R149 to R151). -/

namespace Sys2Proof.Machine

/-! ### A move that reaches a pause point at once -/

/-- A command whose first step reaches a pause point has made its whole move, whatever the grain. -/
theorem exec_pauses_at_once {i : Instr} {s : State} {c : Block} (hb : busyWithOther i s.cur = false)
    (hstep : microStep i (commandOf i) s.cur = .ok c) (hpaused : paused c = true) : exec i s = .next (s.setCur c) := by
  refine exec_of_foreground hb ?_
  cases s.grain with
  | micro => exact hstep
  | burst =>
    rw [foreground, burstLength, Nat.add_comm, Nat.add_succ]
    exact burst_stops hstep hpaused

theorem microStep_of_run {op : Instr} {cmd : Command} {c : Block} {pos : Pos} (hs : c.seq = .run op pos) :
    microStep op cmd c = stepAt op cmd pos c := by
  simp only [microStep, hs]

/-! ### The preamble -/

/-- A conversation's block at the first wait of its preamble, the operand registers copied (R149). -/
def Block.preambleBegun (c : Block) (op : Instr) (v : SvcRegs) : Block :=
  { c with
    seq := .run op (.wp2 (if c.outEnable then 3 else 20))
    outEnable := true
    svc := { v with restoreOff := !c.outEnable, waitStart := c.engine.packetsTransmitted } }

/-- PR1 to PR4: the output is on from here on, and what it was before says how long to wait and what to restore. -/
theorem powerPreamble_eq (op : Instr) (c : Block) : powerPreamble op c = c.preambleBegun op c.svc := by
  cases hout : c.outEnable <;>
    simp [powerPreamble, Block.preambleBegun, beginWait, Block.goto, hout, Config.pwrWaitCold, Config.pwrWaitWarm]

/-- A conversation on PROG with its operands in range copies them and begins its preamble (R146). -/
theorem startService_admitted {op : Instr} {admitted : Bool} {copy : SvcRegs → SvcRegs} {c : Block}
    (hchannel : c.params.channel = .prog) (hadmitted : admitted = true) :
    startService op admitted copy c = .ok (c.preambleBegun op (copy c.svc)) := by
  rw [startService, hadmitted, if_pos (by simp [hchannel]), powerPreamble_eq]
  rfl

/-- The wait of a preamble holds at its beginning, so a command that begins one has made its whole move. -/
theorem exec_begins_preamble {i : Instr} {s : State} {v : SvcRegs} (hs : s.cur.seq = .idle)
    (hstart : (commandOf i).start s.cur = .ok (s.cur.preambleBegun i v)) :
    exec i s = .next (s.setCur (s.cur.preambleBegun i v)) := by
  have hmicro : microStep i (commandOf i) s.cur = .ok (s.cur.preambleBegun i v) := by rwa [microStep, hs]
  refine exec_pauses_at_once (by simp [busyWithOther, hs]) hmicro ?_
  have hnone : sinceWait (s.cur.preambleBegun i v) = 0 := by
    simp [sinceWait, Block.preambleBegun]
  rw [paused_wp2 rfl, hnone]
  cases s.cur.outEnable <;> rfl

/-! ### The base measurement -/

/-- A base sample before the last is added up (R149). -/
theorem sampleBase_next {op : Instr} {cmd : Command} {taken sum v : Nat} {io : Io} {c : Block}
    (hdraw : drawCurrent c = (v, { c with io := io })) (hmore : taken + 1 < c.params.ackBaseCount) :
    sampleBase op cmd taken sum c = .ok { c with seq := .run op (.b2 (taken + 1) (sum + v)), io := io } := by
  rw [sampleBase, if_pos hmore, hdraw]
  rfl

/-- A block with its base current measured, `io` what the draws have left. -/
def Block.measured (c : Block) (base : Nat) (io : Io) : Block := { c with svc := { c.svc with base := base }, io := io }

/-- The last base sample gives the mean, and the conversation goes on with it (R149). -/
theorem sampleBase_last {op : Instr} {cmd : Command} {taken sum v : Nat} {io : Io} {c : Block}
    (hdraw : drawCurrent c = (v, { c with io := io })) (hlast : c.params.ackBaseCount ≤ taken + 1) :
    sampleBase op cmd taken sum c = cmd.based (c.measured ((sum + v) / c.params.ackBaseCount) io) := by
  rw [sampleBase, if_neg (Nat.not_lt.mpr hlast), hdraw]
  rfl

/-- A conversation that goes from its last base sample to a packet in user slot 1. -/
theorem loadsUserSlot1_of_based {i : Instr} {s : State} {d : Block} {taken sum v : Nat} {io : Io} {bytes : List Byte}
    {ret : LoadRet} (hg : s.grain = .micro) (hs : s.cur.seq = .run i (.b2 taken sum)) (hpool : s.cur.PoolOk)
    (hdrawn : drawnCurrent s.cur v io) (hlast : s.cur.params.ackBaseCount ≤ taken + 1)
    (hd : d = s.cur.measured ((sum + v) / s.cur.params.ackBaseCount) io) (hlen : bytes.length = 3)
    (hbased : (commandOf i).based d = beginLoad i 1 bytes 0 ret d) : loadsUserSlot1 i bytes ret d s := by
  subst hd
  have hb : s.cur.BetweenLoads := betweenLoads_of_pos hs fun _ _ _ h => nomatch h
  exact loadsUserSlot1_of_stepAt hg hs hpool hb ⟨rfl, rfl, rfl, rfl⟩ (by omega) (by omega)
    ((sampleBase_last (drawCurrent_of_drawnCurrent hdrawn) hlast).trans hbased)

/-- The readings that the probe gives for listed samples, each capped (60_exceptions.md R185). -/
def Block.readings (c : Block) (vs : List Nat) : List Nat := vs.map fun v => min v c.params.curMax

/-- Listed samples that leave the last one to come are added up one by one. -/
theorem microSteps_samples {op : Instr} {cmd : Command} {taken sum : Nat} {vs rest : List Nat} {c : Block} (m : Nat)
    (hs : c.seq = .run op (.b2 taken sum)) (hlisted : c.io.currents = vs ++ rest)
    (hmore : taken + vs.length < c.params.ackBaseCount) :
    microSteps op cmd (vs.length + m) c =
      microSteps op cmd m
        { c with
          seq := .run op (.b2 (taken + vs.length) (sum + (c.readings vs).sum))
          io := { c.io with currents := rest } } := by
  induction vs generalizing taken sum c with
  | nil =>
    have hsame : c = { c with seq := .run op (.b2 taken sum), io := { c.io with currents := rest } } := by
      rw [← hs, show rest = c.io.currents from hlisted.symm]
    rw [List.length_nil, Nat.zero_add]
    exact congrArg (microSteps op cmd m) hsame
  | cons v vs ih =>
    rw [List.length_cons] at hmore
    have hstep := (microStep_of_run (cmd := cmd) hs).trans
      (sampleBase_next (drawCurrent_listed hlisted) (by omega : taken + 1 < c.params.ackBaseCount))
    rw [List.length_cons, Nat.add_right_comm, microSteps_succ hstep, ih rfl rfl (by dsimp only; omega)]
    simp only [Block.readings, List.map_cons, List.sum_cons, Nat.add_assoc, Nat.add_comm 1]

theorem microSteps_one (op : Instr) (cmd : Command) (c : Block) : microSteps op cmd 1 c = microStep op cmd c := by
  cases hstep : microStep op cmd c <;> simp only [microSteps, hstep]

/-- Settles O41: all samples but the last are added up, and the last one gives the mean. -/
theorem baseCurrentIsTheMean : Obligations.BaseCurrentIsTheMean := by
  intro op cmd c vs rest hpos hlen hlisted hs read
  obtain ⟨before, last, rfl⟩ : ∃ before last, vs = before ++ [last] :=
    (List.eq_nil_or_concat' vs).resolve_left fun h => by simp [h] at hlen; omega
  rw [List.append_assoc, List.singleton_append] at hlisted
  rw [List.length_append, List.length_singleton] at hlen
  have hbefore : read.take before.length = c.readings before := by
    simp [read, Block.readings]
  have hsum : read.sum = (c.readings before).sum + min last c.params.curMax := by
    simp [read, Block.readings]
  have hcount : c.params.ackBaseCount - 1 = before.length := by omega
  rw [hcount, hbefore, hsum, ← hlen, microSteps_samples 1 hs hlisted (by omega), microSteps_one,
    microStep_of_run rfl]
  refine (sampleBase_last (drawCurrent_listed rfl) (by dsimp only; omega)).trans ?_
  simp only [Nat.zero_add, hlen, Block.measured]

/-! ### The verdict and the end -/

/-- Where the ack detector hands its verdict to the conversation: AK8 with an ack, AK1b without (43_ack_detector.md
R137). -/
def verdictPos (ok : Bool) (l : Leg) : Pos := if ok then .ak8 l else .ak1b l

/-- The state in which the detector ends with a verdict. -/
def verdictState (ok : Bool) : AckState := if ok then .done else .off

theorem stepAt_verdict (op : Instr) (cmd : Command) (ok : Bool) (l : Leg) (c : Block) :
    stepAt op cmd (verdictPos ok l) c = cmd.legOver l ok (c.withAckState (verdictState ok)) := by
  cases ok <;> rfl

theorem verdictPos_ne_load (ok : Bool) (l : Leg) (lp : LoadPos) (x : LoadCtx) (ret : LoadRet) :
    verdictPos ok l ≠ .load lp x ret := by
  cases ok <;> exact nofun

/-- The output goes back to off exactly where the preamble had turned it on (R150). -/
theorem restoreOutput_eq (c : Block) :
    restoreOutput c =
      { c with
        outEnable := if c.svc.restoreOff then false else c.outEnable
        svc := { c.svc with restoreOff := false } } := by
  unfold restoreOutput
  split
  · rfl
  · next hoff =>
    have hkept : { c.svc with restoreOff := false } = c.svc := by
      rw [← Bool.eq_false_of_not_eq_true hoff]
    rw [hkept]

/-- A conversation whose leg ends it answers and restores the output, whatever the grain (R150, R151). -/
theorem exec_finishes {i : Instr} {s : State} {ok : Bool} {l : Leg} {r : Response}
    (hs : s.cur.seq = .run i (verdictPos ok l))
    (hover : (commandOf i).legOver l ok (s.cur.withAckState (verdictState ok)) =
      .ok (finish ok r (s.cur.withAckState (verdictState ok)))) :
    exec i s = .next (s.setCur (finished s.cur (verdictState ok) r (if ok then .ok else .ackFail))) := by
  have hfinish : finish ok r (s.cur.withAckState (verdictState ok)) =
      finished s.cur (verdictState ok) r (if ok then .ok else .ackFail) := by
    rw [finish, restoreOutput_eq, emit_endCommand_eq_over]
    rfl
  have hmicro : microStep i (commandOf i) s.cur = .ok (finish ok r (s.cur.withAckState (verdictState ok))) :=
    (microStep_of_run hs).trans ((stepAt_verdict ..).trans hover)
  rw [exec_pauses_at_once (by simp [busyWithOther, hs]) hmicro rfl, hfinish]

/-- A conversation whose leg goes on to load a packet into user slot 1. -/
theorem loadsUserSlot1_of_verdict {i : Instr} {s : State} {d : Block} {ok : Bool} {l : Leg} {bytes : List Byte}
    {ret : LoadRet} (hg : s.grain = .micro) (hs : s.cur.seq = .run i (verdictPos ok l)) (hpool : s.cur.PoolOk)
    (hkept : s.cur.LoaderKept d) (hlen : bytes.length = 3)
    (hover : (commandOf i).legOver l ok (s.cur.withAckState (verdictState ok)) = beginLoad i 1 bytes 0 ret d) :
    loadsUserSlot1 i bytes ret d s :=
  loadsUserSlot1_of_stepAt hg hs hpool (betweenLoads_of_pos hs (verdictPos_ne_load ok l)) hkept
    (by omega) (by omega) ((stepAt_verdict ..).trans hover)

end Sys2Proof.Machine
end

section
/-! The three conversations (44_service_mode.md R152 to R154), each statement of their own. -/

namespace Sys2Proof.Machine

/-- Settles O40: each start is the shared one, its operands in range and its own copy of them. -/
theorem conversationsStartWithThePreamble : Obligations.ConversationsStartWithThePreamble := by
  intro s cv bit value cb cbSub hs hchannel hcv n started
  have hcvOk : cvOk cv = true := inRange_of_not_outside hcv
  refine ⟨exec_begins_preamble hs ?readCv, fun hvalue => exec_begins_preamble hs ?writeCvByte,
    exec_begins_preamble hs ?writeCvBit⟩
  case readCv =>
    show startReadCv cv cb cbSub s.cur = _
    exact startService_admitted hchannel hcvOk
  case writeCvByte =>
    show startWriteCvByte cv value cb cbSub s.cur = _
    exact startService_admitted hchannel (Bool.and_eq_true_iff.mpr ⟨hcvOk, inRange_of_not_outside hvalue⟩)
  case writeCvBit =>
    show startWriteCvBit cv bit value cb cbSub s.cur = _
    exact startService_admitted hchannel hcvOk

/-! ### READ_CV -/

/-- A block at the reset burst that begins a round of READ_CV (R152). -/
def Block.burstBegun (c : Block) (op : Instr) : Block :=
  { c with
    seq := .run op (.load .o1 ⟨0, 3, false, none, 0, false⟩ (.leg .burst))
    payload := written [0, 0] c }

theorem readCvRound_eq (cv cb cbSub : Word) (c : Block) :
    readCvRound cv cb cbSub c = .ok (c.burstBegun (.readCv cv cb cbSub)) :=
  beginLoad_oneShot le_rfl (by decide)

/-- The verdict on a probe is recorded; before bit 7 the next round begins (R152). -/
theorem legOver_probe_next {cv cb cbSub : Word} {ok : Bool} {c : Block} (h : c.svc.bitIdx < 7) :
    legOverReadCv cv cb cbSub .probe ok c = .ok ((recordBit ok c).burstBegun (.readCv cv cb cbSub)) := by
  have hmore : (recordBit ok c).svc.bitIdx < 8 := Nat.succ_lt_succ h
  rw [legOverReadCv, if_pos hmore, readCvRound_eq]

/-- With bit 7 the value is complete, and its verify-byte probe is loaded (R152). -/
theorem legOver_probe_last {cv cb cbSub : Word} {ok : Bool} {c : Block} (h : c.svc.bitIdx = 7) :
    legOverReadCv cv cb cbSub .probe ok c =
      beginLoad (.readCv cv cb cbSub) 1 (probeVerifyByte c.svc.opCv (recordBit ok c).svc.value) 0 (.leg .verify)
        (recordBit ok c) := by
  have hdone : ¬(recordBit ok c).svc.bitIdx < 8 := by
    show ¬c.svc.bitIdx + 1 < 8
    omega
  rw [legOverReadCv, if_neg hdone]
  rfl

/-- Settles O44: the base measurement, the burst and the probe each lead on by one statement of READ_CV. -/
theorem readCvRecordsEachBit : Obligations.ReadCvRecordsEachBit := by
  intro s cv cb cbSub hg hpool i a lo burstBegins
  refine ⟨fun taken sum v io hs hlast hdrawn => ?_, fun x hprint hs => ?_, fun ok _ hs => ?_⟩
  · have hbased := sampleBase_last (op := i) (cmd := commandOf i) (sum := sum)
      (drawCurrent_of_drawnCurrent hdrawn) hlast
    exact exec_of_stepAt hg hs (hbased.trans (readCvRound_eq ..))
  · have hb : s.cur.BetweenLoads := fun op lp y ret hs' => by
      rw [hs] at hs'
      cases hs'
      exact .inl rfl
    refine loadsUserSlot1_of_stepAt hg hs hpool hb ⟨rfl, rfl, rfl, rfl⟩ (by simp) (by simp) ?_
    rw [stepAt, loadStep, recordLastLoad_silent hprint]
    rfl
  · have hs : s.cur.seq = .run i (verdictPos ok .probe) := hs
    refine ⟨fun hlt => ?_, fun hlast => ?_⟩
    · exact exec_of_stepAt hg hs ((stepAt_verdict ..).trans (legOver_probe_next hlt))
    · exact loadsUserSlot1_of_verdict hg hs hpool ⟨rfl, rfl, rfl, rfl⟩ rfl (legOver_probe_last hlast)

/-- Settles O45: the verdict on the verify-byte probe ends READ_CV, with or without an ack. -/
theorem readCvCompletes : Obligations.ReadCvCompletes := by
  intro s cv cb cbSub answer
  exact ⟨fun hs => exec_finishes (ok := true) hs rfl, fun hs => exec_finishes (ok := false) hs rfl⟩

/-! ### WRITE_CV_BYTE -/

/-- Settles O46: an ack on either leg ends WRITE_CV_BYTE, and without one the fallback follows the write. -/
theorem writeCvByteCompletes : Obligations.WriteCvByteCompletes := by
  intro s cv value cb cbSub i answer
  refine ⟨?acked, fun hs => exec_finishes (ok := false) hs rfl, fun hs hg hpool => ?fallback, ?based⟩
  case acked =>
    rintro (hs | hs)
    all_goals exact exec_finishes (ok := true) hs rfl
  case fallback =>
    exact loadsUserSlot1_of_verdict (ok := false) hg hs hpool ⟨rfl, rfl, rfl, rfl⟩ rfl rfl
  case based =>
    intro taken sum v io hs hlast hdrawn hg hpool
    exact loadsUserSlot1_of_based hg hs hpool hdrawn hlast rfl rfl rfl

/-! ### WRITE_CV_BIT -/

/-- The answer of WRITE_CV_BIT carries the clamped bit number, and the clamped value or -1 (R151, R154). -/
theorem cvBitResponse_eq (ok : Bool) (c : Block) :
    cvBitResponse ok c =
      .cvBit c.svc.opCb.toInt c.svc.opCbSub.toInt c.svc.opCv.toInt (min (max c.svc.opBit.toInt 0) 7)
        (resultOf ok (min (max c.svc.opValue.toInt 0) 1)) := by
  have hbit : (clampedBit c : Int) = min (max c.svc.opBit.toInt 0) 7 := Int.toNat_of_nonneg (by unfold clamp; omega)
  have hvalue : (clampedBitValue c : Int) = min (max c.svc.opValue.toInt 0) 1 :=
    Int.toNat_of_nonneg (by unfold clamp; omega)
  rw [cvBitResponse, hbit, hvalue]

/-- Settles O47: an ack on either leg ends WRITE_CV_BIT, and without one the fallback follows the write. -/
theorem writeCvBitCompletes : Obligations.WriteCvBitCompletes := by
  intro s cv bit value cb cbSub i b v answer
  refine ⟨?acked, fun hs => ?failed, fun hs hg hpool => ?fallback, ?based⟩
  case acked =>
    have hr : answer v = cvBitResponse true s.cur := (cvBitResponse_eq true s.cur).symm
    rw [hr]
    rintro (hs | hs)
    all_goals exact exec_finishes (ok := true) hs rfl
  case failed =>
    have hr : answer (-1) = cvBitResponse false s.cur := (cvBitResponse_eq false s.cur).symm
    rw [hr]
    exact exec_finishes (ok := false) hs rfl
  case fallback =>
    rw [BitVec.or_assoc]
    exact loadsUserSlot1_of_verdict (ok := false) hg hs hpool ⟨rfl, rfl, rfl, rfl⟩ rfl rfl
  case based =>
    intro taken sum w io hs hlast hdrawn hg hpool
    rw [BitVec.or_assoc]
    exact loadsUserSlot1_of_based hg hs hpool hdrawn hlast rfl rfl rfl

end Sys2Proof.Machine
end

section
/-! The move that a step picks, listed or not, as the move of one block (notes/assumptions/5.md, 8.md). -/

namespace Sys2Proof.Machine

/-- A step is the move it picks, made by the block in focus and lifted to the station. -/
theorem step_eq_lift_picked (s : State) :
    ∃ g, step s =
      ({ (pickTurn s).2 with grain := g } : State).lift
        (blockMove (pickTurn s).1 (s.block (pickTurn s).2.focus)) := by
  rw [← pickTurn_block s]
  exact takeTurn_eq_lift (pickTurn s).1 (pickTurn s).2

/-- Everything a step can do: the block in focus makes the picked move, and the other block stays. -/
theorem step_next_cases {s t : State} (h : step s = .next t) :
    blockMove (pickTurn s).1 (s.block (pickTurn s).2.focus) = .ok (t.block (pickTurn s).2.focus) ∧
      t.block (pickTurn s).2.focus.other = s.block (pickTurn s).2.focus.other := by
  obtain ⟨g, hg⟩ := step_eq_lift_picked s
  obtain ⟨c, hmove, rfl⟩ := lift_next (hg ▸ h)
  refine ⟨hmove.trans (congrArg Except.ok (setBlock_block _ _ c).symm), ?_⟩
  exact (setBlock_other _ _ c).trans (pickTurn_block s _)

/-- A step goes on wherever the picked move goes through. -/
theorem step_of_picked_ok {s : State}
    (h : ∃ c, blockMove (pickTurn s).1 (s.block (pickTurn s).2.focus) = .ok c) : ∃ t, step s = .next t := by
  obtain ⟨g, hg⟩ := step_eq_lift_picked s
  obtain ⟨c, hc⟩ := h
  exact ⟨_, by rw [hg, hc, lift_ok]⟩

end Sys2Proof.Machine
end

section
/-! The positions of a running command, conversations' ones among them, kept by every step of context A (10_state.md
R24; 44_service_mode.md R146). -/

namespace Sys2Proof.Machine

/-- A conversation runs on PROG only. -/
theorem Block.PositionOk.channel {c : Block} {op : Instr} {pos : Pos} (h : c.PositionOk) (hs : c.seq = .run op pos)
    (hop : isService op = true) : c.params.channel = .prog := by
  unfold Block.PositionOk at h
  rw [hs] at h
  exact h.2 hop

theorem positionOk_atPosition {c : Block} {op : Instr} {pos : Pos} (hs : c.seq = .run op pos)
    (hpos : positionOk op pos = true) (hch : isService op = true → c.params.channel = .prog) : c.PositionOk := by
  unfold Block.PositionOk
  rw [hs]
  exact ⟨hpos, hch⟩

/-- A running operation may go on to a position that it has whenever it has the one it stands at. -/
theorem Block.PositionOk.goesOn {c c' : Block} {op : Instr} {pos pos' : Pos} (h : c.PositionOk)
    (hs : c.seq = .run op pos) (hs' : c'.seq = .run op pos') (hparams : c'.params = c.params)
    (hsame : positionOk op pos' = positionOk op pos) : c'.PositionOk :=
  positionOk_atPosition hs' (hsame.trans (h.at hs)) (hparams ▸ h.channel hs)

theorem Block.PositionOk.of_eq {c c' : Block} (h : c.PositionOk) (hseq : c'.seq = c.seq)
    (hparams : c'.params = c.params) : c'.PositionOk := by
  unfold Block.PositionOk
  rwa [hseq, hparams]

theorem beginLoad_positionOk {op : Instr} {s : Nat} {bytes : List Byte} {rep : Byte} {ret : LoadRet} {c c' : Block}
    (hch : isService op = true → c.params.channel = .prog) (hp : ∀ lp x, positionOk op (.load lp x ret) = true)
    (h2 : 2 ≤ bytes.length) (h5 : bytes.length ≤ 5) (h : beginLoad op s bytes rep ret c = .ok c') :
    c'.PositionOk := by
  rcases beginLoad_cases h2 h5 h with ⟨-, rfl⟩ | ⟨-, x, r, -, rfl⟩ <;> exact positionOk_atPosition rfl (hp _ _) hch

/-- Where an operation's own statements leave it, on a channel it may run on. -/
theorem After.positionOk_of_channel {op : Instr} {c c' : Block}
    (hch : isService op = true → c.params.channel = .prog) (h : After op c c') : c'.PositionOk := by
  cases h with
  | done => exact positionOk_of_idle rfl
  | preamble n v _ hs => exact positionOk_atPosition rfl hs hch
  | load _ v _ _ _ _ _ _ _ h2 h5 hp hload => exact beginLoad_positionOk (c := { c with svc := v }) hch hp h2 h5 hload

theorem reinstallReset_positionOk {op : Instr} {ret : LoadRet} {c c' : Block}
    (hch : isService op = true → c.params.channel = .prog) (hp : ∀ lp x, positionOk op (.load lp x ret) = true)
    (h : reinstallReset op ret c = .ok c') : c'.PositionOk :=
  beginLoad_positionOk hch hp (by decide) (by decide) h

/-- After a load the operation stands at a position of its own: its answer, or the detector for the leg it loaded. -/
theorem returnFromLoad_positionOk {op : Instr} {lp : LoadPos} {x : LoadCtx} {ret : LoadRet} {c c' : Block}
    (hch : isService op = true → c.params.channel = .prog) (hpos : positionOk op (.load lp x ret) = true)
    (h : returnFromLoad op (commandOf op) ret c = .ok c') : c'.PositionOk := by
  rcases returnFromLoad_cases h with ⟨-, ha⟩ | ⟨l, rfl, hl, rfl⟩ | ⟨l, rfl, rfl⟩ | ⟨l, rfl, rfl⟩
  · exact ha.positionOk_of_channel hch
  · have hleg : ackLegOk op l = true := Bool.and_eq_true_iff.mpr ⟨hpos, bne_iff_ne.mpr hl⟩
    exact positionOk_atPosition rfl hleg hch
  all_goals exact positionOk_atPosition rfl hpos hch

/-- Every statement of context A, on a channel its operation may run on, goes on to a position of the operation. -/
theorem Micro.positionOk {op : Instr} {c c' : Block} (hch : isService op = true → c.params.channel = .prog)
    (hc : c.PositionOk) (h : Micro op c c') : c'.PositionOk := by
  cases h with
  | started _ _ ha => exact ha.positionOk_of_channel hch
  | held => exact hc
  | o1 x ret hs | o2 x ret hs | o3 x ret hs | p2 x ret hs | p3 x ret hs | p4 x ret hs | p5 x ret hs | p6 x ret hs
  | p7keep x ret hs | p7retire x ret _ hs => exact hc.goesOn hs rfl rfl (positionOk_load_eq op _ _ x x ret)
  | p8 x ret hs =>
    rw [raiseMaxLoaded_eq]
    exact hc.goesOn hs rfl rfl (positionOk_load_eq op _ _ x x ret)
  | loadOver _ x ret _ hs _ hret =>
    have hparams := (recordLastLoad_restKept x c).params
    exact returnFromLoad_positionOk (hparams ▸ hch) (hc.at hs) hret
  | wp2 _ hs | ak0 _ hs | ak1 _ hs | ak3 _ _ _ hs | ak6 _ hs | ak7 _ hs => exact hc.goesOn hs rfl rfl rfl
  | b2next _ _ hs => exact hc.goesOn hs rfl (drawCurrent_params c) rfl
  | b2last _ _ _ _ _ ha => exact ha.positionOk_of_channel (by rw [drawCurrent_params]; exact hch)
  | ak1timeout l _ hs _ hload =>
    have hack := hc.at hs
    exact reinstallReset_positionOk (ret := .ackTimeout l) hch (fun _ _ => hack) hload
  | ak2 l hs =>
    obtain ⟨cur, tick, io, hsample, -⟩ := takeSample_eq op l c
    rw [hsample]
    exact hc.goesOn hs rfl rfl rfl
  | ak3confirmed l cur tick _ hs _ hload =>
    have hack := hc.at hs
    exact reinstallReset_positionOk (ret := .ackConfirm l) (c := { c with ack := judgeSample c.params c.ack cur tick })
      hch (fun _ _ => hack) hload
  | verdict _ st _ _ _ hleg => exact (legOver_after hleg).positionOk_of_channel (c := c.withAckState st) hch

/-- A conversation that a block admits stands on PROG (44_service_mode.md R146). -/
theorem startService_channel {op : Instr} {admitted : Bool} {copy : SvcRegs → SvcRegs} {c c' : Block}
    (h : startService op admitted copy c = .ok c') : c'.seq = .idle ∨ c.params.channel = .prog := by
  unfold startService at h
  split at h
  · next hadmitted =>
    obtain ⟨hch, -⟩ := Bool.and_eq_true_iff.mp hadmitted
    exact .inr (by simpa using hch)
  · obtain rfl : c.ignore = c' := by simpa using h
    exact .inl rfl

/-- Every conversation starts with its checks and the preamble (44_service_mode.md R146, R149). -/
theorem start_eq_startService {op : Instr} (hop : isService op = true) :
    ∃ admitted copy, ∀ c, (commandOf op).start c = startService op admitted copy c := by
  cases op with
  | readCv | writeCvByte | writeCvBit =>
    simp only [commandOf, readCvCommand, writeCvByteCommand, writeCvBitCommand, serviceCommand, startReadCv,
      startWriteCvByte, startWriteCvBit]
    exact ⟨_, _, fun _ => rfl⟩
  | _ => cases hop

theorem start_channel {op : Instr} {c c' : Block} (hop : isService op = true)
    (h : (commandOf op).start c = .ok c') : c'.seq = .idle ∨ c.params.channel = .prog := by
  obtain ⟨admitted, copy, hstart⟩ := start_eq_startService hop
  exact startService_channel (hstart c ▸ h)

theorem microStep_positionOk {op : Instr} {c c' : Block} (hc : c.PositionOk) (hserves : c.servesOnly op)
    (h : microStep op (commandOf op) c = .ok c') : c'.PositionOk := by
  have hmicro := microStep_cases hserves h
  rcases hserves with hs | ⟨pos, hs⟩
  · rw [microStep, hs] at h
    by_cases hidle : c'.seq = .idle
    · exact positionOk_of_idle hidle
    · exact hmicro.positionOk (fun hop => (start_channel hop h).resolve_left hidle) hc
  · exact hmicro.positionOk (hc.channel hs) hc

end Sys2Proof.Machine
end

section
/-! The frames of a block: every valid slot holds a complete published frame, and so does whatever context B sends
(41_slot_table_loader.md R121; 70_reset_and_hazards.md R193). -/

namespace Sys2Proof.Machine

/-! ### The invariant, part by part -/

/-- Every valid slot holds the published frame of one encoder call. -/
def Block.SlotsComplete (c : Block) : Prop := ∀ j, j ≤ c.params.n → c.invalid j = false → (c.slotFrame j).complete

/-- The frame being sent and every frame sent so far are published frames. -/
def Block.SentComplete (c : Block) : Prop :=
  c.engine.latched.complete ∧ ∀ f, Event.emitted f ∈ c.io.events → f.complete

/-- Where an encoder call's result waits for its publication, it is complete. -/
def Block.EncodedOk (c : Block) : Prop := ∀ op lp x ret, c.seq = .run op (.load lp x ret) → loadFrameOk lp x c

theorem framesOk_iff {c : Block} : c.FramesOk ↔ c.SlotsComplete ∧ c.SentComplete ∧ c.EncodedOk := by
  unfold Block.FramesOk
  constructor
  · rintro ⟨hslots, hlatched, hsent, hpos⟩
    refine ⟨hslots, ⟨hlatched, hsent⟩, fun op lp x ret hs => ?_⟩
    rwa [hs] at hpos
  · rintro ⟨hslots, ⟨hlatched, hsent⟩, hpos⟩
    refine ⟨hslots, hlatched, hsent, ?_⟩
    split
    · next op lp x ret hs => exact hpos op lp x ret hs
    · trivial

theorem Block.OutsideLoad.encodedOk {c : Block} (h : c.OutsideLoad) : c.EncodedOk :=
  fun op lp x ret hs => absurd hs (h op lp x ret)

theorem encodedOk_atLoad {c : Block} {op : Instr} {lp : LoadPos} {x : LoadCtx} {ret : LoadRet}
    (hs : c.seq = .run op (.load lp x ret)) (h : loadFrameOk lp x c) : c.EncodedOk := by
  intro o p y r hrun
  cases hs.symm.trans hrun
  exact h

/-- The idle packet is a published frame (40_encoder.md R103). -/
theorem idleFrame_complete : idleFrame.complete := by
  obtain ⟨hidle, -⟩ := fixedFramesAreEncoded
  exact ⟨[0xFF, 0x00, 0xFF], ⟨by decide, by decide, rfl⟩, hidle.symm⟩

/-- What an encoder call packs is a packet: its checksum makes it XOR to 0 (30_encoding.md R88; 40_encoder.md R96). -/
theorem isPacket_nextPacket {c : Block} (h : c.payload.Fits) : isPacket c.nextPacket := by
  obtain ⟨hp, h2, h5⟩ := h
  have hlen : (c.payload.p.take c.payload.k).length = c.payload.k := by
    rw [List.length_take]
    omega
  rw [nextPacket_eq (by omega)]
  refine ⟨?_, ?_, checksum_append_checksum _⟩ <;> rw [List.length_append, hlen, List.length_singleton] <;> omega

/-! ### What a move makes of the slots -/

theorem Block.SlotRamKept.invalid_eq {c c' : Block} (h : c.SlotRamKept c') (j : Nat) : c'.invalid j = c.invalid j := by
  rw [Block.invalid, h.byteAt_eq, Block.invalid]

/-- From `c` to `c'` no slot but `j` has another flag or another frame. -/
structure Block.SlotsKeptBut (j : Nat) (c c' : Block) : Prop where
  params : c'.params = c.params
  flags : ∀ i, i ≠ j → c'.invalid i = c.invalid i
  frames : ∀ i, i ≠ j → c'.slotFrame i = c.slotFrame i

/-- Valid slots stay complete where the slot that may have changed is invalid or complete. -/
theorem Block.SlotsComplete.of_keptBut {c c' : Block} {j : Nat} (h : c.SlotsComplete) (hk : c.SlotsKeptBut j c')
    (hj : c'.invalid j = false → (c'.slotFrame j).complete) : c'.SlotsComplete := by
  intro i hn hi
  by_cases hij : i = j
  · subst hij
    exact hj hi
  · rw [hk.frames i hij]
    exact h i (hk.params ▸ hn) (hk.flags i hij ▸ hi)

theorem Block.SlotsComplete.of_kept {c c' : Block} (h : c.SlotsComplete) (hparams : c'.params = c.params)
    (hkept : c.SlotRamKept c') : c'.SlotsComplete := by
  intro j hn hj
  rw [hkept.slotFrame_eq]
  exact h j (hparams ▸ hn) (hkept.invalid_eq j ▸ hj)

/-- An encoder call leaves its slot invalid (40_encoder.md R99). -/
theorem Block.SlotsComplete.encoded {c : Block} (h : c.SlotsComplete) (hfits : c.payload.Fits) (j : Nat) :
    (c.encoded j).SlotsComplete := by
  refine h.of_keptBut (j := j) ⟨rfl, (encoded_flagsKeptBut c j).other, fun i hne => slotFrame_encoded_other c hne.symm⟩
    fun hvalid => ?_
  exact absurd ((invalid_encoded c j (length_nextPacket_le hfits)).symm.trans hvalid) nofun

theorem withFlagByte_slotsKeptBut (c : Block) (j : Nat) (b : Byte) : c.SlotsKeptBut j (c.withFlagByte j b) :=
  ⟨rfl, (withFlagByte_flagsKeptBut c j b).other, fun _ hne => slotFrame_withFlagByte_other c b hne.symm⟩

/-- A slot taken out of the rotation need not be complete. -/
theorem Block.SlotsComplete.withdrawn {c : Block} (h : c.SlotsComplete) (j : Nat) :
    (c.withFlagByte j (c.byteAt (flagAddr j) ||| 0x01)).SlotsComplete :=
  h.of_keptBut (withFlagByte_slotsKeptBut c j _) fun hvalid => absurd ((invalid_set c j).symm.trans hvalid) nofun

/-- A slot that holds an encoder call's result is complete once its flag is cleared (40_encoder.md R99). -/
theorem Block.SlotsComplete.published {c : Block} (h : c.SlotsComplete) {j : Nat}
    (hframe : isPacket c.packetBytes ∧ c.slotFrame j = encodedFrame c.packetBytes) :
    (c.withFlagByte j (c.byteAt (flagAddr j) &&& 0xFE)).SlotsComplete := by
  obtain ⟨hpacket, hencoded⟩ := hframe
  refine h.of_keptBut (withFlagByte_slotsKeptBut c j _) fun _ => ⟨c.packetBytes, hpacket, ?_⟩
  rw [slotFrame_withFlagByte c j (· &&& 0xFE), hencoded]
  rfl

/-- After an encoder call its slot holds the frame of the packet in the payload register. -/
theorem loadFrame_encoded {c : Block} {j : Nat} (hfits : c.payload.Fits) (hj : j < c.table.bitCounts.length) :
    isPacket (c.encoded j).packetBytes ∧ (c.encoded j).slotFrame j = encodedFrame (c.encoded j).packetBytes :=
  ⟨isPacket_nextPacket hfits, slotFrame_encoded c hj⟩

/-! ### Context A -/

theorem Between.slotRamKept {op : Instr} {c c' : Block} (h : Between op c c') : c.SlotRamKept c' := by
  cases h with
  | outside hkept => exact .of_table hkept.table
  | begun d _ _ _ _ hkept h2 h5 hload =>
    have hd : c.SlotRamKept d := .of_table hkept.table
    exact hd.trans (beginLoad_slotRamKept h2 h5 hload)

/-- A load begins before its encoder call. -/
theorem Between.encodedOk {op : Instr} {c c' : Block} (h : Between op c c') : c'.EncodedOk := by
  cases h with
  | outside _ hout => exact hout.encodedOk
  | begun d _ _ _ _ _ h2 h5 hload =>
    rcases beginLoad_cases h2 h5 hload with ⟨-, rfl⟩ | ⟨-, x, r, -, rfl⟩
    · exact encodedOk_atLoad rfl trivial
    · refine encodedOk_atLoad rfl ?_
      split <;> trivial

/-- From `c` to `c'` no frame has been sent. -/
def Block.NothingSent (c c' : Block) : Prop := ∀ f, Event.emitted f ∈ c'.io.events → Event.emitted f ∈ c.io.events

theorem nothingSent_of_append {c c' : Block} {out : List Event} (h : c'.io.events = c.io.events ++ out)
    (hout : ∀ f, Event.emitted f ∉ out) : c.NothingSent c' := by
  intro f hf
  rw [h, List.mem_append] at hf
  exact hf.resolve_right (hout f)

theorem nothingSent_of_events {c c' : Block} (h : c'.io.events = c.io.events) : c.NothingSent c' :=
  nothingSent_of_append (out := []) (by rw [h, List.append_nil]) (by simp)

theorem Block.NothingSent.trans {a b c : Block} (hab : a.NothingSent b) (hbc : b.NothingSent c) : a.NothingSent c :=
  fun f hf => hab f (hbc f hf)

theorem beginLoad_nothingSent {op : Instr} {s : Nat} {bytes : List Byte} {rep : Byte} {ret : LoadRet} {c c' : Block}
    (h2 : 2 ≤ bytes.length) (h5 : bytes.length ≤ 5) (h : beginLoad op s bytes rep ret c = .ok c') :
    c.NothingSent c' := by
  rcases beginLoad_cases h2 h5 h with ⟨-, rfl⟩ | ⟨-, x, r, -, rfl⟩ <;> exact nothingSent_of_events rfl

theorem reinstallReset_nothingSent {op : Instr} {ret : LoadRet} {c c' : Block} (h : reinstallReset op ret c = .ok c') :
    c.NothingSent c' :=
  beginLoad_nothingSent (by decide) (by decide) h

theorem After.nothingSent {op : Instr} {c c' : Block} (h : After op c c') : c.NothingSent c' := by
  cases h with
  | done out en ro ho => exact nothingSent_of_append rfl ho
  | preamble => exact nothingSent_of_events rfl
  | load _ v _ _ _ _ _ _ _ h2 h5 _ hload => exact beginLoad_nothingSent (c := { c with svc := v }) h2 h5 hload

theorem drawCurrent_nothingSent (c : Block) : c.NothingSent (drawCurrent c).2 := by
  obtain ⟨io, hio, hevents, -⟩ := drawCurrent_eq c
  rw [hio]
  exact nothingSent_of_events hevents

theorem takeSample_nothingSent (op : Instr) (l : Leg) (c : Block) : c.NothingSent (takeSample op l c) := by
  obtain ⟨cur, tick, io, hsample, -, hevents, -⟩ := takeSample_eq op l c
  rw [hsample]
  exact nothingSent_of_events hevents

theorem recordLastLoad_nothingSent (x : LoadCtx) (c : Block) : c.NothingSent (recordLastLoad x c) := by
  obtain ⟨last, out, hrec, hout⟩ := recordLastLoad_eq x c
  rw [hrec]
  exact nothingSent_of_append rfl hout

theorem returnFromLoad_nothingSent {op : Instr} {ret : LoadRet} {c c' : Block}
    (h : returnFromLoad op (commandOf op) ret c = .ok c') : c.NothingSent c' := by
  rcases returnFromLoad_cases h with ⟨-, ha⟩ | ⟨l, -, -, rfl⟩ | ⟨l, -, rfl⟩ | ⟨l, -, rfl⟩
  · exact ha.nothingSent
  all_goals exact nothingSent_of_events rfl

/-- Context A sends no frame: it only hands slots to context B. -/
theorem Micro.nothingSent {op : Instr} {c c' : Block} (h : Micro op c c') : c.NothingSent c' := by
  cases h with
  | started _ _ ha => exact ha.nothingSent
  | p8 x ret =>
    rw [raiseMaxLoaded_eq]
    exact nothingSent_of_events rfl
  | loadOver _ x _ _ _ _ hret => exact (recordLastLoad_nothingSent x c).trans (returnFromLoad_nothingSent hret)
  | b2next => exact drawCurrent_nothingSent c
  | b2last _ _ _ _ _ ha => exact (drawCurrent_nothingSent c).trans ha.nothingSent
  | ak1timeout _ _ _ _ hload => exact reinstallReset_nothingSent hload
  | ak2 l => exact takeSample_nothingSent op l c
  | ak3confirmed _ cur tick _ _ _ hload =>
    exact reinstallReset_nothingSent (c := { c with ack := judgeSample c.params c.ack cur tick }) hload
  | verdict _ st _ _ _ hleg => exact (legOver_after hleg).nothingSent (c := c.withAckState st)
  | _ => exact nothingSent_of_events rfl

theorem Block.SentComplete.of_nothingSent {c c' : Block} (h : c.SentComplete) (hengine : c'.engine = c.engine)
    (hsent : c.NothingSent c') : c'.SentComplete := by
  obtain ⟨hlatched, hevents⟩ := h
  exact ⟨hengine ▸ hlatched, fun f hf => hevents f (hsent f hf)⟩

/-- Every statement of context A keeps valid slots complete, and the encoder's result complete until it is published. -/
theorem Micro.slots_encoded {op : Instr} {c c' : Block} (hshape : c.ShapeOk) (hslots : c.SlotsComplete)
    (hencoded : c.EncodedOk) (h : Micro op c c') : c'.SlotsComplete ∧ c'.EncodedOk := by
  by_cases hb : c.BetweenLoads
  · have hbetween := h.between hb
    exact ⟨hslots.of_kept h.restKept.params hbetween.slotRamKept, hbetween.encodedOk⟩
  have hfits := hshape.fits
  obtain ⟨-, hcounts, -⟩ := hshape
  cases h with
  | held => exact ⟨hslots, hencoded⟩
  | o1 | p2 | p7keep => exact ⟨hslots, encodedOk_atLoad rfl trivial⟩
  | p8 =>
    rw [raiseMaxLoaded_eq]
    exact ⟨hslots, encodedOk_atLoad rfl trivial⟩
  | o2 x ret _ hj => exact ⟨hslots.encoded hfits 0, encodedOk_atLoad rfl (loadFrame_encoded hfits (hcounts ▸ hj))⟩
  | p4 x ret _ hj => exact ⟨hslots.encoded hfits x.cand, encodedOk_atLoad rfl (loadFrame_encoded hfits (hcounts ▸ hj))⟩
  | p5 x ret hs => exact ⟨hslots, encodedOk_atLoad rfl (hencoded _ _ _ _ hs)⟩
  | o3 x ret hs => exact ⟨hslots.published (hencoded _ _ _ _ hs), encodedOk_atLoad rfl trivial⟩
  | p6 x ret hs => exact ⟨hslots.published (hencoded _ _ _ _ hs), encodedOk_atLoad rfl trivial⟩
  | p3 x => exact ⟨hslots.withdrawn x.cand, encodedOk_atLoad rfl trivial⟩
  | p7retire _ _ q => exact ⟨hslots.withdrawn q, encodedOk_atLoad rfl trivial⟩
  | _ => exact absurd (by grind [Block.BetweenLoads]) hb

theorem Micro.framesOk {op : Instr} {c c' : Block} (hshape : c.ShapeOk) (hc : c.FramesOk) (h : Micro op c c') :
    c'.FramesOk := by
  obtain ⟨hslots, hsent, hencoded⟩ := framesOk_iff.mp hc
  obtain ⟨hslots', hencoded'⟩ := h.slots_encoded hshape hslots hencoded
  exact framesOk_iff.mpr ⟨hslots', hsent.of_nothingSent h.restKept.engine h.nothingSent, hencoded'⟩

/-! ### Context B and the host -/

/-- A move that leaves the loader undisturbed keeps the slots, and the encoder's result in wait. -/
theorem Block.FramesOk.of_undisturbed {c c' : Block} (hc : c.FramesOk) (hu : c.Undisturbed c')
    (hsent : c.SentComplete → c'.SentComplete) : c'.FramesOk := by
  obtain ⟨hslots, hold, hencoded⟩ := framesOk_iff.mp hc
  have hkept : c.SlotRamKept c' := .of_table hu.table
  have hbytes : c'.packetBytes = c.packetBytes := by rw [Block.packetBytes, hu.payload, Block.packetBytes]
  refine framesOk_iff.mpr ⟨hslots.of_kept hu.params hkept, hsent hold, fun op lp x ret hs => ?_⟩
  have hframe := hencoded op lp x ret (hu.seq ▸ hs)
  cases lp with
  | o3 | p5 | p6 =>
    simp only [loadFrameOk, hbytes, hkept.slotFrame_eq]
    exact hframe
  | _ => trivial

/-- One more complete frame latched and sent. -/
theorem sentComplete_afterPacket {c : Block} (h : c.SentComplete) {f : Frame} (hf : f.complete) (src : Source)
    (repeatLeft : Byte) (rot : Nat) (next : Option Nat) : (afterPacket c src f repeatLeft rot next).SentComplete := by
  obtain ⟨-, hsent⟩ := h
  refine ⟨hf, fun g hg => ?_⟩
  rcases List.mem_append.mp hg with hold | hnew
  · exact hsent g hold
  · obtain rfl : g = f := by simpa using hnew
    exact hf

/-- A packet completion sends the frame it sent before, a valid slot or the idle packet (60_exceptions.md R171 to
R174; 41_slot_table_loader.md R121). -/
theorem engineStep_framesOk {c c' : Block} (hflags : c.FlagsOk) (hc : c.FramesOk) (h : engineStep c = .ok c') :
    c'.FramesOk := by
  obtain ⟨hslots, -, -⟩ := framesOk_iff.mp hc
  refine hc.of_undisturbed (engineStep_undisturbed h) fun hsent => ?_
  have ⟨hlatched, _⟩ := hsent
  rcases engineStep_cases h with ⟨-, rfl⟩ | ⟨-, j, hnext, hj, rfl⟩ | ⟨-, -, j, -, hvalid, hj, rfl⟩ | ⟨-, -, -, rfl⟩
  · exact sentComplete_afterPacket hsent hlatched _ _ _ _
  · exact sentComplete_afterPacket hsent (hslots j (Nat.le_of_lt_succ hj) (hflags.next_valid hnext)) _ _ _ _
  · exact sentComplete_afterPacket hsent (hslots j (Nat.le_of_lt_succ hj) hvalid) _ _ _ _
  · exact sentComplete_afterPacket hsent idleFrame_complete _ _ _ _

/-- At reset every slot is invalid, and the idle packet is latched (10_state.md R27, R35). -/
theorem powerOnReset_framesOk {c : Block} (hc : c.FramesOk) : (powerOnReset c).FramesOk := by
  obtain ⟨-, ⟨-, hsent⟩, -⟩ := framesOk_iff.mp hc
  have hidle : (powerOnReset c).OutsideLoad := outsideLoad_of_idle rfl
  refine framesOk_iff.mpr ⟨fun j _ hj => ?_, ⟨idleFrame_complete, hsent⟩, hidle.encodedOk⟩
  exact absurd ((invalid_reset c.params j).symm.trans hj) nofun

end Sys2Proof.Machine
end

section
/-! A sound station goes on (60_exceptions.md R165): at a sound block no statement of context A reaches a fault, nor
does any other move, and every move leaves the block sound. -/

namespace Sys2Proof.Machine

/-! ### An operation's own statements go through -/

/-- A load can begin: the pool is settled and in its bounds. -/
structure Block.LoadReady (c : Block) : Prop where
  bounds : c.PoolBounds
  settled : c.PoolSettled

theorem Block.LoadReady.of_kept {c c' : Block} (h : c.LoadReady) (hkept : c.LoaderKept c') : c'.LoadReady where
  bounds := h.bounds.of_kept hkept.poolKept (hkept.next ▸ h.bounds.next_le)
  settled := hkept.poolKept.settled.mpr h.settled

theorem Block.PoolOk.loadReady {c : Block} (h : c.PoolOk) (hb : c.BetweenLoads) : c.LoadReady :=
  ⟨h.bounds, h.settled hb⟩

/-- The beginning of a load goes through: P1 finds a slot (41_slot_table_loader.md R119). -/
theorem beginLoad_ok {op : Instr} {s : Nat} {bytes : List Byte} {rep : Byte} {ret : LoadRet} {c : Block}
    (hc : c.LoadReady) : ∃ c', beginLoad op s bytes rep ret c = .ok c' := by
  unfold beginLoad
  split
  · exact ⟨_, rfl⟩
  dsimp only
  split
  · exact ⟨_, rfl⟩
  · next huser =>
    have hn : s % (c.withPayload bytes).slots ≤ c.params.n := Nat.le_of_lt_succ (Nat.mod_lt s (Nat.succ_pos _))
    obtain ⟨x, r, hx⟩ := chooseSlot_of_settled (rep := rep) (c := c.withPayload bytes) hc.bounds.map_length hc.settled
      (Nat.pos_of_ne_zero huser) hn
    exact ⟨_, by rw [hx]⟩

theorem startOneShot_ok {op : Instr} {admitted : Bool} {payload : List Byte} {c : Block} (hc : c.LoadReady) :
    ∃ c', startOneShot op admitted payload c = .ok c' := by
  unfold startOneShot
  split
  · exact beginLoad_ok hc
  · exact ⟨_, rfl⟩

theorem startService_ok (op : Instr) (admitted : Bool) (copy : SvcRegs → SvcRegs) (c : Block) :
    ∃ c', startService op admitted copy c = .ok c' := by
  unfold startService
  split <;> exact ⟨_, rfl⟩

/-- From Idle every operation goes through: it is refused, it answers, or its load or its preamble begins. -/
theorem start_ok (op : Instr) {c : Block} (hc : c.LoadReady) : ∃ c', (commandOf op).start c = .ok c' := by
  by_cases hop : isService op = true
  · obtain ⟨admitted, copy, hstart⟩ := start_eq_startService hop
    rw [hstart]
    exact startService_ok op admitted copy c
  cases op with
  | throttle slot cab speed dir =>
    show ∃ c', startThrottle slot cab speed dir c = .ok c'
    unfold startThrottle
    split
    · exact beginLoad_ok hc
    · exact ⟨_, rfl⟩
  | rawPacket argc args =>
    show ∃ c', startRawPacket argc args c = .ok c'
    unfold startRawPacket
    split
    · exact ⟨_, rfl⟩
    split
    · exact ⟨_, rfl⟩
    split
    · exact ⟨_, rfl⟩
    · exact beginLoad_ok hc
  | functionShort | functionLong | accessory | writeMainCvByte | writeMainCvBit => exact startOneShot_ok hc
  | readCv | writeCvByte | writeCvBit => exact absurd rfl hop
  | printLastPacket | printCapacity => exact ⟨_, rfl⟩

theorem reply_ok {op : Instr} (hop : isBuilder op = true) (c : Block) : ∃ c', (commandOf op).reply c = .ok c' := by
  cases op with
  | throttle | functionShort | functionLong | accessory | rawPacket | writeMainCvByte | writeMainCvBit =>
    exact ⟨_, rfl⟩
  | readCv | writeCvByte | writeCvBit | printLastPacket | printCapacity => cases hop

theorem based_ok {op : Instr} (hop : isService op = true) {c : Block} (hc : c.LoadReady) :
    ∃ c', (commandOf op).based c = .ok c' := by
  cases op with
  | readCv cv cb cbSub =>
    exact ⟨_, readCvRound_eq cv cb cbSub _⟩
  | writeCvByte cv value cb cbSub =>
    show ∃ c', basedWriteCvByte cv value cb cbSub c = .ok c'
    exact beginLoad_ok hc
  | writeCvBit cv bit value cb cbSub =>
    show ∃ c', basedWriteCvBit cv bit value cb cbSub c = .ok c'
    exact beginLoad_ok hc
  | _ => cases hop

/-- A conversation goes on after each leg it has (44_service_mode.md R152 to R154). -/
theorem legOver_ok {op : Instr} {l : Leg} (hl : legOk op l = true) (ok : Bool) {c : Block} (hc : c.LoadReady) :
    ∃ c', (commandOf op).legOver l ok c = .ok c' := by
  cases op with
  | readCv cv cb cbSub =>
    show ∃ c', legOverReadCv cv cb cbSub l ok c = .ok c'
    cases l with
    | burst => exact beginLoad_ok hc
    | probe =>
      have hrecorded : (recordBit ok c).LoadReady := hc.of_kept ⟨rfl, rfl, rfl, rfl⟩
      simp only [legOverReadCv]
      split
      · exact ⟨_, readCvRound_eq cv cb cbSub _⟩
      · exact beginLoad_ok hrecorded
    | verify => exact ⟨_, rfl⟩
    | write | fallback => cases hl
  | writeCvByte | writeCvBit =>
    cases l with
    | write =>
      simp only [commandOf, writeCvByteCommand, writeCvBitCommand, serviceCommand, legOverWriteCvByte,
        legOverWriteCvBit]
      split
      · exact ⟨_, rfl⟩
      · exact beginLoad_ok hc
    | fallback => exact ⟨_, rfl⟩
    | burst | probe | verify => cases hl
  | _ => cases hl

/-! ### The statements of a load go through -/

theorem thenGoto_ok {op : Instr} {pos : Pos} {r : Except Fault Block} (h : ∃ c, r = .ok c) :
    ∃ c, thenGoto op pos r = .ok c := by
  obtain ⟨c, rfl⟩ := h
  exact ⟨_, rfl⟩

theorem loadPending.cand_lt {x : LoadCtx} {c : Block} (h : loadPending x c) : x.cand < c.slots := by
  obtain ⟨⟨-, -, -, hcand, -⟩, -⟩ := h
  exact Nat.lt_succ_of_le hcand

/-- The slot that P7 retires is held for recycling, so it is one of the pool (41_slot_table_loader.md R119). -/
theorem loadPublished.retires_lt {x : LoadCtx} {c : Block} {p : Nat} (hbounds : c.PoolBounds) (h : loadPublished x c)
    (hp : x.retires = some p) : p < c.slots := by
  obtain ⟨⟨-, -, -, hcand, -, hrecycle⟩, -, hpool⟩ := h
  have ⟨hin, hprev⟩ := retires_eq_some.mp hp
  rw [hin, if_neg Bool.false_ne_true, hprev] at hrecycle
  obtain ⟨-, hle⟩ := (hpool.mem_iff p).mp (.inr hrecycle)
  exact Nat.lt_succ_of_le (hle.trans (Nat.max_le.mpr ⟨hbounds.maxLoaded_le, hcand⟩))

/-- What follows a load goes through. -/
theorem returnFromLoad_ok {op : Instr} {lp : LoadPos} {x : LoadCtx} {ret : LoadRet} {c : Block}
    (hpos : positionOk op (.load lp x ret) = true) (hc : c.LoadReady) :
    ∃ c', returnFromLoad op (commandOf op) ret c = .ok c' := by
  cases ret with
  | builder => exact reply_ok hpos c
  | leg l =>
    cases l with
    | burst => exact legOver_ok hpos true hc
    | probe | verify | write | fallback => exact ⟨_, rfl⟩
  | ackTimeout l | ackConfirm l => exact ⟨_, rfl⟩

/-- The slots that a load's statements store to exist, so each of them goes through (R108, R110). -/
theorem loadStep_ok {op : Instr} {lp : LoadPos} {x : LoadCtx} {ret : LoadRet} {c : Block} (hpool : c.PoolOk)
    (hs : c.seq = .run op (.load lp x ret)) (hpos : positionOk op (.load lp x ret) = true) :
    ∃ c', loadStep op (commandOf op) lp x ret c = .ok c' := by
  have hload := hpool.atLoad hs
  have hover (hlp : lp = .o4 ∨ lp = .p9) : (recordLastLoad x c).LoadReady := by
    refine (hpool.loadReady fun o p y r hrun => ?_).of_kept (recordLastLoad_loaderKept x c)
    cases hs.symm.trans hrun
    exact hlp
  cases lp with
  | o1 | p2 | p5 | p8 => exact ⟨_, rfl⟩
  | o2 => exact thenGoto_ok ⟨_, encodeInto_ok (Nat.succ_pos _)⟩
  | o3 => exact thenGoto_ok ⟨_, publishOneShot_ok x c⟩
  | p3 => exact thenGoto_ok ⟨_, setInvalid_ok (loadPending.cand_lt hload.2)⟩
  | p4 => exact thenGoto_ok ⟨_, encodeInto_ok (loadPending.cand_lt hload)⟩
  | p6 => exact thenGoto_ok ⟨_, publishPersistent_ok (loadPending.cand_lt hload)⟩
  | p7 => exact thenGoto_ok ⟨_, retirePrevious_ok fun _ => loadPublished.retires_lt hpool.bounds hload⟩
  | o4 => exact returnFromLoad_ok hpos (hover (.inl rfl))
  | p9 => exact returnFromLoad_ok hpos (hover (.inr rfl))

/-! ### A step of context A -/

theorem legOk_of_ackLegOk {op : Instr} {l : Leg} (h : ackLegOk op l = true) : legOk op l = true :=
  (Bool.and_eq_true_iff.mp h).1

/-- No statement of a running operation reaches a fault. -/
theorem stepAt_ok {op : Instr} {pos : Pos} {c : Block} (hpool : c.PoolOk) (hs : c.seq = .run op pos)
    (hpos : positionOk op pos = true) : ∃ c', stepAt op (commandOf op) pos c = .ok c' := by
  by_cases hload : ∃ lp x ret, pos = .load lp x ret
  · obtain ⟨lp, x, ret, rfl⟩ := hload
    exact loadStep_ok hpool hs hpos
  have hready := hpool.loadReady (betweenLoads_of_pos hs fun lp x ret h => hload ⟨lp, x, ret, h⟩)
  cases pos with
  | load lp x ret => exact absurd ⟨lp, x, ret, rfl⟩ hload
  | wp2 | ak0 | ak2 | ak6 | ak7 => exact ⟨_, rfl⟩
  | b2 taken sum =>
    show ∃ c', sampleBase op (commandOf op) taken sum c = .ok c'
    simp only [sampleBase]
    split
    · exact ⟨_, rfl⟩
    · exact based_ok hpos ((hready.of_kept (drawCurrent_loaderKept c)).of_kept ⟨rfl, rfl, rfl, rfl⟩)
  | ak1 l =>
    simp only [stepAt]
    split
    · exact beginLoad_ok hready
    · exact ⟨_, rfl⟩
  | ak1b l =>
    exact legOver_ok (legOk_of_ackLegOk hpos) false (hready.of_kept (c' := c.withAckState .off) ⟨rfl, rfl, rfl, rfl⟩)
  | ak8 l =>
    exact legOver_ok (legOk_of_ackLegOk hpos) true (hready.of_kept (c' := c.withAckState .done) ⟨rfl, rfl, rfl, rfl⟩)
  | ak3 l cur tick =>
    rw [stepAt, judge_eq]
    split
    · exact beginLoad_ok (hready.of_kept ⟨rfl, rfl, rfl, rfl⟩)
    · exact ⟨_, rfl⟩

/-- At a sound block a step of context A goes on. -/
theorem Block.Sound.microStep_ok {op : Instr} {c : Block} (hc : c.Sound) (hserves : c.servesOnly op) :
    ∃ c', microStep op (commandOf op) c = .ok c' := by
  obtain ⟨-, -, hposition, hpool, -, -⟩ := hc
  unfold microStep
  rcases hserves with hs | ⟨pos, hs⟩
  · rw [hs]
    exact start_ok op (hpool.loadReady (outsideLoad_of_idle hs).betweenLoads)
  · rw [hs]
    exact stepAt_ok hpool hs (hposition.at hs)

/-- A step of context A leaves a sound block sound. -/
theorem Block.Sound.of_microStep {op : Instr} {c c' : Block} (hc : c.Sound) (hserves : c.servesOnly op)
    (h : microStep op (commandOf op) c = .ok c') : c'.Sound := by
  obtain ⟨hshape, hmem, hposition, hpool, hflags, hframes⟩ := hc
  have hmicro := microStep_cases hserves h
  obtain ⟨hshape', hpool', hflags'⟩ := hmicro.loaderOk ⟨hshape, hpool, hflags⟩
  exact ⟨hshape', hmicro.memoryOk hmem, microStep_positionOk hposition hserves h, hpool', hflags',
    hmicro.framesOk hshape hframes⟩

/-! ### Every move of a block -/

/-- At a sound block a burst goes on, each of its steps from a sound block to a sound one. -/
theorem Block.Sound.burst_ok {op : Instr} {c : Block} (hc : c.Sound) (hserves : c.servesOnly op) (n : Nat) :
    ∃ c', burst op (commandOf op) n c = .ok c' := by
  induction n generalizing c with
  | zero => exact ⟨c, rfl⟩
  | succ n ih =>
    obtain ⟨d, hd⟩ := hc.microStep_ok hserves
    cases hp : paused d with
    | true => exact ⟨d, burst_stops hd hp⟩
    | false =>
      rw [burst_goes_on hd hp]
      exact ih (hc.of_microStep hserves hd) (microStep_serves hserves hd)

theorem Block.Sound.commandMove_ok {c : Block} (hc : c.Sound) (g : Grain) (i : Instr) :
    ∃ c', commandMove g i c = .ok c' := by
  unfold commandMove
  split
  · exact ⟨c, rfl⟩
  · next hb =>
    have hserves := servesOnly_of_not_busy hb
    cases g with
    | micro => exact hc.microStep_ok hserves
    | burst => exact hc.burst_ok hserves _

/-- A move that touches neither the loader's registers nor what is sent leaves a sound block sound. -/
theorem Block.Sound.of_undisturbed {c c' : Block} (hc : c.Sound) (hu : c.Undisturbed c')
    (hsent : c.SentComplete → c'.SentComplete) : c'.Sound := by
  obtain ⟨hshape, hmem, hposition, hpool, hflags, hframes⟩ := hc
  exact ⟨hshape.of_undisturbed hu, hmem.of_eq hu.params (congrArg SlotTable.mem hu.table),
    hposition.of_eq hu.seq hu.params, hpool.of_undisturbed hu, hflags.of_undisturbed hu,
    hframes.of_undisturbed hu hsent⟩

theorem Block.Sound.withCmds {c : Block} (hc : c.Sound) (ws : List CommandWord) : (c.withCmds ws).Sound :=
  hc.of_undisturbed ⟨rfl, rfl, rfl, rfl, .inl rfl, id⟩ id

theorem Block.Sound.foregroundMove_ok {c : Block} (hc : c.Sound) (g : Grain) :
    ∃ c', foregroundMove g c = .ok c' := by
  unfold foregroundMove
  split
  · exact hc.commandMove_ok g _
  · exact ⟨c, rfl⟩
  · split
    · exact (hc.withCmds _).commandMove_ok g _
    · exact ⟨_, rfl⟩

/-- No move of a sound block reaches a fault. -/
theorem Block.Sound.blockMove_ok {c : Block} (hc : c.Sound) (t : Turn) : ∃ c', blockMove t c = .ok c' := by
  cases t with
  | foreground g => exact hc.foregroundMove_ok g
  | engine =>
    obtain ⟨-, -, -, hpool, -, -⟩ := hc
    exact engineStep_ok ⟨hpool.bounds.maxLoaded_le, hpool.bounds.next_le⟩
  | setOutEnable | configWrite | currentCheck | powerOnReset => exact ⟨_, rfl⟩

theorem Block.Sound.of_engineStep {c c' : Block} (hc : c.Sound) (h : engineStep c = .ok c') : c'.Sound := by
  have ⟨_, _, _, _, hflags, hframes⟩ := hc
  obtain ⟨-, hsent, -⟩ := framesOk_iff.mp (engineStep_framesOk hflags hframes h)
  exact hc.of_undisturbed (engineStep_undisturbed h) fun _ => hsent

theorem Block.Sound.of_configWrite {c : Block} (hc : c.Sound) (v : Bool) : (hostConfigWrite v c).Sound := by
  refine hc.of_undisturbed (hostConfigWrite_undisturbed c v) ?_
  unfold hostConfigWrite
  split <;> exact id

theorem Block.Sound.of_currentCheck {c : Block} (hc : c.Sound) : (currentCheck c).Sound := by
  refine hc.of_undisturbed (currentCheck_undisturbed c) fun hsent => ?_
  obtain ⟨a, io, out, hcheck, hevents, hout, -⟩ := currentCheck_eq c
  rw [hcheck]
  refine hsent.of_nothingSent rfl (nothingSent_of_append hevents ?_)
  rcases hout with rfl | rfl <;> simp

/-- A command word that is no command leaves a label and nothing else. -/
theorem Block.Sound.of_ignore {c : Block} (hc : c.Sound) (hidle : c.seq = .idle) : c.ignore.Sound := by
  refine hc.of_undisturbed ⟨rfl, hidle.symm, rfl, rfl, .inl rfl, id⟩ fun hsent => ?_
  exact hsent.of_nothingSent rfl (nothingSent_of_append (out := [.ended .ignored]) rfl (by simp))

theorem Block.Sound.of_powerOnReset {c : Block} (hc : c.Sound) : (powerOnReset c).Sound := by
  obtain ⟨hshape, -, -, hpool, -, hframes⟩ := hc
  exact ⟨powerOnReset_shapeOk hshape, powerOnReset_memoryOk c, positionOk_of_idle rfl, powerOnReset_poolOk hpool,
    powerOnReset_flagsOk c, powerOnReset_framesOk hframes⟩

/-! ### The station -/

theorem step_sound {s t : State} (h : step s = .next t) (ch : Channel) (hs : (s.block ch).Sound) :
    (t.block ch).Sound := by
  refine step_rel (R := fun c c' => c.Sound → c'.Sound) (fun _ => id) (fun _ _ _ hab hbc => hbc ∘ hab)
    ?micro ?take ?ign ?engine ?out ?config ?check ?reset h ch hs
  case micro => exact fun i c c' hserves hmicro hc => hc.of_microStep hserves hmicro
  case take => exact fun c ws hc => hc.withCmds ws
  case ign => exact fun c hidle hc => hc.of_ignore hidle
  case engine => exact fun c c' hengine hc => hc.of_engineStep hengine
  case out => exact fun c v hc => hc.of_undisturbed ⟨rfl, rfl, rfl, rfl, .inl rfl, id⟩ id
  case config => exact fun c v hc => hc.of_configWrite v
  case check => exact fun c hc => hc.of_currentCheck
  case reset => exact fun _ c hc => hc.of_powerOnReset

/-- No step changes the parameters of a block, its channel among them (00_scope.md R4). -/
theorem step_params {s t : State} (h : step s = .next t) (ch : Channel) :
    (t.block ch).params = (s.block ch).params := by
  refine step_keeps (P := fun c => c.params = (s.block ch).params) ?_ ?_ ?_ h ch rfl
  · exact fun op c c' hc hmicro => hmicro.restKept.params.trans hc
  · exact fun c c' hc hu => hu.params.trans hc
  · exact fun _ c hc => hc

/-- Settles O58: the block in focus makes a move that reaches no fault, and every move keeps either block sound and at
its channel. -/
theorem soundStationStepsSafely : Obligations.SoundStationStepsSafely := by
  rintro s ⟨hmainCh, hprogCh⟩ ⟨hmain, hprog⟩
  have hsound : ∀ ch, (s.block ch).Sound
    | .main => hmain
    | .prog => hprog
  obtain ⟨t, ht⟩ := step_of_picked_ok ((hsound _).blockMove_ok (pickTurn s).1)
  refine ⟨t, ht, ⟨?_, ?_⟩, step_sound ht .main hmain, step_sound ht .prog hprog⟩
  · exact (congrArg Params.channel (step_params ht .main)).trans hmainCh
  · exact (congrArg Params.channel (step_params ht .prog)).trans hprogCh

end Sys2Proof.Machine
end

section
/-! The waveform engine's interrupt (60_exceptions.md R166 to R177): what one packet completion writes, which frame it
sends, and that a station at which nothing is published sends idle packets. -/

namespace Sys2Proof.Machine

/-! ### One packet completion as a move of the station -/

/-- A step that is the engine move of `ch` is one packet completion of that block. -/
theorem completesPacket_of_picked {s : State} {ch : Channel} {rest : List (Channel × Turn)}
    (h : pickTurn s = (.engine, { s with turns := rest, focus := ch })) : completesPacket s ch rest := by
  have hstep : step s = ({ s with focus := ch, turns := rest } : State).lift (engineStep (s.block ch)) := by
    rw [← pickTurn_block s ch, step, h]
    rfl
  refine ⟨fun c' hok => ?_, fun e herror => ?_⟩
  · rw [hstep, hok]
    rfl
  · rw [hstep, herror]
    rfl

/-- Context A has nothing to do where it is Idle with no word at its port, or holds. -/
theorem defaultTurn_engine {c : Block}
    (h : (c.seq = .idle ∧ c.io.cmds = []) ∨ (∃ i pos, c.seq = .run i pos ∧ holding c = true) ∨ c.io.sampled = true) :
    defaultTurn c = .engine := by
  unfold defaultTurn foregroundReady
  rcases h with ⟨hidle, hport⟩ | ⟨i, pos, hrun, hholds⟩ | hsampled
  · simp [hidle, hport]
  · simp [hrun, hholds]
  · simp [hsampled]

/-- Settles O23: each of the four things a packet completion can do is an `afterPacket`, and the picked move is the
engine's. -/
theorem engineWritesOnlyItsRegisters : Obligations.EngineWritesOnlyItsRegisters := by
  refine ⟨fun c c' h => ?_, fun s ch rest hturns => ?_, fun s ch hturns hch hready => ?_⟩
  · rcases engineStep_cases h with ⟨-, rfl⟩ | ⟨-, j, -, -, rfl⟩ | ⟨-, -, j, -, -, -, rfl⟩ | ⟨-, -, -, rfl⟩
    · exact ⟨rfl, rfl, .inl rfl, rfl⟩
    all_goals exact ⟨rfl, rfl, .inr rfl, rfl⟩
  · exact completesPacket_of_picked (by simp only [pickTurn, hturns])
  · subst hch
    exact completesPacket_of_picked (by simp only [pickTurn, hturns, defaultTurn_engine hready])

/-! ### The source of the next packet -/

theorem not_repeating_iff {c : Block} :
    repeating c = false ↔ ¬(c.engine.cur = .slot 0 ∧ 0 < c.engine.repeatLeft) := by
  rw [← repeating_iff, Bool.not_eq_true]

/-- Settles O24: E2 comes before E3. -/
theorem repeatThenAdoption : Obligations.RepeatThenAdoption := by
  intro c
  refine ⟨fun hcur hleft => ?_, fun j hrep hnext hj => ?_⟩
  · rw [engineStep_of_repeating (repeating_iff.mpr ⟨hcur, hleft⟩), hcur]
  · exact engineStep_of_handOff (not_repeating_iff.mpr hrep) hnext (Nat.lt_succ_of_le hj)

/-- While slot 0 repeats, `repeatLeft` packet completions send the latched frame once each (R171). -/
theorem engineSteps_repeats {n : Nat} {c : Block} (hcur : c.engine.cur = .slot 0)
    (hleft : c.engine.repeatLeft.toNat = n) :
    ∃ c', engineSteps n c = .ok c' ∧
      c'.io.events = c.io.events ++ List.replicate n (.emitted c.engine.latched) ∧
      c'.engine.cur = .slot 0 ∧ c'.engine.repeatLeft = 0 ∧ c'.engine.rot = c.engine.rot ∧ c'.next = c.next := by
  induction n generalizing c with
  | zero => exact ⟨c, rfl, (List.append_nil _).symm, hcur, BitVec.eq_of_toNat_eq hleft, rfl, rfl⟩
  | succ n ih =>
    have hrep : repeating c = true := repeating_iff.mpr ⟨hcur, by bv_omega⟩
    have hless : (c.engine.repeatLeft - 1).toNat = n := by bv_omega
    obtain ⟨c', hsteps, hevents, hrest⟩ :=
      ih (c := afterPacket c c.engine.cur c.engine.latched (c.engine.repeatLeft - 1) c.engine.rot c.next) hcur hless
    refine ⟨c', ?_, ?_, hrest⟩
    · rw [engineSteps, engineStep_of_repeating hrep]
      exact hsteps
    · rw [hevents, List.replicate_succ]
      exact List.append_assoc _ _ _

/-- Settles O25: one adoption and then `nextRepeat` repeats. -/
theorem oneShotIsSentOnePlusRepeatTimes : Obligations.OneShotIsSentOnePlusRepeatTimes := by
  intro c hrep hnext
  have hadopt := engineStep_of_handOff (not_repeating_iff.mpr hrep) hnext (Nat.succ_pos _)
  obtain ⟨c', hsteps, hevents, hrest⟩ := engineSteps_repeats (n := c.nextRepeat.toNat)
    (c := afterPacket c (.slot 0) (c.slotFrame 0) c.nextRepeat c.engine.rot none) rfl rfl
  refine ⟨c', ?_, ?_, hrest⟩
  · rw [Nat.add_comm, engineSteps, hadopt]
    exact hsteps
  · rw [hevents, Nat.add_comm 1, List.replicate_succ]
    exact List.append_assoc _ _ _

/-! ### The rotation -/

theorem length_rotationOrder (c : Block) : (rotationOrder c).length = c.table.maxLoaded := by
  simp [rotationOrder]

/-- The slot that the rotation visits at its `m`-th look (R169 E4). -/
theorem getElem_rotationOrder {c : Block} {m : Nat} (h : m < (rotationOrder c).length) :
    (rotationOrder c)[m] = (rotationStart c + m - 1) % c.table.maxLoaded + 1 := by
  simp [rotationOrder]

/-- From a slot below the watermark the rotation goes up to the watermark and then round from slot 1. -/
theorem rotationOrder_inside {c : Block} (h1 : 1 ≤ c.engine.rot) (hlt : c.engine.rot < c.table.maxLoaded) :
    rotationOrder c =
      List.range' (c.engine.rot + 1) (c.table.maxLoaded - c.engine.rot) ++ List.range' 1 c.engine.rot := by
  have hstart : rotationStart c = c.engine.rot + 1 := if_pos ⟨h1, hlt⟩
  have hlen : (rotationOrder c).length = (List.range' (c.engine.rot + 1) (c.table.maxLoaded - c.engine.rot) ++
      List.range' 1 c.engine.rot).length := by
    rw [length_rotationOrder, List.length_append, List.length_range', List.length_range']
    omega
  refine List.ext_getElem hlen fun m hm _ => ?_
  rw [getElem_rotationOrder, hstart]
  rw [length_rotationOrder] at hm
  by_cases hup : m < c.table.maxLoaded - c.engine.rot
  · rw [List.getElem_append_left (by rwa [List.length_range']), List.getElem_range', Nat.mod_eq_of_lt (by omega)]
    omega
  · rw [List.getElem_append_right (by rw [List.length_range']; omega), List.getElem_range', List.length_range',
      Nat.mod_eq_sub_mod (by omega), Nat.mod_eq_of_lt (by omega)]
    omega

/-- Otherwise it goes from slot 1 to the watermark. -/
theorem rotationOrder_outside {c : Block} (h : ¬(1 ≤ c.engine.rot ∧ c.engine.rot < c.table.maxLoaded)) :
    rotationOrder c = List.range' 1 c.table.maxLoaded := by
  have hstart : rotationStart c = 1 := if_neg h
  have hlen : (rotationOrder c).length = (List.range' 1 c.table.maxLoaded).length := by
    rw [length_rotationOrder, List.length_range']
  refine List.ext_getElem hlen fun m hm _ => ?_
  rw [getElem_rotationOrder, hstart, List.getElem_range']
  rw [length_rotationOrder] at hm
  rw [Nat.mod_eq_of_lt (by omega)]
  omega

/-- Settles O26: with `rot` at the watermark the rotation starts over, which is going up none and then round. -/
theorem rotationVisitsInCyclicOrder : Obligations.RotationVisitsInCyclicOrder := by
  intro c
  by_cases hinside : 1 ≤ c.engine.rot ∧ c.engine.rot < c.table.maxLoaded
  · obtain ⟨h1, hlt⟩ := hinside
    rw [if_pos ⟨h1, hlt.le⟩]
    exact rotationOrder_inside h1 hlt
  · rw [rotationOrder_outside hinside]
    split
    · next hrot =>
      have hlast : c.engine.rot = c.table.maxLoaded := by omega
      rw [hlast, Nat.sub_self]
      rfl
    · rfl

/-- With nothing to repeat and nothing handed off, the rotation says what a packet completion sends (R176). -/
theorem engineStep_of_rotation {c d : Block} (hrep : ¬(c.engine.cur = .slot 0 ∧ 0 < c.engine.repeatLeft))
    (hnext : c.next = none) (h : rotate (countPacket c) = .ok d) :
    engineStep c = .ok { emitTrack d with io := { (emitTrack d).io with sampled := false } } := by
  have hr : repeating (countPacket c) = false := not_repeating_iff.mpr hrep
  have hn : (countPacket c).next = none := hnext
  have hselect : selectFrame (countPacket c) = .ok d := by
    rw [selectFrame, if_neg (ne_true_of_eq_false hr), hn]
    exact h
  rw [engineStep, hselect]

/-- Among slots that exist the rotation's search finds the first valid one (R173). -/
theorem findValid_rotationOrder {c : Block} (h : c.table.maxLoaded ≤ c.params.n) :
    findValid c (rotationOrder c) = .ok ((rotationOrder c).find? fun i => !c.invalid i) :=
  findValid_ok fun _ hi => Nat.lt_succ_of_le ((mem_rotationOrder hi).2.trans h)

/-- Settles O27: the search stops at the first valid slot of the order. -/
theorem rotationSendsTheFirstValidSlot : Obligations.RotationSendsTheFirstValidSlot := by
  intro c before after j hrep hnext hmax horder hbefore hvalid
  have hj : j < c.slots := by
    have hmem : j ∈ rotationOrder c := by simp [horder]
    exact Nat.lt_succ_of_le ((mem_rotationOrder hmem).2.trans hmax)
  have hfind : ((rotationOrder c).find? fun i => !c.invalid i) = some j := by
    rw [List.find?_eq_some_iff_append]
    exact ⟨by simp [hvalid], before, after, horder, fun i hi => by simp [hbefore i hi]⟩
  have hsearch : findValid (countPacket c) (rotationOrder (countPacket c)) = .ok (some j) :=
    (findValid_rotationOrder (c := countPacket c) hmax).trans (congrArg Except.ok hfind)
  have hread : readSlot j (countPacket c) = .ok (c.slotFrame j) := readSlot_ok (c := countPacket c) hj
  have hrotate : rotate (countPacket c) = .ok (rotateTo j (c.slotFrame j) (countPacket c)) := by
    rw [rotate, hsearch]
    simp only [hread]
  rw [engineStep_of_rotation hrep hnext hrotate, ← hnext]
  rfl

/-- Settles O28: the search goes through the whole order and finds none. -/
theorem idleFallback : Obligations.IdleFallback := by
  intro c hrep hnext hmax hinvalid
  have hfind : ((rotationOrder c).find? fun i => !c.invalid i) = none := by
    rw [List.find?_eq_none]
    intro i hi
    obtain ⟨h1, hm⟩ := mem_rotationOrder hi
    simp [hinvalid i h1 hm]
  have hsearch : findValid (countPacket c) (rotationOrder (countPacket c)) = .ok none :=
    (findValid_rotationOrder (c := countPacket c) hmax).trans (congrArg Except.ok hfind)
  have hrotate : rotate (countPacket c) = .ok (sendIdle (countPacket c)) := by
    rw [rotate, hsearch]
  rw [engineStep_of_rotation hrep hnext hrotate, ← hnext]
  rfl

/-! ### Before the first load -/

/-- Between two loads, and at a statement of a load that publishes nothing, the hand-off and the watermark stay. -/
theorem Micro.unpublished {op : Instr} {c c' : Block} (hp : ¬publishes c) (h : Micro op c c') :
    c'.next = c.next ∧ c'.table.maxLoaded = c.table.maxLoaded := by
  by_cases hb : c.BetweenLoads
  · exact ⟨(h.between hb).next_eq, (h.between hb).maxLoaded_eq⟩
  cases h with
  | o3 x ret hs | p6 x ret hs | p8 x ret hs => simp [publishes, hs] at hp
  | held | o1 | o2 | p2 | p3 | p4 | p5 | p7keep | p7retire => exact ⟨rfl, rfl⟩
  | _ => exact absurd (by grind [Block.BetweenLoads]) hb

/-- Everything a move of context A can do: nothing at an idle block with no word at its port, a command's run, or the
end of a word that is no command (60_exceptions.md R184). -/
theorem foregroundMove_cases {g : Grain} {c c' : Block} (h : foregroundMove g c = .ok c') :
    c' = c ∨ (∃ ws i, commandMove g i (c.withCmds ws) = .ok c') ∨ ∃ ws, c' = (c.withCmds ws).ignore := by
  unfold foregroundMove at h
  split at h
  · exact .inr (.inl ⟨c.io.cmds, _, h⟩)
  · exact .inl (Except.ok.inj h).symm
  · split at h
    · exact .inr (.inl ⟨_, _, h⟩)
    · exact .inr (.inr ⟨_, (Except.ok.inj h).symm⟩)

theorem commandMove_engine {g : Grain} {i : Instr} {c c' : Block} (h : commandMove g i c = .ok c') :
    c'.engine = c.engine := by
  unfold commandMove at h
  split at h
  · exact congrArg Block.engine (Except.ok.inj h).symm
  · next hb =>
    have hserves := servesOnly_of_not_busy hb
    cases g with
    | micro => exact (microStep_cases hserves h).restKept.engine
    | burst =>
      have hkept := burst_rel Block.RestKept.refl (fun _ _ _ => Block.RestKept.trans)
        (fun _ _ hserves hmicro => (microStep_cases hserves hmicro).restKept) hserves h
      exact hkept.engine

theorem foregroundMove_engine {g : Grain} {c c' : Block} (h : foregroundMove g c = .ok c') :
    c'.engine = c.engine := by
  rcases foregroundMove_cases h with rfl | ⟨ws, i, hrun⟩ | ⟨ws, rfl⟩
  · rfl
  · exact commandMove_engine (c := c.withCmds ws) hrun
  · rfl

/-- A single step of context A at a statement that publishes nothing, the acceptance of a word included. -/
theorem foregroundMove_micro_unpublished {c c' : Block} (hp : ¬publishes c) (h : foregroundMove .micro c = .ok c') :
    c'.next = c.next ∧ c'.table.maxLoaded = c.table.maxLoaded := by
  rcases foregroundMove_cases h with rfl | ⟨ws, i, hrun⟩ | ⟨ws, rfl⟩
  · exact ⟨rfl, rfl⟩
  · unfold commandMove at hrun
    split at hrun
    · obtain rfl := Except.ok.inj hrun
      exact ⟨rfl, rfl⟩
    · next hb =>
      exact (microStep_cases (servesOnly_of_not_busy hb) hrun).unpublished (c := c.withCmds ws) hp
  · exact ⟨rfl, rfl⟩

/-- A block stays quiet where the engine is left alone, and the hand-off and the watermark are as a quiet block's. -/
theorem quiet_of_engine {c c' : Block} (h : quiet c) (hengine : c'.engine = c.engine) (hnext : c'.next = none)
    (hmax : c'.table.maxLoaded = 0) : quiet c' := by
  obtain ⟨-, -, hrep⟩ := h
  exact ⟨hnext, hmax, hengine ▸ hrep⟩

/-- Every move keeps a block quiet but a step of context A that publishes, or a burst that has published. -/
theorem quiet_of_blockMove {t : Turn} {c c' : Block} (h : quiet c) (hmove : blockMove t c = .ok c')
    (hmicro : t = .foreground .micro → ¬publishes c)
    (hburst : t = .foreground .burst → c'.next = none ∧ c'.table.maxLoaded = 0) : quiet c' := by
  have ⟨hnext, hmax, _⟩ := h
  cases t with
  | foreground g =>
    have hengine := foregroundMove_engine hmove
    cases g with
    | micro =>
      obtain ⟨hnext', hmax'⟩ := foregroundMove_micro_unpublished (hmicro rfl) hmove
      exact quiet_of_engine h hengine (hnext'.trans hnext) (hmax'.trans hmax)
    | burst =>
      obtain ⟨hnext', hmax'⟩ := hburst rfl
      exact quiet_of_engine h hengine hnext' hmax'
  | engine =>
    obtain rfl := Except.ok.inj ((engineStep_of_quiet h).symm.trans hmove)
    exact quiet_afterPacket_idle h _ _ _
  | setOutEnable v =>
    obtain rfl := Except.ok.inj hmove
    exact h
  | configWrite v =>
    obtain rfl := Except.ok.inj hmove
    unfold hostConfigWrite
    split <;> exact h
  | currentCheck =>
    obtain rfl := Except.ok.inj hmove
    obtain ⟨a, io, out, hcheck, -⟩ := currentCheck_eq c
    rw [hcheck]
    exact h
  | powerOnReset =>
    obtain rfl := Except.ok.inj hmove
    exact quiet_reset c.params

theorem eq_or_eq_other (ch k : Channel) : k = ch ∨ k = ch.other := by
  cases ch <;> cases k <;> simp [Channel.other]

/-- Settles O12: the picked move of the block in focus keeps it quiet, and the other block stays as it is. -/
theorem idleUntilTheFirstLoad : Obligations.IdleUntilTheFirstLoad := by
  refine ⟨quiet_reset, fun c hc => ⟨engineStep_of_quiet hc, quiet_afterPacket_idle hc _ _ _⟩, ?_⟩
  intro s t ch hc hstep hmicro hburst
  obtain ⟨hmove, hother⟩ := step_next_cases hstep
  rcases eq_or_eq_other (pickTurn s).2.focus ch with rfl | rfl
  · exact quiet_of_blockMove hc hmove (hmicro rfl) (hburst rfl)
  · rwa [hother]

end Sys2Proof.Machine
end

section
/-! Commands that are turned away: by their operands or their channel, as malformed packets, or because the block is
busy (60_exceptions.md R159 to R161, R164, R184; 44_service_mode.md R146). -/

namespace Sys2Proof.Machine

/-! ### Refused operands -/

theorem inRange_eq_false_iff {x : Word} {lo hi : Int} : inRange x lo hi = false ↔ outside x lo hi := by
  unfold inRange outside
  rw [decide_eq_false_iff_not]
  omega

theorem startOneShot_refused {op : Instr} {admitted : Bool} {payload : List Byte} {c : Block}
    (h : admitted = false) : startOneShot op admitted payload c = .ok c.ignore :=
  if_neg (ne_true_of_eq_false h)

/-- A conversation is refused on MAIN, and wherever its own checks fail (44_service_mode.md R146). -/
theorem startService_refused {op : Instr} {admitted : Bool} {copy : SvcRegs → SvcRegs} {c : Block}
    (h : c.params.channel = .main ∨ admitted = false) : startService op admitted copy c = .ok c.ignore := by
  refine if_neg ?_
  rcases h with hch | hadmitted
  · simp [hch]
  · simp [hadmitted]

/-- Every operation ignores its refused operands (60_exceptions.md R160, R164). -/
theorem start_refused {i : Instr} {c : Block} (h : refusedOperands c.params i) :
    (commandOf i).start c = .ok c.ignore := by
  cases i with
  | throttle slot cab speed dir =>
    have hchecks : (inRange slot 1 c.params.n && cabOk cab && inRange dir 0 1) = false := by
      simpa only [refusedOperands, cabOk, Bool.and_eq_false_iff, inRange_eq_false_iff, or_assoc] using h
    exact if_neg (ne_true_of_eq_false hchecks)
  | functionShort cab fByte =>
    refine startOneShot_refused ?_
    simpa only [refusedOperands, cabOk, byteOk, Bool.and_eq_false_iff, inRange_eq_false_iff] using h
  | functionLong cab fByte eByte =>
    refine startOneShot_refused ?_
    simpa only [refusedOperands, cabOk, byteOk, Bool.and_eq_false_iff, inRange_eq_false_iff, or_assoc] using h
  | accessory addr port activate =>
    refine startOneShot_refused ?_
    simpa only [refusedOperands, Bool.and_eq_false_iff, inRange_eq_false_iff, or_assoc] using h
  | rawPacket argc args =>
    obtain ⟨h3, h6, hbytes, hslot⟩ := h
    have hall : args.tail.all byteOk = true := List.all_eq_true.mpr fun b hb => inRange_of_not_outside (hbytes b hb)
    have hcount : ¬(argc.toNat < 3 ∨ 6 < argc.toNat) := by omega
    show startRawPacket argc args c = .ok c.ignore
    simp only [startRawPacket, if_neg hcount, hall, inRange_eq_false_iff.mpr hslot, Bool.not_true, Bool.not_false,
      Bool.false_eq_true, if_false, if_true]
  | readCv cv cb cbSub =>
    show startReadCv cv cb cbSub c = .ok c.ignore
    refine startService_refused ?_
    simpa only [refusedOperands, cvOk, inRange_eq_false_iff] using h
  | writeCvByte cv value cb cbSub =>
    show startWriteCvByte cv value cb cbSub c = .ok c.ignore
    refine startService_refused ?_
    simpa only [refusedOperands, cvOk, byteOk, Bool.and_eq_false_iff, inRange_eq_false_iff] using h
  | writeCvBit cv bit value cb cbSub =>
    show startWriteCvBit cv bit value cb cbSub c = .ok c.ignore
    refine startService_refused ?_
    simpa only [refusedOperands, cvOk, inRange_eq_false_iff] using h
  | writeMainCvByte cab cv value =>
    refine startOneShot_refused ?_
    simpa only [refusedOperands, cabOk, cvOk, byteOk, Bool.and_eq_false_iff, inRange_eq_false_iff, or_assoc] using h
  | writeMainCvBit cab cv bit value =>
    refine startOneShot_refused ?_
    simpa only [refusedOperands, cabOk, cvOk, Bool.and_eq_false_iff, inRange_eq_false_iff] using h
  | printLastPacket => exact h.elim
  | printCapacity => exact h.elim

/-- Settles O37: such a command is over after its first step, with its label. -/
theorem refusedOperandsAreIgnored : Obligations.RefusedOperandsAreIgnored := by
  intro i s hs hrefused
  have hstart : (commandOf i).start s.cur = .ok (s.cur.over [.ended .ignored]) := start_refused hrefused
  rw [exec_ends_at_once hs hstart, over_of_idle hs]

/-! ### Malformed packets -/

/-- RAW_PACKET checks the count, then the bytes, before it looks at the slot (R164). -/
theorem startRawPacket_malformed {argc : BitVec 4} {args : List Word} {c : Block}
    (h : argc.toNat < 3 ∨ 6 < argc.toNat ∨ ∃ b ∈ args.tail, outside b 0 255) :
    startRawPacket argc args c = .ok c.rejectPacket := by
  by_cases hcount : argc.toNat < 3 ∨ 6 < argc.toNat
  · exact if_pos hcount
  · obtain ⟨b, hb, hout⟩ : ∃ b ∈ args.tail, outside b 0 255 := by
      rwa [← or_assoc, or_iff_right hcount] at h
    have hall : args.tail.all byteOk = false := List.all_eq_false.mpr
      ⟨b, hb, ne_true_of_eq_false (inRange_eq_false_iff.mpr hout)⟩
    simp only [startRawPacket, if_neg hcount, hall, Bool.not_false, if_true]

/-- Settles O36: such a command is over after its first step, with its response and its label. -/
theorem rawPacketRejectsBadPackets : Obligations.RawPacketRejectsBadPackets := by
  intro s argc args hs hbad
  have hstart : (commandOf (.rawPacket argc args)).start s.cur =
      .ok (s.cur.over [.response .invalidPacket, .ended .invalidPacket]) :=
    (startRawPacket_malformed hbad).trans (congrArg Except.ok (emit_endCommand_eq_over _ _ _))
  rw [exec_ends_at_once hs hstart, over_of_idle hs]

/-! ### A busy block -/

/-- Settles O8: the port looks at the running command before anything else. -/
theorem busyBlockTurnsCommandAway : Obligations.BusyBlockTurnsCommandAway := by
  intro i j pos s hs hne
  have hbusy : busyWithOther i s.cur = true := by
    simpa [busyWithOther, hs] using hne.symm
  rw [exec_eq, runCommand, if_pos hbusy]

end Sys2Proof.Machine
end

section
/-! The other moves of a station: a command word accepted at the port, and the moves of the host and of the current
monitor (60_exceptions.md R180, R181, R184). -/

namespace Sys2Proof.Machine

/-! ### A word at the port -/

/-- A step that is a foreground move of an idle block runs the command at its port. -/
theorem step_accepts {s : State} {ch : Channel} {g : Grain} {rest : List (Channel × Turn)} {w : CommandWord}
    {ws : List CommandWord} {i : Instr} (hpick : pickTurn s = (.foreground g, { s with turns := rest, focus := ch }))
    (hdecode : decode w = .ok i) (hidle : (s.block ch).seq = .idle) (hport : (s.block ch).io.cmds = w :: ws) :
    step s = exec i ((s.moving ch g rest).setBlock ch ((s.block ch).withCmds ws)) := by
  have hstep : step s = foregroundTurn (s.moving ch g rest) := by
    rw [step, hpick]
    rfl
  have hcur : (s.moving ch g rest).cur = s.block ch := moving_block s ch g rest ch
  rw [hstep, foregroundTurn, hcur, hidle, hport]
  simp only [acceptCommand, hdecode, hcur]
  rfl

/-- Settles O5: a listed foreground move is picked first, and with none listed so is that of a block with a word to take
and no step owed to context B. -/
theorem stepRunsDecodedCommand : Obligations.StepRunsDecodedCommand := by
  intro s w ws i hdecode
  refine ⟨fun ch g rest hturns hidle hport => ?_, fun ch hturns hch hidle hport hsampled => ?_⟩
  · exact step_accepts (by simp only [pickTurn, hturns]) hdecode hidle hport
  · subst hch
    have hdefault : defaultTurn (s.block s.focus.other) = .foreground .burst := by
      simp [defaultTurn, foregroundReady, hidle, hport, hsampled]
    exact step_accepts (by simp only [pickTurn, hturns, hdefault]) hdecode hidle hport

/-! ### Moves from outside -/

/-- A listed move that is not context A's leaves the grain alone, too. -/
theorem step_listed {s : State} {ch : Channel} {t : Turn} {rest : List (Channel × Turn)}
    (h : s.turns = (ch, t) :: rest) (ht : ∀ g, t ≠ .foreground g) :
    step s = ({ s with focus := ch, turns := rest } : State).lift (blockMove t (s.block ch)) := by
  rw [← pickTurn_block s ch, step]
  simp only [pickTurn, h]
  cases t with
  | foreground g => exact absurd rfl (ht g)
  | _ => rfl

/-- A check with a sample listed: the sample goes into the accumulator, and a trip shows where the smoothed current is
above the limit (R180, R181). -/
theorem currentCheck_listed {c : Block} {v : Nat} {vs : List Nat} (h : c.io.currents = v :: vs) :
    let acc := Config.smooth c.acc (min v c.params.curMax)
    currentCheck c =
      { c with
        acc := acc
        io := { c.io with
          currents := vs
          events := c.io.events ++
            (if c.params.currentSampleMax < Config.smoothOut acc then [.overcurrent] else []) } } := by
  simp only [currentCheck, drawCurrent_listed h, getCurrent]
  split
  · rfl
  · simp

/-- Settles O9: each is the listed move of its block. -/
theorem outsideMovesWriteTheirOwnRegister : Obligations.OutsideMovesWriteTheirOwnRegister := by
  intro s ch v sample samples rest c moved acc
  refine ⟨fun hturns => ?_, fun hturns hidle => ?_, fun hturns hbusy => ?_, fun hturns hsample => ?_⟩
  · exact step_listed hturns nofun
  · have hwrite : hostConfigWrite v c = { c with accessoriesReversed := v } := if_pos hidle
    rw [step_listed hturns nofun, blockMove, hwrite]
    rfl
  · have hwrite : hostConfigWrite v c = c := if_neg hbusy
    rw [step_listed hturns nofun, blockMove, hwrite]
    rfl
  · rw [step_listed hturns nofun, blockMove, currentCheck_listed hsample]
    rfl

end Sys2Proof.Machine
end

section
/-! Reset: what every register of a block holds then, that a reset station is sound, and a power-on reset of one block
(70_reset_and_hazards.md R188, R189, R191). -/

namespace Sys2Proof.Machine

/-! ### The registers at reset -/

/-- Each slot byte reads at reset as its byte number says (10_state.md R27). -/
theorem byteAt_reset (q : Params) (a : Nat) : (Block.reset q).byteAt a = if a % 9 = 6 then 1 else 0 := get_nil a

theorem bitCount_reset (q : Params) (j : Nat) : (Block.reset q).table.bitCounts.getD j 0 = 0 :=
  congrArg Frame.bits (slotFrame_reset q j)

theorem mapped_reset (q : Params) (s : Nat) : (Block.reset q).mapped s = none :=
  List.getD_eq_getElem?_getD.trans (List.getElem?_getD_replicate_default_eq none q.n (s - 1))

/-- Both blocks are built by `Block.reset`: one argument over the channel serves them (70_reset_and_hazards.md R188). -/
theorem both_reset {P : Block → Prop} (h : ∀ ch, P (Block.reset (Config.resetParams ch))) : State.reset.Both P :=
  ⟨h .main, h .prog⟩

/-- Settles O11: the slot table is read through its accessors, and every other register is one that `Block.reset` sets
itself. -/
theorem resetLeavesTheStatedValues : Obligations.ResetLeavesTheStatedValues := by
  refine both_reset fun ch => ?_
  refine ⟨⟨rfl, rfl, rfl, rfl, rfl, rfl, rfl⟩, ⟨rfl, rfl, ?_, ?_, fun j => ⟨?_, ?_⟩⟩, rfl, rfl, rfl, rfl, rfl⟩
  · exact mapped_reset _
  · exact byteAt_reset _
  · exact bitCount_reset _ j
  · exact invalid_reset _ j

/-! ### A reset station is sound -/

/-- The values taken at reset are within the spec's bounds (00_scope.md R9, R10, R16). -/
theorem resetParams_wf (ch : Channel) : (Config.resetParams ch).wf = true := by
  cases ch <;> simp [Params.wf, Config.resetParams]

theorem one_le_n_of_wf {q : Params} (h : q.wf = true) : 1 ≤ q.n := by
  simp only [Params.wf, Bool.and_eq_true, decide_eq_true_eq] at h
  omega

theorem reset_outsideLoad (q : Params) : (Block.reset q).OutsideLoad := outsideLoad_of_idle rfl

theorem reset_shapeOk {q : Params} (hq : q.wf = true) : (Block.reset q).ShapeOk :=
  ⟨hq, List.length_replicate, List.length_replicate, rfl, Nat.le_refl 2, Nat.le_of_ble_eq_true rfl, rfl⟩

/-- Nothing is mapped and nothing held for recycling: the empty pool (10_state.md R28 to R30). -/
theorem reset_poolOk {q : Params} (hq : q.wf = true) : (Block.reset q).PoolOk := by
  have hbounds : (Block.reset q).PoolBounds := ⟨List.length_replicate, Nat.zero_le _, nofun, one_le_n_of_wf hq⟩
  refine hbounds.outside (reset_outsideLoad q) ?_
  simp [Block.PoolSettled, poolPartition, Block.reset]

/-- No slot is valid, the idle packet is latched and nothing was sent (10_state.md R27, R35). -/
theorem reset_framesOk (q : Params) : (Block.reset q).FramesOk := by
  refine framesOk_iff.mpr ⟨fun j _ hj => ?_, ⟨idleFrame_complete, nofun⟩, (reset_outsideLoad q).encodedOk⟩
  exact absurd ((invalid_reset q j).symm.trans hj) nofun

/-- A power-on reset leaves a block that is reset already as it is. -/
theorem powerOnReset_reset (q : Params) : powerOnReset (Block.reset q) = Block.reset q := rfl

theorem reset_sound {q : Params} (hq : q.wf = true) : (Block.reset q).Sound := by
  have hmemory := powerOnReset_memoryOk (Block.reset q)
  have hflags := powerOnReset_flagsOk (Block.reset q)
  rw [powerOnReset_reset] at hmemory hflags
  exact ⟨reset_shapeOk hq, hmemory, positionOk_of_idle rfl, reset_poolOk hq, hflags, reset_framesOk q⟩

/-- Every count and current is 0 (10_state.md R32, R44, R45). -/
theorem reset_rangesOk {q : Params} (hq : q.wf = true) : (Block.reset q).RangesOk := by
  have hzero : (0 : Byte) ≤ 4 := by decide
  exact Block.RegistersInRange.atIdle ⟨hq, hzero, hzero, Nat.zero_le _, Nat.zero_le _⟩ rfl

/-- Settles O53: the parameters at reset are within their bounds, and a reset block with such parameters is sound. -/
theorem resetIsSound : Obligations.ResetIsSound := by
  have hranges := fun ch => reset_rangesOk (resetParams_wf ch)
  refine ⟨⟨rfl, rfl⟩, both_reset fun ch => reset_sound (resetParams_wf ch), both_reset fun ch => ?_,
    both_reset fun ch => ?_⟩
  · obtain ⟨-, hrepeats, -⟩ := hranges ch
    exact hrepeats
  · obtain ⟨-, -, hcurrents⟩ := hranges ch
    exact hcurrents

/-! ### A power-on reset -/

/-- Settles O13: it is a listed move of its block, and it builds that block anew from the parameters, keeping what was
seen of it. -/
theorem powerOnResetIsTotal : Obligations.PowerOnResetIsTotal := by
  intro s ch rest hturns
  have hmove : blockMove .powerOnReset (s.block ch) = .ok (powerOnReset (s.block ch)) := rfl
  obtain ⟨t, hstep, hreset, hother⟩ := step_of_blockMove_ok hturns hmove
  refine ⟨t, hstep, hother, ?_, ?_⟩ <;> rw [hreset] <;> rfl

end Sys2Proof.Machine
end

section
/-! Published command words (95_test_vectors.md 4.2 to 4.6). -/

namespace Sys2Proof

/-- A word recognised as the encoding of a well-formed operation decodes to it (30_encoding.md R70, R71). -/
theorem decode_of_encode_eq {w : CommandWord} {i : Instr} (hwf : i.wf = true) (hw : encode i = w) :
    decode w = .ok i :=
  hw ▸ decodeInvertsEncode i hwf

/-- Settles O4: each word is the encoder's word of its operation, all fields evaluated, and the decoder inverts the
encoder. -/
theorem sampleWordsDecode : Obligations.SampleWordsDecode := by
  refine ⟨?throttle, ?functionShort, ?accessory, ?rawPacket, ?writeCvByte, ?printCapacity⟩
  case rawPacket =>
    have hfour : (Instr.rawPacket 4 [1, 3, 0x3F, 0x80]).wf = true := rfl
    exact decode_of_encode_eq hfour rfl
  all_goals exact decode_of_encode_eq rfl rfl

end Sys2Proof
end
